-- ==== Sys2Proof/Word.lean ====
section
/-! DEFINITION. The word types of CORE (00_scope.md R10, R12, R14; 20_memory.md R63). -/

namespace Sys2Proof

/-- A vector value: 128 bits, seen as eight 16-bit lanes or as sixteen bytes (00_scope.md R12). -/
abbrev Vec := BitVec 128

/-- One lane of a vector, one LLR entry, RESULT, KPTR, or one word of the read port: 16 bits (00_scope.md R10). -/
abbrev Half16 := BitVec 16

/-- One byte of a vector (00_scope.md R12). -/
abbrev Byte := BitVec 8

/-- A command word W (00_scope.md R14; 30_encoding.md R80). -/
abbrev CmdWord := BitVec 64

end Sys2Proof
end

