-- ==== Sys2Proof/Config.lean ====
section
/-! DEFINITION. The parameters of a model of CORE (00_scope.md R8), the two policies for reading unwritten state
(60_exceptions.md R216), and the free values behind them (93_implementation_defined.md I1).
The default values stand in Machine/Trellis.lean. -/

namespace Sys2Proof

/-- Parameter BM_SHIFT: how the ">>1" of the branch-metric formula binds (00_scope.md R8; 41_forward.md R142, R149). -/
inductive BmShift where
  | leOnly
  | wholeSum
  deriving DecidableEq, Repr

/-- Parameter PSIGN_MIN: what sign application gives for -32768 under a negative pattern lane
(00_scope.md R8; 40_vector.md R113). -/
inductive PsignMin where
  | sat
  | wrap
  deriving DecidableEq, Repr

/-- What the model does when a command or a host read meets state that nothing has written since reset.
`fault` is the model's UNINIT_READ (60_exceptions.md R216); `value` is what hardware does: it goes on with an unspecified
value (93_implementation_defined.md I1). Log 4. -/
inductive UninitPolicy where
  | fault
  | value
  deriving DecidableEq, Repr

/-- Parameter TRELLIS: the seven vectors of the trellis ROM, in the order ROM[0] to ROM[6] (10_state.md R34). -/
structure Trellis where
  sysPol   : Vec
  parPol   : Vec
  bwParPol : Vec
  fGather0 : Vec
  fGather1 : Vec
  lGather0 : Vec
  lGather1 : Vec
  deriving DecidableEq, Repr

/-- The parameters of a model of CORE (00_scope.md R8), with the two UNINIT_READ policies of the model (log 4). -/
structure Params where
  /-- KMAX, the largest number of trellis stages in one block. -/
  kmax      : Nat
  bmShift   : BmShift
  psignMin  : PsignMin
  trellis   : Trellis
  /-- What reading an unwritten VR or BETA does. -/
  uninitReg : UninitPolicy
  /-- What reading an unwritten ALPHA, BM or LLR entry does. -/
  uninitMem : UninitPolicy
  deriving DecidableEq, Repr

/-- FREE VALUE: what an ALPHA entry that nothing has written reads as, where the policy is `value`
(93_implementation_defined.md I1). Log 6. -/
opaque Config.unwrittenAlpha : Nat → Vec

/-- FREE VALUE: what the lo half of a BM entry that nothing has written reads as, where the policy is `value`
(93_implementation_defined.md I1). Log 6. -/
opaque Config.unwrittenBmLo : Nat → Vec

/-- FREE VALUE: what the hi half of a BM entry that nothing has written reads as, where the policy is `value`
(93_implementation_defined.md I1). Log 6. -/
opaque Config.unwrittenBmHi : Nat → Vec

/-- FREE VALUE: what an LLR entry that nothing has written reads as, where the policy is `value`
(93_implementation_defined.md I1). Log 6. -/
opaque Config.unwrittenLlr : Nat → Half16

end Sys2Proof
end

