-- ==== Sys2Proof/Syntax.lean ====
section
/-! DEFINITION. The 27 commands of CORE (30_encoding.md R85; spec/opcode_table.json), each operand held as the READING that
30_encoding.md R84 gives its field: a signed scalar is an Int, a count or an index is a Nat. -/

namespace Sys2Proof

/-- A vector register index, 0 to 15: every value names a register (30_encoding.md R83). -/
abbrev VReg := Fin 16

/-- Field H: which half of a BM entry (30_encoding.md R81). -/
inductive BmHalf where
  | lo
  | hi
  deriving DecidableEq, Repr

/-- The commands, one constructor per row of the opcode table, in the table's order. -/
inductive Instr where
  | nop
  | setk   (k : Nat)
  | vzero  (vd : VReg)
  | vbcast (vd : VReg) (v : Int)
  | vsign  (vd va vb : VReg)
  | vsra   (vd va : VReg) (n : Nat)
  | vadds  (vd va vb : VReg)
  | vsubs  (vd va vb : VReg)
  | vilo   (vd va vb : VReg)
  | vihi   (vd va vb : VReg)
  | vbshuf (vd va vb : VReg)
  | vl0b   (vd va : VReg)
  | vmax   (vd va vb : VReg)
  | vhmin  (vd va : VReg)
  | vsh32  (vd va : VReg) (sel : Byte)
  | vsh16l (vd va : VReg) (sel : Byte)
  | vsh16h (vd va : VReg) (sel : Byte)
  | vins   (vd : VReg) (lane : Fin 8) (v : Int)
  | ldc    (vd : VReg) (c : Nat)
  | lda    (vd : VReg) (k : Nat)
  | sta    (va : VReg) (k : Nat)
  | ldbm   (vd : VReg) (k : Nat) (half : BmHalf)
  | stbm   (va : VReg) (k : Nat) (half : BmHalf)
  | ldb    (vd : VReg)
  | stb    (va : VReg)
  | fwd    (x z le : Int)
  | bwd    (z norm : Int)
  deriving DecidableEq, Repr

end Sys2Proof
end

