-- ==== Sys2Proof/WellFormed.lean ====
section
/-! DEFINITION. Which commands the encoding can carry: every operand is a reading of its field (30_encoding.md R81, R84).
A register index, a lane number and a selector fit their fields by their types. A stage or constant index outside CORE's
memories is well formed: the word exists, and the command raises an error when it runs (60_exceptions.md R211). -/

namespace Sys2Proof

/-- A signed 16-bit scalar (30_encoding.md R84: s16 of the field). -/
def fitsS16 (v : Int) : Bool := decide (-32768 ≤ v) && decide (v ≤ 32767)

/-- An unsigned 16-bit index or count (30_encoding.md R84: zext of the field). -/
def fitsU16 (n : Nat) : Bool := decide (n < 65536)

/-- The command has a command word (30_encoding.md R84). -/
def Instr.wf : Instr → Bool
  | .nop => true
  | .setk k => fitsU16 k
  | .vzero _ => true
  | .vbcast _ v => fitsS16 v
  | .vsign _ _ _ => true
  | .vsra _ _ n => fitsU16 n
  | .vadds _ _ _ => true
  | .vsubs _ _ _ => true
  | .vilo _ _ _ => true
  | .vihi _ _ _ => true
  | .vbshuf _ _ _ => true
  | .vl0b _ _ => true
  | .vmax _ _ _ => true
  | .vhmin _ _ => true
  | .vsh32 _ _ _ => true
  | .vsh16l _ _ _ => true
  | .vsh16h _ _ _ => true
  | .vins _ _ v => fitsS16 v
  | .ldc _ c => fitsU16 c
  | .lda _ k => fitsU16 k
  | .sta _ k => fitsU16 k
  | .ldbm _ k _ => fitsU16 k
  | .stbm _ k _ => fitsU16 k
  | .ldb _ => true
  | .stb _ => true
  | .fwd x z le => fitsS16 x && fitsS16 z && fitsS16 le
  | .bwd z norm => fitsS16 z && fitsS16 norm

end Sys2Proof
end

