-- ==== Sys2Proof/Decode.lean ====
section
/-! DEFINITION. The decoder, total on every 64-bit word, and the encoder (30_encoding.md R80 to R89).
A word that is no command is rejected by name: `illegalOpcode` or `reservedField`, in that order (R89). -/

namespace Sys2Proof

/-- Why a word is no command (30_encoding.md R86, R87). -/
inductive DecodeError where
  | illegalOpcode
  | reservedField
  deriving DecidableEq, Repr

/-! The named fields of a command word W (R81). -/

/-- OP, W[63:56]. -/
def opField (w : CmdWord) : Byte := w.extractLsb' 56 8

/-- VD, W[55:52]. -/
def vdField (w : CmdWord) : VReg := (w.extractLsb' 52 4).toFin

/-- VA, W[51:48]. -/
def vaField (w : CmdWord) : VReg := (w.extractLsb' 48 4).toFin

/-- VB, W[47:44]. -/
def vbField (w : CmdWord) : VReg := (w.extractLsb' 44 4).toFin

/-- X16, W[47:32]. -/
def x16Field (w : CmdWord) : Half16 := w.extractLsb' 32 16

/-- H, W[32]: 0 is lo, 1 is hi. -/
def hField (w : CmdWord) : BmHalf := if w.getLsbD 32 then .hi else .lo

/-- IDX16, W[31:16]; Z16 has the same bits. -/
def idx16Field (w : CmdWord) : Half16 := w.extractLsb' 16 16

/-- LANE, W[18:16]. -/
def laneField (w : CmdWord) : Fin 8 := (w.extractLsb' 16 3).toFin

/-- IMM16, W[15:0]; LE16 and NORM16 have the same bits. -/
def imm16Field (w : CmdWord) : Half16 := w.extractLsb' 0 16

/-- IMM8, W[7:0]. -/
def imm8Field (w : CmdWord) : Byte := w.extractLsb' 0 8

/-- One row of the opcode map (R85): a word is this row's command exactly when `w &&& mask = pattern`. -/
structure OpcodeRow where
  op      : Byte
  pattern : CmdWord
  mask    : CmdWord
  build   : CmdWord → Instr

/-- The sequencing group and the vector primitives of the opcode map (R85), operands read as R84 says. -/
def vectorRows : List OpcodeRow :=
  [ ⟨0x01, 0x0100000000000000, 0xFFFFFFFFFFFFFFFF, fun _ => .nop⟩,
    ⟨0x02, 0x0200000000000000, 0xFFFFFFFFFFFF0000, fun w => .setk (imm16Field w).toNat⟩,
    ⟨0x10, 0x1000000000000000, 0xFF0FFFFFFFFFFFFF, fun w => .vzero (vdField w)⟩,
    ⟨0x11, 0x1100000000000000, 0xFF0FFFFFFFFF0000, fun w => .vbcast (vdField w) (imm16Field w).toInt⟩,
    ⟨0x12, 0x1200000000000000, 0xFF000FFFFFFFFFFF, fun w => .vsign (vdField w) (vaField w) (vbField w)⟩,
    ⟨0x13, 0x1300000000000000, 0xFF00FFFFFFFF0000,
      fun w => .vsra (vdField w) (vaField w) (imm16Field w).toNat⟩,
    ⟨0x14, 0x1400000000000000, 0xFF000FFFFFFFFFFF, fun w => .vadds (vdField w) (vaField w) (vbField w)⟩,
    ⟨0x15, 0x1500000000000000, 0xFF000FFFFFFFFFFF, fun w => .vsubs (vdField w) (vaField w) (vbField w)⟩,
    ⟨0x16, 0x1600000000000000, 0xFF000FFFFFFFFFFF, fun w => .vilo (vdField w) (vaField w) (vbField w)⟩,
    ⟨0x17, 0x1700000000000000, 0xFF000FFFFFFFFFFF, fun w => .vihi (vdField w) (vaField w) (vbField w)⟩,
    ⟨0x18, 0x1800000000000000, 0xFF000FFFFFFFFFFF, fun w => .vbshuf (vdField w) (vaField w) (vbField w)⟩,
    ⟨0x19, 0x1900000000000000, 0xFF00FFFFFFFFFFFF, fun w => .vl0b (vdField w) (vaField w)⟩,
    ⟨0x1A, 0x1A00000000000000, 0xFF000FFFFFFFFFFF, fun w => .vmax (vdField w) (vaField w) (vbField w)⟩,
    ⟨0x1B, 0x1B00000000000000, 0xFF00FFFFFFFFFFFF, fun w => .vhmin (vdField w) (vaField w)⟩,
    ⟨0x1C, 0x1C00000000000000, 0xFF00FFFFFFFFFF00,
      fun w => .vsh32 (vdField w) (vaField w) (imm8Field w)⟩,
    ⟨0x1D, 0x1D00000000000000, 0xFF00FFFFFFFFFF00,
      fun w => .vsh16l (vdField w) (vaField w) (imm8Field w)⟩,
    ⟨0x1E, 0x1E00000000000000, 0xFF00FFFFFFFFFF00,
      fun w => .vsh16h (vdField w) (vaField w) (imm8Field w)⟩ ]

/-- The data-movement and recursion groups of the opcode map (R85), operands read as R84 says. -/
def hostRows : List OpcodeRow :=
  [ ⟨0x20, 0x2000000000000000, 0xFF0FFFFFFFF80000,
      fun w => .vins (vdField w) (laneField w) (imm16Field w).toInt⟩,
    ⟨0x21, 0x2100000000000000, 0xFF0FFFFFFFFF0000, fun w => .ldc (vdField w) (imm16Field w).toNat⟩,
    ⟨0x22, 0x2200000000000000, 0xFF0FFFFF0000FFFF, fun w => .lda (vdField w) (idx16Field w).toNat⟩,
    ⟨0x23, 0x2300000000000000, 0xFFF0FFFF0000FFFF, fun w => .sta (vaField w) (idx16Field w).toNat⟩,
    ⟨0x24, 0x2400000000000000, 0xFF0FFFFE0000FFFF,
      fun w => .ldbm (vdField w) (idx16Field w).toNat (hField w)⟩,
    ⟨0x25, 0x2500000000000000, 0xFFF0FFFE0000FFFF,
      fun w => .stbm (vaField w) (idx16Field w).toNat (hField w)⟩,
    ⟨0x26, 0x2600000000000000, 0xFF0FFFFFFFFFFFFF, fun w => .ldb (vdField w)⟩,
    ⟨0x27, 0x2700000000000000, 0xFFF0FFFFFFFFFFFF, fun w => .stb (vaField w)⟩,
    ⟨0x30, 0x3000000000000000, 0xFFFF000000000000,
      fun w => .fwd (x16Field w).toInt (idx16Field w).toInt (imm16Field w).toInt⟩,
    ⟨0x31, 0x3100000000000000, 0xFFFFFFFF00000000,
      fun w => .bwd (idx16Field w).toInt (imm16Field w).toInt⟩ ]

/-- The opcode map (R85), all 27 rows. -/
def opcodeTable : List OpcodeRow := vectorRows ++ hostRows

/-- The row of an opcode, if R85 has one. -/
def rowOf (op : Byte) : Option OpcodeRow := opcodeTable.find? fun r => r.op == op

/-- Decoding a word, steps 1 and 2 of R89: an opcode outside R85 is illegal (R87), then a reserved bit that is 1 is an error
(R86), and otherwise the word is its row's command. -/
def decode (w : CmdWord) : Except DecodeError Instr :=
  match rowOf (opField w) with
  | none => .error .illegalOpcode
  | some r => if w &&& r.mask = r.pattern then .ok (r.build w) else .error .reservedField

/-! The encoder. Each format is written out as R82 lays it out, from bit 63 down. -/

/-- A register index as a 4-bit field. -/
def regBits (r : VReg) : BitVec 4 := BitVec.ofNat 4 r.val

/-- A signed scalar as a 16-bit field. -/
def sBits (v : Int) : Half16 := BitVec.ofInt 16 v

/-- An unsigned index or count as a 16-bit field. -/
def uBits (n : Nat) : Half16 := BitVec.ofNat 16 n

/-- H as a 1-bit field. -/
def hBits : BmHalf → BitVec 1
  | .lo => 0#1
  | .hi => 1#1

/-- Format N. -/
def encN (op : Byte) : CmdWord := op ++ 0#56

/-- Format K. -/
def encK (op : Byte) (imm : Half16) : CmdWord := op ++ 0#40 ++ imm

/-- Format D. -/
def encD (op : Byte) (vd : VReg) : CmdWord := op ++ regBits vd ++ 0#52

/-- Format A. -/
def encA (op : Byte) (va : VReg) : CmdWord := op ++ 0#4 ++ regBits va ++ 0#48

/-- Format RR. -/
def encRR (op : Byte) (vd va : VReg) : CmdWord := op ++ regBits vd ++ regBits va ++ 0#48

/-- Format RRR. -/
def encRRR (op : Byte) (vd va vb : VReg) : CmdWord := op ++ regBits vd ++ regBits va ++ regBits vb ++ 0#44

/-- Format DI. -/
def encDI (op : Byte) (vd : VReg) (imm : Half16) : CmdWord := op ++ regBits vd ++ 0#36 ++ imm

/-- Format RI16. -/
def encRI16 (op : Byte) (vd va : VReg) (imm : Half16) : CmdWord := op ++ regBits vd ++ regBits va ++ 0#32 ++ imm

/-- Format RI8. -/
def encRI8 (op : Byte) (vd va : VReg) (imm : Byte) : CmdWord := op ++ regBits vd ++ regBits va ++ 0#40 ++ imm

/-- Format DL. -/
def encDL (op : Byte) (vd : VReg) (lane : Fin 8) (imm : Half16) : CmdWord :=
  op ++ regBits vd ++ 0#33 ++ BitVec.ofNat 3 lane.val ++ imm

/-- Format MD. -/
def encMD (op : Byte) (vd : VReg) (idx : Half16) : CmdWord := op ++ regBits vd ++ 0#20 ++ idx ++ 0#16

/-- Format MDH. -/
def encMDH (op : Byte) (vd : VReg) (half : BmHalf) (idx : Half16) : CmdWord :=
  op ++ regBits vd ++ 0#19 ++ hBits half ++ idx ++ 0#16

/-- Format MA. -/
def encMA (op : Byte) (va : VReg) (idx : Half16) : CmdWord := op ++ 0#4 ++ regBits va ++ 0#16 ++ idx ++ 0#16

/-- Format MAH. -/
def encMAH (op : Byte) (va : VReg) (half : BmHalf) (idx : Half16) : CmdWord :=
  op ++ 0#4 ++ regBits va ++ 0#15 ++ hBits half ++ idx ++ 0#16

/-- Format F. -/
def encF (op : Byte) (x z le : Half16) : CmdWord := op ++ 0#8 ++ x ++ z ++ le

/-- Format B. -/
def encB (op : Byte) (z norm : Half16) : CmdWord := op ++ 0#24 ++ z ++ norm

/-- The command word of a command (R82, R85). -/
def encode : Instr → CmdWord
  | .nop => encN 0x01
  | .setk k => encK 0x02 (uBits k)
  | .vzero vd => encD 0x10 vd
  | .vbcast vd v => encDI 0x11 vd (sBits v)
  | .vsign vd va vb => encRRR 0x12 vd va vb
  | .vsra vd va n => encRI16 0x13 vd va (uBits n)
  | .vadds vd va vb => encRRR 0x14 vd va vb
  | .vsubs vd va vb => encRRR 0x15 vd va vb
  | .vilo vd va vb => encRRR 0x16 vd va vb
  | .vihi vd va vb => encRRR 0x17 vd va vb
  | .vbshuf vd va vb => encRRR 0x18 vd va vb
  | .vl0b vd va => encRR 0x19 vd va
  | .vmax vd va vb => encRRR 0x1A vd va vb
  | .vhmin vd va => encRR 0x1B vd va
  | .vsh32 vd va sel => encRI8 0x1C vd va sel
  | .vsh16l vd va sel => encRI8 0x1D vd va sel
  | .vsh16h vd va sel => encRI8 0x1E vd va sel
  | .vins vd lane v => encDL 0x20 vd lane (sBits v)
  | .ldc vd c => encDI 0x21 vd (uBits c)
  | .lda vd k => encMD 0x22 vd (uBits k)
  | .sta va k => encMA 0x23 va (uBits k)
  | .ldbm vd k half => encMDH 0x24 vd half (uBits k)
  | .stbm va k half => encMAH 0x25 va half (uBits k)
  | .ldb vd => encD 0x26 vd
  | .stb va => encA 0x27 va
  | .fwd x z le => encF 0x30 (sBits x) (sBits z) (sBits le)
  | .bwd z norm => encB 0x31 (sBits z) (sBits norm)

/-- What the decoder reads from the word whose bits are w, bit 0 the least significant of the one 64-bit word of a command,
every bit from nbits up being 0. -/
def decodeTableWord (nbits w : Nat) : Option Instr :=
  match decode (BitVec.ofNat 64 (w % 2 ^ nbits)) with
  | .ok i => some i
  | .error _ => none

end Sys2Proof
end

