-- ==== Sys2Proof/Machine/Operands.lean ====
section
/-! DEFINITION. The integer helpers of 00_scope.md R11 and the lane and byte views of a vector (R12; 20_memory.md R61):
every operand form of every command reads its vectors and immediates through these. -/

namespace Sys2Proof.Machine

/-- `s16(b)`: a 16-bit pattern read as two's complement (R11). -/
def s16 (b : Half16) : Int := b.toInt

/-- `u16(v)`: the 16-bit pattern of an integer, v mod 65536 (R11). -/
def u16 (v : Int) : Half16 := BitVec.ofInt 16 v

/-- `s8(b)`: an 8-bit pattern read as two's complement (R11). -/
def s8 (b : Byte) : Int := b.toInt

/-- `sat16(v)` (R11). -/
def sat16 (v : Int) : Int := min (max v (-32768)) 32767

/-- `asr(v, n)`: floor(v / 2^n) (R11). -/
def asr (v : Int) (n : Nat) : Int := v / ((2 ^ n : Nat) : Int)

/-- The bits of lane i: V[16i+15:16i] (R12, R61). -/
def lane (v : Vec) (i : Nat) : Half16 := v.extractLsb' (16 * i) 16

/-- `V.h[i]`: lane i as a signed integer (R12). -/
def h (v : Vec) (i : Nat) : Int := s16 (lane v i)

/-- `V.b[j]`: byte j, V[8j+7:8j] (R12, R61). -/
def byteOf (v : Vec) (j : Nat) : Byte := v.extractLsb' (8 * j) 8

/-- The vector whose lane i is `f i`, lane 0 in the least significant bits (R12, R61). -/
def ofLanes (f : Nat → Half16) : Vec :=
  f 7 ++ f 6 ++ f 5 ++ f 4 ++ f 3 ++ f 2 ++ f 1 ++ f 0

/-- The vector whose byte j is `f j`, byte 0 in the least significant bits (R12, R61). -/
def ofBytes (f : Nat → Byte) : Vec :=
  f 15 ++ f 14 ++ f 13 ++ f 12 ++ f 11 ++ f 10 ++ f 9 ++ f 8 ++
    f 7 ++ f 6 ++ f 5 ++ f 4 ++ f 3 ++ f 2 ++ f 1 ++ f 0

/-- `mk8`: the vector of eight lane values, each taken as `u16` (R12). -/
def mk8 (f : Nat → Int) : Vec := ofLanes fun i => u16 (f i)

/-- `bcast8(v)` (R12). -/
def bcast8 (v : Int) : Vec := mk8 fun _ => v

/-- Selector i of a shuffle immediate: IMM8[2i+1:2i] (30_encoding.md R84). -/
def selector (imm : Byte) (i : Nat) : Nat := (imm.extractLsb' (2 * i) 2).toNat

end Sys2Proof.Machine
end

