-- ==== Sys2Proof/Machine/Trellis.lean ====
section
/-! DEFINITION. The trellis (10_state.md R33), the default trellis ROM (R34), what a replacement ROM must keep (R35), and the
default and legal parameter values of a model of CORE (00_scope.md R8). -/

namespace Sys2Proof.Machine

/-- The feedback bit a of information bit u at source state s' = 4·s1 + 2·s2 + s3: u XOR s2 XOR s3 (R33). -/
def feedbackBit (s : Nat) (u : Bool) : Bool := u ^^ s.testBit 1 ^^ s.testBit 0

/-- The parity bit p(s', u) = a XOR s1 XOR s3 (R33). -/
def parityBit (s : Nat) (u : Bool) : Bool := feedbackBit s u ^^ s.testBit 2 ^^ s.testBit 0

/-- next(s', u) = 4·a + floor(s'/2) (R33). -/
def nextState (s : Nat) (u : Bool) : Nat := (if feedbackBit s u then 4 else 0) + s / 2

/-- The even predecessor p0(s) = 2·(s mod 4) (R33). -/
def evenPred (s : Nat) : Nat := 2 * (s % 4)

/-- The odd predecessor p1(s) = p0(s) + 1 (R33). -/
def oddPred (s : Nat) : Nat := evenPred s + 1

/-- The polarity of a bit: 2b - 1 (R33). -/
def polarity (b : Bool) : Int := if b then 1 else -1

/-- The default trellis ROM: the literals of R34, lane 7 leftmost. -/
def lteTrellis : Trellis where
  sysPol   := 0xFFFF0001FFFF00010001FFFF0001FFFF
  parPol   := 0xFFFFFFFF0001000100010001FFFFFFFF
  bwParPol := 0x00010001FFFFFFFFFFFFFFFF00010001
  fGather0 := 0x0D0C0908050401000D0C090805040100
  fGather1 := 0x0F0E0B0A070603020F0E0B0A07060302
  lGather0 := 0x07060F0E0D0C050403020B0A09080100
  lGather1 := 0x0F0E070605040D0C0B0A030201000908

/-- `ROM[c]` for c in 0..6 (00_scope.md R13; 10_state.md R34). An index of 7 or more names no entry; LDC checks before it
reads (43_host.md R182). -/
def romEntry (t : Trellis) (c : Nat) : Vec :=
  match c with
  | 0 => t.sysPol
  | 1 => t.parPol
  | 2 => t.bwParPol
  | 3 => t.fGather0
  | 4 => t.fGather1
  | 5 => t.lGather0
  | _ => t.lGather1

/-- R35 (d) as a check of a ROM against the trellis of R33: at every destination s, the edge from the even predecessor has the
input SYS_POL.h[s] > 0, and the edge from the odd predecessor has the complementary input and the complementary parity. -/
def keepsEdgeInputs (t : Trellis) : Bool :=
  (List.range 8).all fun s =>
    let u := decide (h t.sysPol s > 0)
    decide (nextState (evenPred s) u = s) && decide (nextState (oddPred s) (!u) = s) &&
      (parityBit (oddPred s) (!u) == !(parityBit (evenPred s) u))

/-- R35 (e): every byte index of a gather table is in 0..15. -/
def keepsGatherRange (t : Trellis) : Bool :=
  [t.fGather0, t.fGather1, t.lGather0, t.lGather1].all fun g =>
    (List.range 16).all fun j => decide ((byteOf g j).toNat < 16)

/-- The default values of the parameters (00_scope.md R8). The two UNINIT_READ policies are the model's own default: a
register read goes on, a memory read faults (log 4, log 5). -/
def defaultParams : Params where
  kmax      := 8192
  bmShift   := .leOnly
  psignMin  := .sat
  trellis   := lteTrellis
  uninitReg := .value
  uninitMem := .fault

/-- The legal parameter values: 1 ≤ KMAX ≤ 16383 (00_scope.md R8), and a TRELLIS that keeps R35 (d) and (e)
(93_implementation_defined.md I4). -/
def paramsLegal (p : Params) : Bool :=
  decide (1 ≤ p.kmax) && decide (p.kmax ≤ 16383) && keepsEdgeInputs p.trellis && keepsGatherRange p.trellis

end Sys2Proof.Machine
end

