-- ==== Sys2Proof/Machine/State.lean ====
section
/-! DEFINITION. The state of CORE (10_state.md R20 to R38), the reasons a step can stop, the host's input events, and the
state after reset (70_reset_and_hazards.md R240). -/

namespace Sys2Proof.Machine

/-- The error codes of 60_exceptions.md R210. Codes 5 to 15 are never written (93_implementation_defined.md I7): no
constructor stands for them. -/
inductive ErrorCode where
  | illegalOpcode
  | reservedField
  | stageRange
  | constRange
  deriving DecidableEq, Repr

/-- STATUS (10_state.md R26): no error since reset, or the first error's code. Its 16-bit word is `Status.word` (Flags.lean).
Log 12. -/
inductive Status where
  | ok
  | error (c : ErrorCode)
  deriving DecidableEq, Repr

/-- A piece of state that carries a ghost write mark (10_state.md R37). -/
inductive Place where
  | vr    (r : VReg)
  | beta
  | alpha (k : Nat)
  | bm    (k : Nat) (half : BmHalf)
  | llr   (k : Nat)
  deriving DecidableEq, Repr

/-- Why the model stops. -/
inductive Fault where
  /-- UNINIT_READ (60_exceptions.md R216): raised by every command and by every host read that would read a place nothing has
  written since reset, where the policy for that place is `fault`. SAFE: hardware goes on with an unspecified value. -/
  | uninitRead (p : Place)
  /-- Raised by BWD alone, in a state with KPTR > KMAX, which 10_state.md R25 excludes: BM[KPTR-1] is no entry of the memory.
  SAFE: no run from a legal state reaches it (log 13). -/
  | noSuchEntry (p : Place)
  deriving DecidableEq, Repr

/-- Why the model has no meaning to give. -/
inductive Refusal where
  /-- A command whose arm of `exec` has no meaning yet, by its mnemonic. No arm answers with it now. SAFE. -/
  | notModelled (mnemonic : String)
  /-- Raised by `State.construct` alone: KMAX is outside 1..16383 (00_scope.md R8). SAFE: no machine is built. -/
  | kmaxOutOfRange
  /-- Raised by `State.construct` alone: the TRELLIS breaks 10_state.md R35 (d) or (e) (93_implementation_defined.md I4).
  SAFE: no machine is built. -/
  | malformedTrellis
  deriving DecidableEq, Repr

/-- What the host can do to CORE (20_memory.md R60; 70_reset_and_hazards.md R240): write a command word, read the read port,
assert reset. -/
inductive HostEvent where
  | command (w : CmdWord)
  | read    (addr : Half16)
  | reset
  deriving DecidableEq, Repr

/-- A 128-bit register with its ghost write mark (10_state.md R21, R30, R37). -/
structure Reg where
  value   : Vec
  written : Bool
  deriving DecidableEq, Repr

/-- A metric memory by stage index (20_memory.md R60): the entries written since reset, at strictly rising indices. An index
that is not listed has a clear ghost mark (10_state.md R37). Log 7. -/
abbrev Mem (α : Type) := List (Nat × α)

/-- The state of CORE (10_state.md R20), the parameters of the model, and the host's side of the two ports. -/
structure State where
  /-- The parameters (00_scope.md R8), the trellis ROM among them (10_state.md R34): no step changes them (log 1). -/
  params : Params
  /-- VR0 to VR15 (R21). -/
  vr     : Vector Reg 16
  /-- BETA (R30). -/
  beta   : Reg
  /-- KPTR (R25). -/
  kptr   : BitVec 16
  /-- STATUS (R26). -/
  status : Status
  /-- RESULT (R27). -/
  result : BitVec 16
  /-- ERRCMD (R28). -/
  errcmd : BitVec 64
  /-- ALPHA[0..KMAX] (R31). -/
  alpha  : Mem Vec
  /-- BM[0..KMAX-1].lo (R32). -/
  bmLo   : Mem Vec
  /-- BM[0..KMAX-1].hi (R32). -/
  bmHi   : Mem Vec
  /-- LLR[0..KMAX-1] (R36). -/
  llr    : Mem Half16
  /-- The host's input events not yet taken, oldest first (log 8). -/
  inbox  : List HostEvent
  /-- The words the read port has returned, oldest first (log 9). -/
  outbox : List Half16
  deriving DecidableEq, Repr

/-- A register at reset: the mark is clear; the value is unspecified (R240), and 0 is the model's choice (log 3). -/
def Reg.atReset : Reg := ⟨0, false⟩

/-- The state after reset of a machine with these parameters (70_reset_and_hazards.md R240). -/
def State.resetWith (p : Params) : State where
  params := p
  vr     := Vector.replicate 16 Reg.atReset
  beta   := Reg.atReset
  kptr   := 0
  status := .ok
  result := 0
  errcmd := 0
  alpha  := []
  bmLo   := []
  bmHi   := []
  llr    := []
  inbox  := []
  outbox := []

/-- The state after reset of the machine with the default parameters (00_scope.md R8; 70_reset_and_hazards.md R240). -/
def State.reset : State := State.resetWith defaultParams

/-- A machine with these parameters, in its reset state; parameters outside R8 and I4 are refused at construction. -/
def State.construct (p : Params) : Except Refusal State :=
  if p.kmax < 1 ∨ 16383 < p.kmax then .error .kmaxOutOfRange
  else if !(keepsEdgeInputs p.trellis && keepsGatherRange p.trellis) then .error .malformedTrellis
  else .ok (State.resetWith p)

end Sys2Proof.Machine
end

