-- ==== Sys2Proof/Machine/Flags.lean ====
section
/-! DEFINITION. The STATUS word (10_state.md R26; 60_exceptions.md R210). CORE has no condition codes, flags or predicates
(10_state.md R38): no command sets a flag, so there is no flag computation beside this one. -/

namespace Sys2Proof.Machine

/-- ECODE of an error (60_exceptions.md R210). -/
def ErrorCode.ecode : ErrorCode → Nat
  | .illegalOpcode => 1
  | .reservedField => 2
  | .stageRange    => 3
  | .constRange    => 4

/-- The error a word that is no command raises (30_encoding.md R86, R87, R89). -/
def codeOf : DecodeError → ErrorCode
  | .illegalOpcode => .illegalOpcode
  | .reservedField => .reservedField

/-- STATUS.ERR (10_state.md R26): CORE is halted (60_exceptions.md R213). -/
def Status.err : Status → Bool
  | .ok => false
  | .error _ => true

/-- STATUS.ECODE: the code of the first error since reset; 0 when ERR = 0 (10_state.md R26). -/
def Status.ecode : Status → Nat
  | .ok => 0
  | .error c => c.ecode

/-- STATUS as the host reads it: reserved [15:8], ECODE [7:4], reserved [3:1], ERR [0] (10_state.md R26). -/
def Status.word (s : Status) : BitVec 16 :=
  0#8 ++ BitVec.ofNat 4 s.ecode ++ 0#3 ++ BitVec.ofBool s.err

/-- CORE is halted while STATUS.ERR = 1 (60_exceptions.md R213). -/
def State.halted (s : State) : Bool := s.status.err

end Sys2Proof.Machine
end

