-- ==== Sys2Proof/Machine/Ops.lean ====
section
/-! DEFINITION. The named operations over registers and memories (00_scope.md R13), error entry (60_exceptions.md R212),
the return from it by reset (R217; 70_reset_and_hazards.md R240), and the shapes the commands share. -/

namespace Sys2Proof.Machine

/-- What a command answers. -/
abbrev Result := Host.Outcome State Fault Refusal

/-! A metric memory (20_memory.md R60, log 7). -/

/-- The entry written at index k, if one was since reset. -/
def Mem.find {α : Type} : Mem α → Nat → Option α
  | [], _ => none
  | (a, v) :: m, k => if a = k then some v else Mem.find m k

/-- Write entry k, keeping the indices strictly rising. -/
def Mem.write {α : Type} : Mem α → Nat → α → Mem α
  | [], k, v => [(k, v)]
  | (a, u) :: m, k, v =>
    if k < a then (k, v) :: (a, u) :: m
    else if k = a then (k, v) :: m
    else (a, u) :: Mem.write m k v

/-- Every listed index is at least `lo`, below `hi`, and the indices rise strictly. -/
def Mem.wfFrom {α : Type} : Nat → Nat → Mem α → Bool
  | _, _, [] => true
  | lo, hi, (a, _) :: m => decide (lo ≤ a) && decide (a < hi) && Mem.wfFrom (a + 1) hi m

/-- The canonical form of a memory of `size` entries: strictly rising indices, each below `size`. -/
def Mem.wf {α : Type} (size : Nat) (m : Mem α) : Bool := Mem.wfFrom 0 size m

/-- Read entry k of a memory of `size` entries. An index outside the memory is no entry; an entry nothing has written stops
with UNINIT_READ or goes on with a free value, as the policy says (60_exceptions.md R216; I1). -/
def Mem.read {α : Type} (m : Mem α) (size : Nat) (policy : UninitPolicy) (p : Place) (free : α) (k : Nat) :
    Except Fault α :=
  if size ≤ k then .error (.noSuchEntry p)
  else
    match m.find k with
    | some v => .ok v
    | none =>
      match policy with
      | .fault => .error (.uninitRead p)
      | .value => .ok free

/-- Read a register. One that nothing has written stops with UNINIT_READ or gives the value it holds, as the policy says
(60_exceptions.md R216; log 3, log 4). -/
def Reg.read (r : Reg) (policy : UninitPolicy) (p : Place) : Except Fault Vec :=
  if r.written then .ok r.value
  else
    match policy with
    | .fault => .error (.uninitRead p)
    | .value => .ok r.value

/-! Reads of the state. -/

/-- `VR[r]` (10_state.md R21). -/
def State.readVR (s : State) (r : VReg) : Except Fault Vec := (s.vr[r]).read s.params.uninitReg (.vr r)

/-- `BETA` (10_state.md R30). -/
def State.readBeta (s : State) : Except Fault Vec := s.beta.read s.params.uninitReg .beta

/-- `MemRead(ALPHA, k)`: KMAX+1 entries (10_state.md R31). -/
def State.readAlpha (s : State) (k : Nat) : Except Fault Vec :=
  s.alpha.read (s.params.kmax + 1) s.params.uninitMem (.alpha k) (Config.unwrittenAlpha k) k

/-- `BM[k].lo` or `BM[k].hi`: KMAX entries (10_state.md R32). -/
def State.readBm (s : State) (k : Nat) (half : BmHalf) : Except Fault Vec :=
  match half with
  | .lo => s.bmLo.read s.params.kmax s.params.uninitMem (.bm k .lo) (Config.unwrittenBmLo k) k
  | .hi => s.bmHi.read s.params.kmax s.params.uninitMem (.bm k .hi) (Config.unwrittenBmHi k) k

/-- `LLR[k]`, which only the host reads: KMAX entries (10_state.md R36). -/
def State.readLlr (s : State) (k : Nat) : Except Fault Half16 :=
  s.llr.read s.params.kmax s.params.uninitMem (.llr k) (Config.unwrittenLlr k) k

/-! Writes of the state. Each sets the ghost mark of what it writes (10_state.md R37). -/

/-- `VR[r] <- v`. -/
def State.writeVR (s : State) (r : VReg) (v : Vec) : State := { s with vr := s.vr.set r ⟨v, true⟩ }

/-- `BETA <- v`. -/
def State.writeBeta (s : State) (v : Vec) : State := { s with beta := ⟨v, true⟩ }

/-- `MemWrite(ALPHA, k, v)`. -/
def State.writeAlpha (s : State) (k : Nat) (v : Vec) : State := { s with alpha := s.alpha.write k v }

/-- `BM[k].lo <- v`. -/
def State.writeBmLo (s : State) (k : Nat) (v : Vec) : State := { s with bmLo := s.bmLo.write k v }

/-- `BM[k].hi <- v`. -/
def State.writeBmHi (s : State) (k : Nat) (v : Vec) : State := { s with bmHi := s.bmHi.write k v }

/-- Write the half of BM[k] that H selects; the other half is left (43_host.md R187). -/
def State.writeBm (s : State) (k : Nat) (half : BmHalf) (v : Vec) : State :=
  match half with
  | .lo => s.writeBmLo k v
  | .hi => s.writeBmHi k v

/-- `MemWrite(LLR, k, v)`. -/
def State.writeLlr (s : State) (k : Nat) (v : Half16) : State := { s with llr := s.llr.write k v }

/-- `KPTR <- k`. -/
def State.setKptr (s : State) (k : Nat) : State := { s with kptr := BitVec.ofNat 16 k }

/-- `RESULT <- v`. -/
def State.setResult (s : State) (v : Half16) : State := { s with result := v }

/-! Taking an error, and the return from it. -/

/-- Error entry (60_exceptions.md R212): STATUS.ERR and ECODE, and ERRCMD; nothing else changes. -/
def State.raiseError (s : State) (c : ErrorCode) (w : CmdWord) : State :=
  { s with status := .error c, errcmd := w }

/-- The reset signal, the only way out of the halted state (60_exceptions.md R217; 70_reset_and_hazards.md R240, R241). The
ROM and the other parameters stay, and so does what stands on the host's side of the two ports. -/
def State.applyReset (s : State) : State :=
  { State.resetWith s.params with inbox := s.inbox, outbox := s.outbox }

/-! Shapes of commands. -/

/-- Go on with a value that was read, or stop with the fault its read gave. -/
def withRead {α : Type} (r : Except Fault α) (k : α → Result) : Result :=
  match r with
  | .error f => .fault f
  | .ok a => k a

/-- A command that reads VA and writes VD (40_vector.md R110). -/
def unary (f : Vec → Vec) (vd va : VReg) (s : State) : Result :=
  withRead (s.readVR va) fun a => .next (s.writeVR vd (f a))

/-- A command that reads VA and VB, both before it writes VD (40_vector.md R110). -/
def binary (f : Vec → Vec → Vec) (vd va vb : VReg) (s : State) : Result :=
  withRead (s.readVR va) fun a => withRead (s.readVR vb) fun b => .next (s.writeVR vd (f a b))

/-- A command with a check of 60_exceptions.md R211, which runs before any read or write: if it fails the command takes the
error, with its own word in ERRCMD (R212; log 11), and otherwise it runs. -/
def checked (bad : Bool) (c : ErrorCode) (i : Instr) (run : State → Result) (s : State) : Result :=
  if bad then .next (s.raiseError c (encode i)) else run s

end Sys2Proof.Machine
end

