-- ==== Sys2Proof/Machine/Primitives.lean ====
section
/-! DEFINITION. What each vector primitive computes (40_vector.md R111 to R125; 43_host.md R183), and the exact horizontal
maximum HMAX (41_forward.md R141). The vector commands, FWD and BWD are all written over these. -/

namespace Sys2Proof.Machine

/-- NEG of R113: the negation of a lane under a negative pattern lane, by PSIGN_MIN. -/
def signNeg (pm : PsignMin) (v : Int) : Int :=
  match pm with
  | .sat => sat16 (-v)
  | .wrap => s16 (u16 (-v))

/-- VSIGN (R113). -/
def vsign (pm : PsignMin) (a p : Vec) : Vec :=
  mk8 fun i => if h p i > 0 then h a i else if h p i < 0 then signNeg pm (h a i) else 0

/-- VSRA (R114). -/
def vsra (a : Vec) (n : Nat) : Vec := mk8 fun i => asr (h a i) (min n 15)

/-- VADDS (R115). -/
def vadds (a b : Vec) : Vec := mk8 fun i => sat16 (h a i + h b i)

/-- VSUBS (R116). -/
def vsubs (a b : Vec) : Vec := mk8 fun i => sat16 (h a i - h b i)

/-- VILO (R117): lane 2i is a[i], lane 2i+1 is b[i]. -/
def vilo (a b : Vec) : Vec := mk8 fun j => if j % 2 = 0 then h a (j / 2) else h b (j / 2)

/-- VIHI (R118): lane 2i is a[4+i], lane 2i+1 is b[4+i]. -/
def vihi (a b : Vec) : Vec := mk8 fun j => if j % 2 = 0 then h a (4 + j / 2) else h b (4 + j / 2)

/-- VBSHUF (R119): a negative index byte gives 0, any other selects byte (index mod 16). -/
def vbshuf (t x : Vec) : Vec :=
  ofBytes fun j => if s8 (byteOf x j) < 0 then 0 else byteOf t ((s8 (byteOf x j)).toNat % 16)

/-- VL0B (R120). -/
def vl0b (a : Vec) : Vec := bcast8 (h a 0)

/-- VMAX (R121). -/
def vmax (a b : Vec) : Vec := mk8 fun i => max (h a i) (h b i)

/-- The least value of f over the lanes 0..7 and the least lane that has it. -/
def leastLane (f : Nat → Nat) : Nat × Nat :=
  [1, 2, 3, 4, 5, 6, 7].foldl (fun best i => if f i < best.1 then (f i, i) else best) (f 0, 0)

/-- VHMIN (R122): lane 0 the unsigned minimum's pattern, lane 1 its lowest lane, the others 0. -/
def vhmin (a : Vec) : Vec :=
  let best := leastLane fun i => (lane a i).toNat
  mk8 fun j => if j = 0 then (best.1 : Int) else if j = 1 then (best.2 : Int) else 0

/-- VSH32 (R123): 32-bit group i is group c_i of the source. -/
def vsh32 (a : Vec) (imm : Byte) : Vec := mk8 fun j => h a (2 * selector imm (j / 2) + j % 2)

/-- VSH16L (R124): lanes 0..3 are selected, lanes 4..7 pass through. -/
def vsh16l (a : Vec) (imm : Byte) : Vec := mk8 fun i => if i < 4 then h a (selector imm i) else h a i

/-- VSH16H (R125): lanes 4..7 are selected, lanes 0..3 pass through. -/
def vsh16h (a : Vec) (imm : Byte) : Vec := mk8 fun i => if i < 4 then h a i else h a (4 + selector imm (i - 4))

/-- VINS (43_host.md R183): one lane replaced, the other seven kept. -/
def vins (r : Vec) (n : Nat) (v : Int) : Vec := mk8 fun i => if i = n then v else h r i

/-- HMAX (41_forward.md R141): the signed maximum over the lanes and the least lane that has it, exact on every input. -/
def hmax (v : Vec) : Int × Nat :=
  [1, 2, 3, 4, 5, 6, 7].foldl (fun best i => if best.1 < h v i then (h v i, i) else best) (h v 0, 0)

end Sys2Proof.Machine
end

