-- ==== Sys2Proof/Machine/Backward.lean ====
section
/-! DEFINITION. The backward recursion and LLR emission BWD (42_backward.md R160 to R166). -/

namespace Sys2Proof.Machine

/-- PZ, the partial parity metric (R161). -/
def partialParity (p : Params) (z : Int) : Vec := vsign p.psignMin (bcast8 z) p.trellis.bwParPol

/-- BN, the updated backward metric before normalisation (R162). -/
def backwardMetric (blo bhi b : Vec) : Vec := vmax (vadds blo (vilo b b)) (vadds bhi (vihi b b))

/-- M1, the path metrics of the bit = 1 hypothesis (R164). -/
def pathMetricOne (p : Params) (z : Int) (a b : Vec) : Vec :=
  vadds (vadds a (partialParity p z)) (vbshuf b p.trellis.lGather1)

/-- M0, the path metrics of the bit = 0 hypothesis, over NPZ = VSUBS(0, PZ) (R161, R164). -/
def pathMetricZero (p : Params) (z : Int) (a b : Vec) : Vec :=
  vadds (vadds a (vsubs 0 (partialParity p z))) (vbshuf b p.trellis.lGather0)

/-- L, the LLR of the stage (R164). -/
def llrOf (p : Params) (z : Int) (a b : Vec) : Int :=
  sat16 ((hmax (pathMetricOne p z a b)).1 - (hmax (pathMetricZero p z a b)).1)

/-- The writes of BWD at stage k, from BM[k] = (blo, bhi), ALPHA[k] = a and the old BETA = b (R163, R166). -/
def bwdCommit (s : State) (k : Nat) (blo bhi a b : Vec) (z norm : Int) : State :=
  let l := llrOf s.params z a b
  (((s.writeBeta (vsubs (backwardMetric blo bhi b) (bcast8 norm))).writeLlr k (u16 l)).setResult (u16 l)).setKptr k

/-- BWD (R166): STAGE_RANGE if KPTR = 0, else stage k = KPTR - 1. -/
def execBwd (z norm : Int) (s : State) : Result :=
  checked (decide (s.kptr.toNat = 0)) .stageRange (.bwd z norm)
    (fun s =>
      withRead (s.readBm (s.kptr.toNat - 1) .lo) fun blo =>
      withRead (s.readBm (s.kptr.toNat - 1) .hi) fun bhi =>
      withRead (s.readAlpha (s.kptr.toNat - 1)) fun a =>
      withRead s.readBeta fun b => .next (bwdCommit s (s.kptr.toNat - 1) blo bhi a b z norm)) s

end Sys2Proof.Machine
end

