-- ==== Sys2Proof/Machine/DataMove.lean ====
section
/-! DEFINITION. The data-movement commands (43_host.md R182 to R189). The one check of each runs before any read
(60_exceptions.md R211, R214). -/

namespace Sys2Proof.Machine

/-- VINS (R183): VD is read and written. -/
def execVins (vd : VReg) (n : Fin 8) (v : Int) (s : State) : Result := unary (fun r => vins r n.val v) vd vd s

/-- LDC (R182): CONST_RANGE if c ≥ 7. -/
def execLdc (vd : VReg) (c : Nat) (s : State) : Result :=
  checked (decide (7 ≤ c)) .constRange (.ldc vd c) (fun s => .next (s.writeVR vd (romEntry s.params.trellis c))) s

/-- LDA (R184): STAGE_RANGE if k > KMAX. -/
def execLda (vd : VReg) (k : Nat) (s : State) : Result :=
  checked (decide (s.params.kmax < k)) .stageRange (.lda vd k)
    (fun s => withRead (s.readAlpha k) fun v => .next (s.writeVR vd v)) s

/-- STA (R185): STAGE_RANGE if k > KMAX. -/
def execSta (va : VReg) (k : Nat) (s : State) : Result :=
  checked (decide (s.params.kmax < k)) .stageRange (.sta va k)
    (fun s => withRead (s.readVR va) fun v => .next (s.writeAlpha k v)) s

/-- LDBM (R186): STAGE_RANGE if k ≥ KMAX. -/
def execLdbm (vd : VReg) (k : Nat) (half : BmHalf) (s : State) : Result :=
  checked (decide (s.params.kmax ≤ k)) .stageRange (.ldbm vd k half)
    (fun s => withRead (s.readBm k half) fun v => .next (s.writeVR vd v)) s

/-- STBM (R187): STAGE_RANGE if k ≥ KMAX. -/
def execStbm (va : VReg) (k : Nat) (half : BmHalf) (s : State) : Result :=
  checked (decide (s.params.kmax ≤ k)) .stageRange (.stbm va k half)
    (fun s => withRead (s.readVR va) fun v => .next (s.writeBm k half v)) s

/-- LDB (R188). -/
def execLdb (vd : VReg) (s : State) : Result := withRead s.readBeta fun v => .next (s.writeVR vd v)

/-- STB (R189). -/
def execStb (va : VReg) (s : State) : Result := withRead (s.readVR va) fun v => .next (s.writeBeta v)

end Sys2Proof.Machine
end

