-- ==== Sys2Proof/Machine/Forward.lean ====
section
/-! DEFINITION. The forward recursion FWD (41_forward.md R140 to R147, R149). -/

namespace Sys2Proof.Machine

/-- G, the plus branch metric (R142; the WHOLE_SUM reading R149). -/
def plusMetric (p : Params) (x z le : Int) : Vec :=
  let sx := vsign p.psignMin (bcast8 x) p.trellis.sysPol
  let sz := vsign p.psignMin (bcast8 z) p.trellis.parPol
  let sl := vsign p.psignMin (bcast8 le) p.trellis.sysPol
  match p.bmShift with
  | .leOnly => vadds (vadds sx sz) (vsra sl 1)
  | .wholeSum => vsra (vadds (vadds sx sz) sl) 1

/-- NG, the minus branch metric (R143). -/
def minusMetric (g : Vec) : Vec := vsubs 0 g

/-- AN, the add-compare-select of ALPHA[k] with the branch metrics (R144). -/
def addCompareSelect (t : Trellis) (a g : Vec) : Vec :=
  vmax (vadds (vbshuf a t.fGather0) g) (vadds (vbshuf a t.fGather1) (minusMetric g))

/-- ALPHA_NEXT, the new metrics less their largest lane (R147). -/
def normalise (an : Vec) : Vec := vsubs an (bcast8 (hmax an).1)

/-- The writes of FWD at stage k, from the old state and ALPHA[k] = a (R145, R146, R147). -/
def fwdCommit (s : State) (k : Nat) (a : Vec) (x z le : Int) : State :=
  let g := plusMetric s.params x z le
  let an := addCompareSelect s.params.trellis a g
  ((((s.writeBmLo k (vilo g (minusMetric g))).writeBmHi k (vihi g (minusMetric g))).writeAlpha (k + 1)
    (normalise an)).setResult (u16 (hmax an).1)).setKptr (k + 1)

/-- FWD (R146): STAGE_RANGE if KPTR ≥ KMAX, else stage k = KPTR. -/
def execFwd (x z le : Int) (s : State) : Result :=
  checked (decide (s.params.kmax ≤ s.kptr.toNat)) .stageRange (.fwd x z le)
    (fun s => withRead (s.readAlpha s.kptr.toNat) fun a => .next (fwdCommit s s.kptr.toNat a x z le)) s

end Sys2Proof.Machine
end

