-- ==== Sys2Proof/Machine/Sequencing.lean ====
section
/-! DEFINITION. The sequencing commands NOP and SETK (43_host.md R180, R181). -/

namespace Sys2Proof.Machine

/-- NOP: no state changes (R181). -/
def execNop (s : State) : Result := .next s

/-- SETK (R180): STAGE_RANGE if k > KMAX, else KPTR <- k. -/
def execSetk (k : Nat) (s : State) : Result :=
  checked (decide (s.params.kmax < k)) .stageRange (.setk k) (fun s => .next (s.setKptr k)) s

end Sys2Proof.Machine
end

