-- ==== Sys2Proof/Machine/Vector.lean ====
section
/-! DEFINITION. The vector primitive commands (40_vector.md R110 to R125). None raises an architectural error after decoding
(60_exceptions.md R211); each reads all its sources, then writes VR[VD] once, and writes nothing else (R110). -/

namespace Sys2Proof.Machine

/-- VZERO (R111). -/
def execVzero (vd : VReg) (s : State) : Result := .next (s.writeVR vd 0)

/-- VBCAST (R112). -/
def execVbcast (vd : VReg) (v : Int) (s : State) : Result := .next (s.writeVR vd (bcast8 v))

/-- VSIGN (R113): VA is the value, VB the sign pattern. -/
def execVsign (vd va vb : VReg) (s : State) : Result := binary (vsign s.params.psignMin) vd va vb s

/-- VSRA (R114). -/
def execVsra (vd va : VReg) (n : Nat) (s : State) : Result := unary (fun a => vsra a n) vd va s

/-- VADDS (R115). -/
def execVadds (vd va vb : VReg) (s : State) : Result := binary vadds vd va vb s

/-- VSUBS (R116): VA is the minuend. -/
def execVsubs (vd va vb : VReg) (s : State) : Result := binary vsubs vd va vb s

/-- VILO (R117). -/
def execVilo (vd va vb : VReg) (s : State) : Result := binary vilo vd va vb s

/-- VIHI (R118). -/
def execVihi (vd va vb : VReg) (s : State) : Result := binary vihi vd va vb s

/-- VBSHUF (R119): VA is the table, VB the indices. -/
def execVbshuf (vd va vb : VReg) (s : State) : Result := binary vbshuf vd va vb s

/-- VL0B (R120). -/
def execVl0b (vd va : VReg) (s : State) : Result := unary vl0b vd va s

/-- VMAX (R121). -/
def execVmax (vd va vb : VReg) (s : State) : Result := binary vmax vd va vb s

/-- VHMIN (R122). -/
def execVhmin (vd va : VReg) (s : State) : Result := unary vhmin vd va s

/-- VSH32 (R123). -/
def execVsh32 (vd va : VReg) (sel : Byte) (s : State) : Result := unary (fun a => vsh32 a sel) vd va s

/-- VSH16L (R124). -/
def execVsh16l (vd va : VReg) (sel : Byte) (s : State) : Result := unary (fun a => vsh16l a sel) vd va s

/-- VSH16H (R125). -/
def execVsh16h (vd va : VReg) (sel : Byte) (s : State) : Result := unary (fun a => vsh16h a sel) vd va s

end Sys2Proof.Machine
end

