-- ==== Sys2Proof/Machine/Dispatch.lean ====
section
/-! DEFINITION. The meaning of every command: one arm per constructor of Instr. -/

namespace Sys2Proof.Machine

def exec (i : Instr) (s : State) : Host.Outcome State Fault Refusal :=
  match i with
  | .nop => Sys2Proof.Machine.execNop s
  | .setk k => Sys2Proof.Machine.execSetk k s
  | .vzero vd => Sys2Proof.Machine.execVzero vd s
  | .vbcast vd v => Sys2Proof.Machine.execVbcast vd v s
  | .vsign vd va vb => Sys2Proof.Machine.execVsign vd va vb s
  | .vsra vd va n => Sys2Proof.Machine.execVsra vd va n s
  | .vadds vd va vb => Sys2Proof.Machine.execVadds vd va vb s
  | .vsubs vd va vb => Sys2Proof.Machine.execVsubs vd va vb s
  | .vilo vd va vb => Sys2Proof.Machine.execVilo vd va vb s
  | .vihi vd va vb => Sys2Proof.Machine.execVihi vd va vb s
  | .vbshuf vd va vb => Sys2Proof.Machine.execVbshuf vd va vb s
  | .vl0b vd va => Sys2Proof.Machine.execVl0b vd va s
  | .vmax vd va vb => Sys2Proof.Machine.execVmax vd va vb s
  | .vhmin vd va => Sys2Proof.Machine.execVhmin vd va s
  | .vsh32 vd va sel => Sys2Proof.Machine.execVsh32 vd va sel s
  | .vsh16l vd va sel => Sys2Proof.Machine.execVsh16l vd va sel s
  | .vsh16h vd va sel => Sys2Proof.Machine.execVsh16h vd va sel s
  | .vins vd n v => Sys2Proof.Machine.execVins vd n v s
  | .ldc vd c => Sys2Proof.Machine.execLdc vd c s
  | .lda vd k => Sys2Proof.Machine.execLda vd k s
  | .sta va k => Sys2Proof.Machine.execSta va k s
  | .ldbm vd k half => Sys2Proof.Machine.execLdbm vd k half s
  | .stbm va k half => Sys2Proof.Machine.execStbm va k half s
  | .ldb vd => Sys2Proof.Machine.execLdb vd s
  | .stb va => Sys2Proof.Machine.execStb va s
  | .fwd x z le => Sys2Proof.Machine.execFwd x z le s
  | .bwd z norm => Sys2Proof.Machine.execBwd z norm s

end Sys2Proof.Machine
end

