-- ==== Sys2Proof/Machine/Port.lean ====
section
/-! DEFINITION. The two ports and the reset signal: the read-port map (10_state.md R29), what a command word does when it is
written (30_encoding.md R89; 60_exceptions.md R212, R213), and what one host event does. -/

namespace Sys2Proof.Machine

/-- The read port (10_state.md R29). A reserved address reads 0x0000. An unwritten VR lane, BETA lane or LLR entry stops with
UNINIT_READ where the policy says so (60_exceptions.md R216). -/
def State.readPort (s : State) (addr : Half16) : Except Fault Half16 :=
  let a := addr.toNat
  if a = 0x0000 then .ok s.status.word
  else if a = 0x0001 then .ok s.result
  else if a = 0x0002 then .ok s.kptr
  else if a < 0x0004 then .ok 0
  else if a < 0x0008 then .ok (s.errcmd.extractLsb' (16 * (a - 0x0004)) 16)
  else if a < 0x0100 then .ok 0
  else if a < 0x0180 then (s.readVR (Fin.ofNat 16 ((a - 0x0100) / 8))).map fun v => lane v ((a - 0x0100) % 8)
  else if a < 0x0188 then s.readBeta.map fun v => lane v (a - 0x0180)
  else if a < 0x4000 then .ok 0
  else if a - 0x4000 < s.params.kmax then s.readLlr (a - 0x4000)
  else .ok 0

/-- A command word written to the port. While CORE is halted it is discarded without being decoded (60_exceptions.md R213).
Otherwise it is decoded, and a word that is no command takes its error (30_encoding.md R89). -/
def runWord (w : CmdWord) (s : State) : Result :=
  if s.halted then .next s
  else
    match decode w with
    | .error e => .next (s.raiseError (codeOf e) w)
    | .ok i => exec i s

/-- A host read of the read port: the word is returned to the host and nothing else changes (20_memory.md R64);
a read that stops gives no word (log 15). -/
def readEvent (addr : Half16) (s : State) : Result :=
  withRead (s.readPort addr) fun v => .next { s with outbox := s.outbox ++ [v] }

/-- One event of the host: a command word, a read, or the reset signal, which falls between commands
(70_reset_and_hazards.md R240; log 21). -/
def hostEvent (e : HostEvent) (s : State) : Result :=
  match e with
  | .command w => runWord w s
  | .read a => readEvent a s
  | .reset => .next s.applyReset

/-- Take the oldest pending event of the host. With none pending CORE is idle and keeps all state (60_exceptions.md R225). -/
def takeEvent (s : State) : Result :=
  match s.inbox with
  | [] => .next s
  | e :: rest => hostEvent e { s with inbox := rest }

/-- The state with a command word as the host's next event. -/
def State.offerWord (s : State) (w : CmdWord) : State := { s with inbox := .command w :: s.inbox }

end Sys2Proof.Machine
end

