-- ==== Sys2Proof/Machine/Step.lean ====
section
/-! DEFINITION. One step of CORE: one event of the host, taken and completed (20_memory.md R66, R70). -/

namespace Sys2Proof.Machine

/-- One step: the oldest pending event of the host is taken and completed. -/
def step (s : State) : Host.Outcome State Fault Refusal := takeEvent s

/-- The state whose very next step runs the command word whose bits are w: CORE has no program counter and fetches nothing
(10_state.md R24), so the word is put at the head of the host's pending events (log 10). -/
def State.withFetchWord (s : State) (nbits w : Nat) : State := s.offerWord (BitVec.ofNat 64 (w % 2 ^ nbits))

end Sys2Proof.Machine
end

