-- ==== Sys2Proof/Machine/Pseudo.lean ====
section
/-! DEFINITION. The pseudo-instructions (30_encoding.md R91): each expands to the commands shown and nothing else. -/

namespace Sys2Proof.Machine

/-- The pseudo-instructions of R91. `lanes` of VSET holds l0, l1, …, l7. -/
inductive Pseudo where
  | vmov   (vd va : VReg)
  | vneg   (vd va vt : VReg)
  | vset   (vd : VReg) (lanes : Vector Int 8)
  | kreset
  | vldrom (vd : VReg) (c : Fin 7)
  deriving DecidableEq, Repr

/-- VRt of VNEG is overwritten and must differ from VRa (R91); the lanes of VSET are 16-bit scalars. -/
def Pseudo.wf : Pseudo → Bool
  | .vmov _ _ => true
  | .vneg _ va vt => vt != va
  | .vset _ lanes => lanes.toList.all fitsS16
  | .kreset => true
  | .vldrom _ _ => true

/-- The expansion of a pseudo-instruction (R91). -/
def Pseudo.expand : Pseudo → List Instr
  | .vmov vd va => [.vmax vd va va]
  | .vneg vd va vt => [.vzero vt, .vsubs vd vt va]
  | .vset vd l =>
    [.vbcast vd l[0], .vins vd 1 l[1], .vins vd 2 l[2], .vins vd 3 l[3], .vins vd 4 l[4], .vins vd 5 l[5],
      .vins vd 6 l[6], .vins vd 7 l[7]]
  | .kreset => [.setk 0]
  | .vldrom vd c => [.ldc vd c.val]

/-- Commands executed one after the other on a core that none of them halts: what the host's words do in order
(20_memory.md R66). A command that raises an error is the last one executed (60_exceptions.md R213). -/
def execAll : List Instr → State → Result
  | [], s => .next s
  | i :: is, s =>
    if s.halted then .next s
    else
      match exec i s with
      | .next t => execAll is t
      | .fault f => .fault f
      | .refused r => .refused r

end Sys2Proof.Machine
end

