-- ==== Sys2Proof/Machine/Block.lean ====
section
/-! DEFINITION. The host's procedure for one block of K stages (70_reset_and_hazards.md R250). It is no part of CORE: it is
the order in which a host sends commands and reads results. Log 19. -/

namespace Sys2Proof.Machine

/-- One stage as the host has it: the sample triple (x, z, le) and the normalisation constant it passes to BWD
(R250 steps 4 and 6; R252). -/
structure StageInput where
  x    : Int
  z    : Int
  le   : Int
  norm : Int
  deriving DecidableEq, Repr

/-- Steps 2 to 6 of R250: the initial forward metric through VR0, the FWDs in rising stage order, the terminal backward metric
through VR1, the BWDs in falling stage order. -/
def blockCommands (start terminal : Vector Int 8) (stages : List StageInput) : List Instr :=
  (Pseudo.vset 0 start).expand ++ [.sta 0 0, .setk 0] ++ stages.map (fun st => .fwd st.x st.z st.le) ++
    (Pseudo.vset 1 terminal).expand ++ [.stb 1] ++ stages.reverse.map (fun st => .bwd st.z st.norm)

/-- Step 7 of R250: the host reads LLR[0..K-1] at 0x4000 + k, and STATUS. -/
def blockReads (count : Nat) : List HostEvent :=
  (List.range count).map (fun k => .read (BitVec.ofNat 16 (0x4000 + k))) ++ [.read 0x0000]

/-- The host's events for one block, with no reset (R250, R253). -/
def blockEvents (start terminal : Vector Int 8) (stages : List StageInput) : List HostEvent :=
  (blockCommands start terminal stages).map (fun i => .command (encode i)) ++ blockReads stages.length

end Sys2Proof.Machine
end

