-- ==== Sys2Proof/Machine/Cluster.lean ====
section
/-! DEFINITION. Several CORE instances (20_memory.md R73; 60_exceptions.md R223): the product of single-instance machines,
with any interleaving of their steps (log 16). -/

namespace Sys2Proof.Machine

/-- The states of the instances, in a fixed order. They share no state (R73). -/
abbrev Cluster := List State

/-- One step of instance n; the other instances stand still. With no instance n, nothing happens. -/
def clusterStep : Nat → Cluster → Host.Outcome Cluster Fault Refusal
  | _, [] => .next []
  | 0, s :: c =>
    match step s with
    | .next t => .next (t :: c)
    | .fault f => .fault f
    | .refused r => .refused r
  | n + 1, s :: c =>
    match clusterStep n c with
    | .next c' => .next (s :: c')
    | .fault f => .fault f
    | .refused r => .refused r

/-- The instances step in the order the schedule names them. -/
def clusterRun : List Nat → Cluster → Host.Outcome Cluster Fault Refusal
  | [], c => .next c
  | n :: ns, c =>
    match clusterStep n c with
    | .next c' => clusterRun ns c'
    | .fault f => .fault f
    | .refused r => .refused r

end Sys2Proof.Machine
end

