-- ==== Sys2Proof/Safety.lean ====
section
/-! DEFINITION. The terms claims are stated in: the invariant of a machine, the checks of 60_exceptions.md R211 and the reads
of 10_state.md R22 as tables of their own, what a command leaves alone (40_vector.md R110), and when two states differ only
in what nothing has written (60_exceptions.md R216). -/

namespace Sys2Proof.Machine

/-- The one check a command makes after decoding, with the error it raises (60_exceptions.md R211), at these values of KMAX
and KPTR. -/
def commandCheck (kmax kptr : Nat) : Instr → Option ErrorCode
  | .fwd _ _ _ => if kmax ≤ kptr then some .stageRange else none
  | .bwd _ _ => if kptr = 0 then some .stageRange else none
  | .setk k => if kmax < k then some .stageRange else none
  | .lda _ k => if kmax < k then some .stageRange else none
  | .sta _ k => if kmax < k then some .stageRange else none
  | .ldbm _ k _ => if kmax ≤ k then some .stageRange else none
  | .stbm _ k _ => if kmax ≤ k then some .stageRange else none
  | .ldc _ c => if 7 ≤ c then some .constRange else none
  | .nop => none
  | .vzero _ => none
  | .vbcast _ _ => none
  | .vsign _ _ _ => none
  | .vsra _ _ _ => none
  | .vadds _ _ _ => none
  | .vsubs _ _ _ => none
  | .vilo _ _ _ => none
  | .vihi _ _ _ => none
  | .vbshuf _ _ _ => none
  | .vl0b _ _ => none
  | .vmax _ _ _ => none
  | .vhmin _ _ => none
  | .vsh32 _ _ _ => none
  | .vsh16l _ _ _ => none
  | .vsh16h _ _ _ => none
  | .vins _ _ _ => none
  | .ldb _ => none
  | .stb _ => none

/-- The marked state a command reads, in the order it reads it (10_state.md R22; 41_forward.md R146; 42_backward.md R166;
43_host.md R183 to R189). -/
def readsOf (kptr : Nat) : Instr → List Place
  | .nop => []
  | .setk _ => []
  | .vzero _ => []
  | .vbcast _ _ => []
  | .ldc _ _ => []
  | .vsign _ va vb => [.vr va, .vr vb]
  | .vadds _ va vb => [.vr va, .vr vb]
  | .vsubs _ va vb => [.vr va, .vr vb]
  | .vilo _ va vb => [.vr va, .vr vb]
  | .vihi _ va vb => [.vr va, .vr vb]
  | .vbshuf _ va vb => [.vr va, .vr vb]
  | .vmax _ va vb => [.vr va, .vr vb]
  | .vsra _ va _ => [.vr va]
  | .vl0b _ va => [.vr va]
  | .vhmin _ va => [.vr va]
  | .vsh32 _ va _ => [.vr va]
  | .vsh16l _ va _ => [.vr va]
  | .vsh16h _ va _ => [.vr va]
  | .vins vd _ _ => [.vr vd]
  | .lda _ k => [.alpha k]
  | .sta va _ => [.vr va]
  | .ldbm _ k half => [.bm k half]
  | .stbm va _ _ => [.vr va]
  | .ldb _ => [.beta]
  | .stb va => [.vr va]
  | .fwd _ _ _ => [.alpha kptr]
  | .bwd _ _ => [.bm (kptr - 1) .lo, .bm (kptr - 1) .hi, .alpha (kptr - 1), .beta]

/-- The vector register a command writes (10_state.md R22). -/
def vrWrittenBy : Instr → Option VReg
  | .vzero vd => some vd
  | .vbcast vd _ => some vd
  | .vsign vd _ _ => some vd
  | .vsra vd _ _ => some vd
  | .vadds vd _ _ => some vd
  | .vsubs vd _ _ => some vd
  | .vilo vd _ _ => some vd
  | .vihi vd _ _ => some vd
  | .vbshuf vd _ _ => some vd
  | .vl0b vd _ => some vd
  | .vmax vd _ _ => some vd
  | .vhmin vd _ => some vd
  | .vsh32 vd _ _ => some vd
  | .vsh16l vd _ _ => some vd
  | .vsh16h vd _ _ => some vd
  | .vins vd _ _ => some vd
  | .ldc vd _ => some vd
  | .lda vd _ => some vd
  | .ldbm vd _ _ => some vd
  | .ldb vd => some vd
  | .nop => none
  | .setk _ => none
  | .sta _ _ => none
  | .stbm _ _ _ => none
  | .stb _ => none
  | .fwd _ _ _ => none
  | .bwd _ _ => none

/-- The ghost write mark of a place (10_state.md R37). -/
def State.marked (s : State) : Place → Bool
  | .vr r => (s.vr[r]).written
  | .beta => s.beta.written
  | .alpha k => (s.alpha.find k).isSome
  | .bm k .lo => (s.bmLo.find k).isSome
  | .bm k .hi => (s.bmHi.find k).isSome
  | .llr k => (s.llr.find k).isSome

/-- The policy for reading a place that nothing has written (log 4). -/
def State.policyOf (s : State) : Place → UninitPolicy
  | .vr _ => s.params.uninitReg
  | .beta => s.params.uninitReg
  | _ => s.params.uninitMem

/-- Reading this place does not stop: something has written it, or the policy is to go on. -/
def State.readable (s : State) (p : Place) : Bool := s.marked p || s.policyOf p == .value

/-! Encoding terms of their own: the reserved bits as 30_encoding.md R82 lays them out, and the illegal opcodes as R87 lists
them. -/

/-- The bits R82 marks 0, as ranges (high, low), by opcode; none for an opcode outside R85. -/
def reservedRanges (op : Nat) : Option (List (Nat × Nat)) :=
  if op = 0x01 then some [(55, 0)]
  else if op = 0x02 then some [(55, 16)]
  else if op ∈ [0x10, 0x26] then some [(51, 0)]
  else if op = 0x27 then some [(55, 52), (47, 0)]
  else if op ∈ [0x19, 0x1B] then some [(47, 0)]
  else if op ∈ [0x12, 0x14, 0x15, 0x16, 0x17, 0x18, 0x1A] then some [(43, 0)]
  else if op ∈ [0x11, 0x21] then some [(51, 16)]
  else if op = 0x13 then some [(47, 16)]
  else if op ∈ [0x1C, 0x1D, 0x1E] then some [(47, 8)]
  else if op = 0x20 then some [(51, 19)]
  else if op = 0x22 then some [(51, 32), (15, 0)]
  else if op = 0x24 then some [(51, 33), (15, 0)]
  else if op = 0x23 then some [(55, 52), (47, 32), (15, 0)]
  else if op = 0x25 then some [(55, 52), (47, 33), (15, 0)]
  else if op = 0x30 then some [(55, 48)]
  else if op = 0x31 then some [(55, 32)]
  else none

/-- A reserved bit of the word's format is 1 (R86). -/
def hasReservedBit (w : CmdWord) : Prop :=
  ∃ rs, reservedRanges (opField w).toNat = some rs ∧
    ∃ r ∈ rs, ∃ b, r.2 ≤ b ∧ b ≤ r.1 ∧ w.getLsbD b = true

/-- The opcodes R87 lists as illegal. -/
def opcodeIllegal (op : Nat) : Prop :=
  op = 0x00 ∨ (0x03 ≤ op ∧ op ≤ 0x0F) ∨ op = 0x1F ∨ (0x28 ≤ op ∧ op ≤ 0x2F) ∨ (0x32 ≤ op ∧ op ≤ 0xFF)

/-! The recursion in the trellis's own terms (10_state.md R33), for the default ROM. -/

/-- A sample on an edge whose bit is b: the sample itself for polarity +1, NEG of it for polarity -1 (10_state.md R33;
40_vector.md R113). -/
def signedBy (pm : PsignMin) (v : Int) (b : Bool) : Int := if b then v else signNeg pm v

/-- The metric of the edge out of s' with input u, before any hypothesis is negated (41_forward.md R142, R149). -/
def edgeMetric (p : Params) (x z le : Int) (s' : Nat) (u : Bool) : Int :=
  let channel := sat16 (signedBy p.psignMin x u + signedBy p.psignMin z (parityBit s' u))
  match p.bmShift with
  | .leOnly => sat16 (channel + asr (signedBy p.psignMin le u) 1)
  | .wholeSum => asr (sat16 (channel + signedBy p.psignMin le u)) 1

/-- The input of the upper edge p0(s) → s (10_state.md R33). -/
def upperInput (s : Nat) : Bool := decide (nextState (evenPred s) true = s)

/-- The plus metric of the upper edge p0(s) → s (41_forward.md R142). -/
def upperMetric (p : Params) (x z le : Int) (s : Nat) : Int := edgeMetric p x z le (evenPred s) (upperInput s)

/-- The best path metric into s: the add-compare-select of its two incoming edges (41_forward.md R144). -/
def bestInto (p : Params) (x z le : Int) (a : Vec) (s : Nat) : Int :=
  max (sat16 (h a (evenPred s) + upperMetric p x z le s))
    (sat16 (h a (oddPred s) + sat16 (-(upperMetric p x z le s))))

/-- m is the greatest of the eight values. -/
def isGreatest (f : Nat → Int) (m : Int) : Prop := (∀ i < 8, f i ≤ m) ∧ ∃ i < 8, f i = m

/-! The invariant. -/

/-- ERRCMD and STATUS tell the same story (60_exceptions.md R210, R212, R218): with no error ERRCMD is 0; an error's code is
the one the word in ERRCMD raises at the KMAX and KPTR of the state. -/
def errorConsistent (s : State) : Bool :=
  match s.status with
  | .ok => s.errcmd == 0
  | .error c =>
    match decode s.errcmd with
    | .error e => codeOf e == c
    | .ok i => commandCheck s.params.kmax s.kptr.toNat i == some c

/-- The invariant of a machine: legal parameters (00_scope.md R8), 0 ≤ KPTR ≤ KMAX (10_state.md R25), every memory in
canonical form and inside its range (20_memory.md R60), and a consistent error record. -/
def State.Inv (s : State) : Prop :=
  paramsLegal s.params = true ∧ s.kptr.toNat ≤ s.params.kmax ∧
    Mem.wf (s.params.kmax + 1) s.alpha = true ∧ Mem.wf s.params.kmax s.bmLo = true ∧
    Mem.wf s.params.kmax s.bmHi = true ∧ Mem.wf s.params.kmax s.llr = true ∧ errorConsistent s = true

/-! What is left alone. -/

/-- KPTR, STATUS, RESULT and ERRCMD are the same. -/
def keepsControl (s t : State) : Prop :=
  t.kptr = s.kptr ∧ t.status = s.status ∧ t.result = s.result ∧ t.errcmd = s.errcmd

/-- The parameters, and the host's side of the two ports, are the same. -/
def keepsHost (s t : State) : Prop := t.params = s.params ∧ t.inbox = s.inbox ∧ t.outbox = s.outbox

/-- Every VR, with its mark, is the same. -/
def keepsVRs (s t : State) : Prop := ∀ r : VReg, t.vr[r] = s.vr[r]

/-- Every ALPHA entry but those of `except`, with its mark, is the same. -/
def keepsAlpha (except : Nat → Prop) (s t : State) : Prop := ∀ k, ¬ except k → t.alpha.find k = s.alpha.find k

/-- Every lo half of BM but those of `except`, with its mark, is the same. -/
def keepsBmLo (except : Nat → Prop) (s t : State) : Prop := ∀ k, ¬ except k → t.bmLo.find k = s.bmLo.find k

/-- Every hi half of BM but those of `except`, with its mark, is the same. -/
def keepsBmHi (except : Nat → Prop) (s t : State) : Prop := ∀ k, ¬ except k → t.bmHi.find k = s.bmHi.find k

/-- Every LLR entry but those of `except`, with its mark, is the same. -/
def keepsLlr (except : Nat → Prop) (s t : State) : Prop := ∀ k, ¬ except k → t.llr.find k = s.llr.find k

/-- No entry: what a command that writes no memory leaves out. -/
def noEntry : Nat → Prop := fun _ => False

/-- Every entry of every metric memory is the same. -/
def keepsMetrics (s t : State) : Prop :=
  keepsAlpha noEntry s t ∧ keepsBmLo noEntry s t ∧ keepsBmHi noEntry s t ∧ keepsLlr noEntry s t

/-- The command wrote v to VR[vd], setting its mark, and wrote nothing else (40_vector.md R110). -/
def wroteOnlyVR (vd : VReg) (v : Vec) (s t : State) : Prop :=
  t.vr[vd] = ⟨v, true⟩ ∧ (∀ r : VReg, r ≠ vd → t.vr[r] = s.vr[r]) ∧ t.beta = s.beta ∧
    keepsControl s t ∧ keepsMetrics s t ∧ keepsHost s t

/-! The forms of a command's rule: RESERVED_FIELD, its encoding, its effect with every source readable, and UNINIT_READ where a
source is unwritten in a model that faults there (40_vector.md R110; 60_exceptions.md R216). -/

/-- A word with this opcode raises RESERVED_FIELD exactly when a reserved bit of its format is 1 (30_encoding.md R86). -/
def reservedFieldRule (op : Byte) : Prop :=
  ∀ w : CmdWord, opField w = op → (decode w = .error .reservedField ↔ hasReservedBit w)

/-- A command that reads VA and writes VD, any immediate standing inside `enc` and `cmd`. -/
def unaryRule (op : Byte) (enc : Byte → VReg → VReg → CmdWord) (cmd : VReg → VReg → Instr)
    (post : Vec → Vec → Prop) : Prop :=
  reservedFieldRule op ∧
  ∀ (s : State) (vd va : VReg),
    encode (cmd vd va) = enc op vd va ∧
    (∀ a, s.readVR va = .ok a →
      ∃ v t, exec (cmd vd va) s = .next t ∧ wroteOnlyVR vd v s t ∧ post a v) ∧
    (s.params.uninitReg = .fault → s.marked (.vr va) = false → exec (cmd vd va) s = .fault (.uninitRead (.vr va)))

/-- A command of format RRR that reads VA and VB and writes VD. -/
def binaryRule (op : Byte) (cmd : VReg → VReg → VReg → Instr) (post : Params → Vec → Vec → Vec → Prop) : Prop :=
  reservedFieldRule op ∧
  ∀ (s : State) (vd va vb : VReg),
    encode (cmd vd va vb) = encRRR op vd va vb ∧
    (∀ a b, s.readVR va = .ok a → s.readVR vb = .ok b →
      ∃ v t, exec (cmd vd va vb) s = .next t ∧ wroteOnlyVR vd v s t ∧ post s.params a b v) ∧
    (s.params.uninitReg = .fault → s.marked (.vr va) = false ∨ s.marked (.vr vb) = false →
      ∃ r, (r = va ∨ r = vb) ∧ s.marked (.vr r) = false ∧ exec (cmd vd va vb) s = .fault (.uninitRead (.vr r)))

/-! Independence of what nothing has written. -/

/-- Two registers with the same mark, and the same value where the mark is set. -/
def Reg.agrees (a b : Reg) : Prop := a.written = b.written ∧ (a.written = true → a.value = b.value)

/-- Two states that differ at most in the values of registers nothing has written since reset. -/
def State.agrees (s t : State) : Prop :=
  (∀ r : VReg, (s.vr[r]).agrees (t.vr[r])) ∧ s.beta.agrees t.beta ∧
    keepsControl s t ∧ keepsHost s t ∧ t.alpha = s.alpha ∧ t.bmLo = s.bmLo ∧ t.bmHi = s.bmHi ∧ t.llr = s.llr

/-- Two outcomes that cannot be told apart by what has been written. -/
def outcomesAgree : Host.Outcome State Fault Refusal → Host.Outcome State Fault Refusal → Prop
  | .next s, .next t => s.agrees t
  | .fault f, .fault g => f = g
  | .refused f, .refused g => f = g
  | _, _ => False

/-- The spec's own choice for a model: every read of unwritten state stops with UNINIT_READ (60_exceptions.md R216). -/
def State.faultsOnUninit (s : State) : Prop := s.params.uninitReg = .fault ∧ s.params.uninitMem = .fault

end Sys2Proof.Machine
end

