-- ==== Sys2Proof/Certificates/Slice0/Obligations.lean ====
section
/-! DEFINITION. The statements for the provers. Each docstring names the rule of spec/ it follows. A word the host writes, a
read and the reset signal reach the machine as the head of `inbox` (log 8), and the words of the read port leave it through
`outbox` (log 9). -/

open Sys2Proof Sys2Proof.Machine

/-! Encoding and decoding (30_encoding.md). -/

/-- R81, R82, R84, R85: decoding the word of a well-formed command gives the command back, every operand at every value its
field admits. -/
def Obligations.DecodeUndoesEncode : Prop :=
  ∀ i : Instr, i.wf = true → decode (encode i) = .ok i

/-- R81, R82, R86: a word that decodes has a well-formed command whose word it is, so each command has exactly one word. -/
def Obligations.EncodeUndoesDecode : Prop :=
  ∀ (w : CmdWord) (i : Instr), decode w = .ok i → i.wf = true ∧ encode i = w

/-- R92: the worked encodings, each read both ways, and the word with a reserved bit set, which raises RESERVED_FIELD. -/
def Obligations.WorkedWordsDecode : Prop :=
  (encode (.vbcast 1 30000) = 0x1110000000007530 ∧ decode 0x1110000000007530 = .ok (.vbcast 1 30000)) ∧
  (encode (.vins 4 3 (-32768)) = 0x2040000000038000 ∧ decode 0x2040000000038000 = .ok (.vins 4 3 (-32768))) ∧
  (encode (.ldbm 4 0 .hi) = 0x2440000100000000 ∧ decode 0x2440000100000000 = .ok (.ldbm 4 0 .hi)) ∧
  (encode (.fwd (-64) 64 0) = 0x3000FFC000400000 ∧ decode 0x3000FFC000400000 = .ok (.fwd (-64) 64 0)) ∧
  (encode (.bwd (-64) 128) = 0x31000000FFC00080 ∧ decode 0x31000000FFC00080 = .ok (.bwd (-64) 128)) ∧
  ∀ s : State, s.halted = false →
    runWord 0x1412300000000001 s = .next (s.raiseError .reservedField 0x1412300000000001)

/-- R87: the illegal opcodes are exactly those the rule lists; a word with one raises ILLEGAL_OPCODE, ECODE 1; the all-zero
word is illegal; NOP is 0x0100000000000000. -/
def Obligations.IllegalOpcodesAreThoseListed : Prop :=
  (∀ w : CmdWord, decode w = .error .illegalOpcode ↔ opcodeIllegal (opField w).toNat) ∧
  (∀ (s : State) (w : CmdWord) (rest : List HostEvent), s.inbox = .command w :: rest → s.halted = false →
    opcodeIllegal (opField w).toNat →
    step s = .next { s with inbox := rest, status := .error .illegalOpcode, errcmd := w }) ∧
  ErrorCode.illegalOpcode.ecode = 1 ∧
  decode 0x0000000000000000 = .error .illegalOpcode ∧ decode 0x0100000000000000 = .ok .nop

/-- R86: a word whose opcode is in R85 and which has a 1 in a bit that its format (R82) reserves is not executed; it raises
RESERVED_FIELD, ECODE 2; and no other word of a legal opcode does. -/
def Obligations.ReservedBitsAreChecked : Prop :=
  (∀ w : CmdWord, decode w = .error .reservedField ↔ hasReservedBit w) ∧
  (∀ (s : State) (w : CmdWord) (rest : List HostEvent), s.inbox = .command w :: rest → s.halted = false →
    hasReservedBit w →
    step s = .next { s with inbox := rest, status := .error .reservedField, errcmd := w }) ∧
  ErrorCode.reservedField.ecode = 2

/-- R85: a word is the command of a row exactly when it matches under the row's mask; with the row's opcode and no match it is
RESERVED_FIELD, not another command; no two rows have one opcode. -/
def Obligations.MaskAndMatchSelectTheRow : Prop :=
  (∀ r ∈ opcodeTable, ∀ w : CmdWord,
    (w &&& r.mask = r.pattern ↔ opField w = r.op ∧ decode w = .ok (r.build w)) ∧
    (opField w = r.op → w &&& r.mask ≠ r.pattern → decode w = .error .reservedField)) ∧
  opcodeTable.length = 27 ∧ opcodeTable.Pairwise fun r q => r.op ≠ q.op

/-! The step, errors, reset. -/

/-- 30_encoding.md R89; 20_memory.md R66: a command word that decodes, at the head of the host's events of a core that is not
halted, is executed, and the step does nothing else but take it. -/
def Obligations.StepRunsTheDecodedCommand : Prop :=
  ∀ (s : State) (w : CmdWord) (rest : List HostEvent) (i : Instr),
    s.inbox = .command w :: rest → s.halted = false → decode w = .ok i →
    step s = exec i { s with inbox := rest }

/-- 60_exceptions.md R225: with nothing pending CORE is idle and keeps all state. -/
def Obligations.IdleStepKeepsAllState : Prop :=
  ∀ s : State, s.inbox = [] → step s = .next s

/-- 60_exceptions.md R213: while STATUS.ERR = 1 every command word is accepted and discarded with no effect, whatever it is;
the read port works as usual; only reset leaves the halted state. -/
def Obligations.HaltedCoreDiscardsEveryWord : Prop :=
  (∀ (s : State) (w : CmdWord) (rest : List HostEvent), s.halted = true → s.inbox = .command w :: rest →
    step s = .next { s with inbox := rest }) ∧
  (∀ (s : State) (a v : Half16) (rest : List HostEvent), s.halted = true → s.inbox = .read a :: rest →
    s.readPort a = .ok v → step s = .next { s with inbox := rest, outbox := s.outbox ++ [v] }) ∧
  (∀ (s : State) (rest : List HostEvent), s.halted = true → s.inbox = .reset :: rest →
    ∃ t, step s = .next t ∧ t.halted = false) ∧
  (∀ s t : State, s.halted = true → (∀ rest, s.inbox ≠ .reset :: rest) → step s = .next t → t.halted = true)

/-- 60_exceptions.md R218: a step that is no reset keeps the first error's STATUS and ERRCMD. -/
def Obligations.FirstErrorIsKeptUntilReset : Prop :=
  ∀ (s t : State) (c : ErrorCode), s.status = .error c → (∀ rest, s.inbox ≠ .reset :: rest) → step s = .next t →
    t.status = .error c ∧ t.errcmd = s.errcmd

/-- 70_reset_and_hazards.md R241; 10_state.md R37: no event but reset clears a ghost mark, and reset clears every one. -/
def Obligations.OnlyResetClearsGhostMarks : Prop :=
  (∀ (s t : State), (∀ rest, s.inbox ≠ .reset :: rest) → step s = .next t →
    ∀ p, s.marked p = true → t.marked p = true) ∧
  (∀ (s : State) (rest : List HostEvent), s.inbox = .reset :: rest →
    ∃ t, step s = .next t ∧ ∀ p, t.marked p = false)

/-- 60_exceptions.md R212: when a command word raises an error, STATUS.ERR becomes 1, STATUS.ECODE the error's code and ERRCMD
the word; nothing else changes, and the core is halted. -/
def Obligations.ErrorEntryChangesOnlyStatusAndErrcmd : Prop :=
  ∀ (s t : State) (w : CmdWord) (rest : List HostEvent) (c : ErrorCode),
    s.inbox = .command w :: rest → s.halted = false → step s = .next t → t.status = .error c →
    t = { s with inbox := rest, status := .error c, errcmd := w } ∧
      t.status.err = true ∧ t.status.ecode = c.ecode ∧ t.halted = true

/-- 60_exceptions.md R214: one error at most is reported, in the order opcode, reserved bits, the command's own check, and only
then UNINIT_READ. Which unwritten places stop the model is its parameter (log 4), and which of several is named its choice
(log 17). -/
def Obligations.ErrorPriorityIsDecodeOrder : Prop :=
  ∀ (s : State) (w : CmdWord) (rest : List HostEvent),
    s.inbox = .command w :: rest → s.halted = false → s.kptr.toNat ≤ s.params.kmax →
    (opcodeIllegal (opField w).toNat →
      step s = .next ({ s with inbox := rest }.raiseError .illegalOpcode w)) ∧
    (¬ opcodeIllegal (opField w).toNat → hasReservedBit w →
      step s = .next ({ s with inbox := rest }.raiseError .reservedField w)) ∧
    (∀ i c, decode w = .ok i → commandCheck s.params.kmax s.kptr.toNat i = some c →
      step s = .next ({ s with inbox := rest }.raiseError c w)) ∧
    (∀ i p, decode w = .ok i → commandCheck s.params.kmax s.kptr.toNat i = none →
      (readsOf s.kptr.toNat i).find? (fun q => !s.readable q) = some p →
      step s = .fault (.uninitRead p))

/-- 60_exceptions.md R211: a command whose check fails raises that error; every command that passes its check, with what it
reads readable (log 4), executes and raises none. -/
def Obligations.CommandChecksDecideTheOutcome : Prop :=
  ∀ (i : Instr) (s : State), s.kptr.toNat ≤ s.params.kmax →
    (∀ c, commandCheck s.params.kmax s.kptr.toNat i = some c →
      exec i s = .next (s.raiseError c (encode i))) ∧
    (commandCheck s.params.kmax s.kptr.toNat i = none → (∀ p ∈ readsOf s.kptr.toNat i, s.readable p = true) →
      ∃ t, exec i s = .next t ∧ t.status = s.status ∧ t.errcmd = s.errcmd)

/-- 60_exceptions.md R216: the only stop of a command is UNINIT_READ, of the first place it reads that is not readable, and a
command that fails its check never reaches it. `readable` is by the model's policies (log 4), and "first" is its own order
(log 17). -/
def Obligations.UninitReadIsTheOnlyStop : Prop :=
  ∀ (i : Instr) (s : State), s.kptr.toNat ≤ s.params.kmax →
    (∀ f, exec i s = .fault f ↔
      commandCheck s.params.kmax s.kptr.toNat i = none ∧
        ∃ p, (readsOf s.kptr.toNat i).find? (fun q => !s.readable q) = some p ∧ f = .uninitRead p) ∧
    (∀ r, exec i s ≠ .refused r)

/-- 60_exceptions.md R216: where every read of unwritten state stops, a run's results do not depend on what reset left in the
registers: two states that differ only there stay so, and give the same words to the host, for any number of steps. -/
def Obligations.ResultsDoNotDependOnUnwrittenState : Prop :=
  ∀ (n : Nat) (s t : State), s.agrees t → s.faultsOnUninit →
    outcomesAgree (Sys2Proof.core.run n s) (Sys2Proof.core.run n t)

/-- The invariant `State.Inv` (00_scope.md R8; 10_state.md R25; 20_memory.md R60; 60_exceptions.md R210, R218) is kept by every
step from every state that has it. -/
def Obligations.StepKeepsTheInvariant : Prop :=
  ∀ s t : State, s.Inv → step s = .next t → t.Inv

/-- The invariant holds after reset, of the default machine and of every machine that can be constructed. -/
def Obligations.ResetMeetsTheInvariant : Prop :=
  State.reset.Inv ∧ ∀ (p : Params) (s : State), State.construct p = .ok s → s.Inv

/-- 10_state.md R34; 00_scope.md R8: no command writes the ROM and its value does not change at reset; the same of the other
parameters. -/
def Obligations.ParametersAndRomNeverChange : Prop :=
  ∀ s t : State, step s = .next t → t.params = s.params ∧ ∀ c, romEntry t.params.trellis c = romEntry s.params.trellis c

/-- 70_reset_and_hazards.md R240: after the reset signal KPTR, STATUS, RESULT and ERRCMD are 0, every ghost mark is clear, the
ROM is unchanged, and the core is ready for the host's next event. The data values that R240 leaves unspecified are not
stated. -/
def Obligations.ResetSignalClearsTheControlState : Prop :=
  ∀ (s : State) (rest : List HostEvent), s.inbox = .reset :: rest →
    ∃ t, step s = .next t ∧ t.kptr = 0x0000 ∧ t.status.word = 0x0000 ∧ t.result = 0x0000 ∧
      t.errcmd = 0x0000000000000000 ∧ (∀ p, t.marked p = false) ∧ t.params.trellis = s.params.trellis ∧
      t.halted = false ∧ t.inbox = rest

/-- 10_state.md R37; 60_exceptions.md R216; 93_implementation_defined.md I1: reading a place that is written gives its value; a
place that is not written stops with UNINIT_READ where the policy is to fault, and goes on where it is not. The policies are
the model's parameters (log 4). -/
def Obligations.UnwrittenPlacesReadByPolicy : Prop :=
  ∀ s : State,
    (∀ r : VReg,
      ((s.vr[r]).written = true → s.readVR r = .ok (s.vr[r]).value) ∧
      ((s.vr[r]).written = false → s.params.uninitReg = .fault → s.readVR r = .error (.uninitRead (.vr r))) ∧
      ((s.vr[r]).written = false → s.params.uninitReg = .value → ∃ v, s.readVR r = .ok v)) ∧
    ((s.beta.written = true → s.readBeta = .ok s.beta.value) ∧
      (s.beta.written = false → s.params.uninitReg = .fault → s.readBeta = .error (.uninitRead .beta)) ∧
      (s.beta.written = false → s.params.uninitReg = .value → ∃ v, s.readBeta = .ok v)) ∧
    (∀ k, k ≤ s.params.kmax →
      (∀ v, s.alpha.find k = some v → s.readAlpha k = .ok v) ∧
      (s.alpha.find k = none → s.params.uninitMem = .fault → s.readAlpha k = .error (.uninitRead (.alpha k))) ∧
      (s.alpha.find k = none → s.params.uninitMem = .value → ∃ v, s.readAlpha k = .ok v)) ∧
    (∀ k, k < s.params.kmax →
      (∀ v, s.bmLo.find k = some v → s.readBm k .lo = .ok v) ∧
      (∀ v, s.bmHi.find k = some v → s.readBm k .hi = .ok v) ∧
      (s.bmLo.find k = none → s.params.uninitMem = .fault → s.readBm k .lo = .error (.uninitRead (.bm k .lo))) ∧
      (s.bmHi.find k = none → s.params.uninitMem = .fault → s.readBm k .hi = .error (.uninitRead (.bm k .hi))) ∧
      (∀ half, s.marked (.bm k half) = false → s.params.uninitMem = .value → ∃ v, s.readBm k half = .ok v) ∧
      (∀ v, s.llr.find k = some v → s.readLlr k = .ok v) ∧
      (s.llr.find k = none → s.params.uninitMem = .fault → s.readLlr k = .error (.uninitRead (.llr k))) ∧
      (s.llr.find k = none → s.params.uninitMem = .value → ∃ v, s.readLlr k = .ok v))

/-! The read port and the control registers (10_state.md). -/

/-- R29: the read-port map, every address of it; a lane or an LLR entry reads as its `u16`, and a read that stops does so with
the register's or the entry's own UNINIT_READ. -/
def Obligations.ReadPortFollowsItsMap : Prop :=
  ∀ (s : State) (addr : Half16),
    (addr.toNat = 0x0000 → s.readPort addr = .ok s.status.word) ∧
    (addr.toNat = 0x0001 → s.readPort addr = .ok s.result) ∧
    (addr.toNat = 0x0002 → s.readPort addr = .ok s.kptr) ∧
    (addr.toNat = 0x0003 → s.readPort addr = .ok 0x0000) ∧
    (addr.toNat = 0x0004 → s.readPort addr = .ok (s.errcmd.extractLsb' 0 16)) ∧
    (addr.toNat = 0x0005 → s.readPort addr = .ok (s.errcmd.extractLsb' 16 16)) ∧
    (addr.toNat = 0x0006 → s.readPort addr = .ok (s.errcmd.extractLsb' 32 16)) ∧
    (addr.toNat = 0x0007 → s.readPort addr = .ok (s.errcmd.extractLsb' 48 16)) ∧
    (0x0008 ≤ addr.toNat → addr.toNat ≤ 0x00FF → s.readPort addr = .ok 0x0000) ∧
    (∀ (r : VReg) (i : Nat), i < 8 → addr.toNat = 0x0100 + 8 * r.val + i →
      (∀ v, s.readVR r = .ok v → s.readPort addr = .ok (u16 (h v i))) ∧
      (∀ f, s.readVR r = .error f → s.readPort addr = .error f)) ∧
    (∀ i : Nat, i < 8 → addr.toNat = 0x0180 + i →
      (∀ v, s.readBeta = .ok v → s.readPort addr = .ok (u16 (h v i))) ∧
      (∀ f, s.readBeta = .error f → s.readPort addr = .error f)) ∧
    (0x0188 ≤ addr.toNat → addr.toNat ≤ 0x3FFF → s.readPort addr = .ok 0x0000) ∧
    (∀ k, addr.toNat = 0x4000 + k → k < s.params.kmax → s.readPort addr = s.readLlr k) ∧
    (∀ k, addr.toNat = 0x4000 + k → s.params.kmax ≤ k → s.readPort addr = .ok 0x0000)

/-- 20_memory.md R64; 10_state.md R29: a host read returns the port's word and changes nothing else. -/
def Obligations.HostReadChangesNothing : Prop :=
  ∀ (s : State) (a : Half16) (rest : List HostEvent), s.inbox = .read a :: rest →
    (∀ v, s.readPort a = .ok v → step s = .next { s with inbox := rest, outbox := s.outbox ++ [v] }) ∧
    (∀ f, s.readPort a = .error f → step s = .fault f)

/-- R26: ERR is bit 0, ECODE bits 7 to 4, every other bit reads 0; ECODE is 0 exactly when ERR is 0 and is never above 4. -/
def Obligations.StatusWordHasItsFields : Prop :=
  ∀ st : Status,
    st.word.getLsbD 0 = st.err ∧ (st.word.extractLsb' 4 4).toNat = st.ecode ∧
      st.word.extractLsb' 1 3 = 0#3 ∧ st.word.extractLsb' 8 8 = 0#8 ∧
      (st.ecode = 0 ↔ st.err = false) ∧ st.ecode ≤ 4

/-- R25, R27: no command but SETK, FWD and BWD changes KPTR, none takes it past KMAX, and no command but FWD and BWD changes
RESULT. -/
def Obligations.KptrAndResultHaveFewWriters : Prop :=
  ∀ (i : Instr) (s t : State), exec i s = .next t →
    ((∀ k, i ≠ .setk k) → (∀ x z le, i ≠ .fwd x z le) → (∀ z norm, i ≠ .bwd z norm) → t.kptr = s.kptr) ∧
    (s.params.kmax ≤ 16383 → s.kptr.toNat ≤ s.params.kmax → t.kptr.toNat ≤ s.params.kmax) ∧
    ((∀ x z le, i ≠ .fwd x z le) → (∀ z norm, i ≠ .bwd z norm) → t.result = s.result)

/-- R22: a command changes no VR but the one its VD field names, and FWD, BWD and the commands with no VD change none; only
FWD, BWD, STA, STBM and STB change metric state. -/
def Obligations.CommandsWriteOnlyTheirVectorRegister : Prop :=
  ∀ (i : Instr) (s t : State), exec i s = .next t →
    (∀ r : VReg, vrWrittenBy i ≠ some r → t.vr[r] = s.vr[r]) ∧
    ((∀ x z le, i ≠ .fwd x z le) → (∀ z norm, i ≠ .bwd z norm) → (∀ va k, i ≠ .sta va k) →
      (∀ va k half, i ≠ .stbm va k half) → (∀ va, i ≠ .stb va) → t.beta = s.beta ∧ keepsMetrics s t) ∧
    keepsHost s t

/-- 20_memory.md R64: every command but FWD and BWD is idempotent once its sources are unchanged: where it does not write a
register it reads, executing it again changes nothing more. -/
def Obligations.RepeatedCommandChangesNothingMore : Prop :=
  ∀ (i : Instr) (s t : State), (∀ x z le, i ≠ .fwd x z le) → (∀ z norm, i ≠ .bwd z norm) →
    (∀ r, vrWrittenBy i = some r → .vr r ∉ readsOf s.kptr.toNat i) →
    exec i s = .next t → exec i t = .next t

/-- 20_memory.md R73: a step of one instance changes no other, is that instance's own step, and steps of two instances may be
interleaved either way. -/
def Obligations.InstancesAreIndependent : Prop :=
  (∀ (n : Nat) (all after : Cluster), clusterStep n all = .next after →
    after.length = all.length ∧ (∀ m, m ≠ n → after[m]? = all[m]?) ∧
    ∀ s, all[n]? = some s → ∃ t, step s = .next t ∧ after[n]? = some t) ∧
  (∀ (m n : Nat) (all mid after : Cluster), m ≠ n → clusterStep m all = .next mid → clusterStep n mid = .next after →
    ∃ other, clusterStep n all = .next other ∧ clusterStep m other = .next after)

/-- 00_scope.md R8; 93_implementation_defined.md I4: a machine is built exactly from legal parameters, and then in its reset
state. -/
def Obligations.OnlyLegalParametersBuildAMachine : Prop :=
  ∀ p : Params, ((∃ s, State.construct p = .ok s) ↔ paramsLegal p = true) ∧
    ∀ s, State.construct p = .ok s → s = State.resetWith p

/-! The sequencing commands (43_host.md). -/

/-- R180, R181: NOP changes nothing; SETK k sets KPTR to k and nothing else, or raises STAGE_RANGE if k > KMAX. -/
def Obligations.NopAndSetk : Prop :=
  reservedFieldRule 0x01 ∧ reservedFieldRule 0x02 ∧
  ∀ s : State,
    encode .nop = 0x0100000000000000 ∧ exec .nop s = .next s ∧
    ∀ k, fitsU16 k = true →
      encode (.setk k) = encK 0x02 (BitVec.ofNat 16 k) ∧
      (k ≤ s.params.kmax →
        ∃ t, exec (.setk k) s = .next t ∧ t.kptr.toNat = k ∧ t = { s with kptr := t.kptr }) ∧
      (s.params.kmax < k → exec (.setk k) s = .next (s.raiseError .stageRange (encode (.setk k))))

/-! The vector commands (40_vector.md). -/

/-- R111, R112: VZERO writes 0 in all 128 bits; VBCAST writes its scalar in every lane. Neither reads a register. -/
def Obligations.VzeroAndVbcastWriteConstants : Prop :=
  reservedFieldRule 0x10 ∧ reservedFieldRule 0x11 ∧
  ∀ (s : State) (vd : VReg),
    encode (.vzero vd) = encD 0x10 vd ∧
    (∃ t, exec (.vzero vd) s = .next t ∧ wroteOnlyVR vd 0 s t) ∧
    ∀ x, fitsS16 x = true →
      encode (.vbcast vd x) = encDI 0x11 vd (u16 x) ∧
      ∃ v t, exec (.vbcast vd x) s = .next t ∧ wroteOnlyVR vd v s t ∧ ∀ i < 8, h v i = x

/-- R113: lane i is a[i], its negation, or 0, by the sign of the pattern lane; the negation saturates or wraps at -32768 by
PSIGN_MIN, and is exact elsewhere. -/
def Obligations.VsignAppliesThePatternSign : Prop :=
  binaryRule 0x12 .vsign fun p a q v => ∀ i < 8,
    (0 < h q i → h v i = h a i) ∧
    (h q i < 0 → h a i ≠ -32768 → h v i = -(h a i)) ∧
    (h q i < 0 → h a i = -32768 → p.psignMin = .sat → h v i = 32767) ∧
    (h q i < 0 → h a i = -32768 → p.psignMin = .wrap → h v i = -32768) ∧
    (h q i = 0 → h v i = 0)

/-- R114: floor of the lane by 2^n; for n ≥ 16, 0 or -1 by the lane's sign. -/
def Obligations.VsraShiftsRightArithmetically : Prop :=
  ∀ n, fitsU16 n = true →
    unaryRule 0x13 (fun op vd va => encRI16 op vd va (BitVec.ofNat 16 n)) (fun vd va => .vsra vd va n) fun a v =>
      ∀ i < 8, h v i = if n < 16 then h a i / 2 ^ n else if h a i < 0 then -1 else 0

/-- R115: the saturated sum of the lanes. -/
def Obligations.VaddsAddsLanesWithSaturation : Prop :=
  binaryRule 0x14 .vadds fun _ a b v => ∀ i < 8, h v i = sat16 (h a i + h b i)

/-- R116: the saturated difference of the lanes, VA the minuend. -/
def Obligations.VsubsSubtractsLanesWithSaturation : Prop :=
  binaryRule 0x15 .vsubs fun _ a b v => ∀ i < 8, h v i = sat16 (h a i - h b i)

/-- R117, R118: the lanes of the low halves, and of the high halves, of a and b in turn. -/
def Obligations.ViloAndVihiInterleaveHalves : Prop :=
  binaryRule 0x16 .vilo (fun _ a b v => ∀ i < 4, h v (2 * i) = h a i ∧ h v (2 * i + 1) = h b i) ∧
  binaryRule 0x17 .vihi (fun _ a b v => ∀ i < 4, h v (2 * i) = h a (4 + i) ∧ h v (2 * i + 1) = h b (4 + i))

/-- R119: byte j is 0 under a negative index byte, and otherwise the table byte at the index mod 16. -/
def Obligations.VbshufGathersBytes : Prop :=
  binaryRule 0x18 .vbshuf fun _ t x v => ∀ j < 16,
    (128 ≤ (byteOf x j).toNat → byteOf v j = 0) ∧
    ((byteOf x j).toNat < 128 → byteOf v j = byteOf t ((byteOf x j).toNat % 16))

/-- R120, R121: VL0B writes lane 0 in every lane; VMAX writes the greater lane, compared as signed. -/
def Obligations.Vl0bBroadcastsAndVmaxTakesTheGreater : Prop :=
  unaryRule 0x19 encRR .vl0b (fun a v => ∀ i < 8, h v i = h a 0) ∧
  binaryRule 0x1A .vmax (fun _ a b v => ∀ i < 8,
    (h a i ≤ h b i → h v i = h b i) ∧ (h b i ≤ h a i → h v i = h a i))

/-- R122: lane 0 is the least lane pattern by unsigned comparison, lane 1 the least lane that holds it, the others 0. -/
def Obligations.VhminFindsTheUnsignedMinimum : Prop :=
  unaryRule 0x1B encRR .vhmin fun a v =>
    ∃ j < 8, lane v 0 = lane a j ∧ h v 1 = j ∧ (∀ i, 2 ≤ i → i < 8 → h v i = 0) ∧
      (∀ i < 8, (lane a j).toNat ≤ (lane a i).toNat) ∧ ∀ i < j, (lane a j).toNat < (lane a i).toNat

/-- R123: 32-bit group i of the result is group c_i of the source, c_i = IMM8[2i+1:2i]. -/
def Obligations.Vsh32PermutesGroups : Prop :=
  ∀ sel : Byte, unaryRule 0x1C (fun op vd va => encRI8 op vd va sel) (fun vd va => .vsh32 vd va sel) fun a v =>
    ∀ i < 4, h v (2 * i) = h a (2 * (sel.toNat / 4 ^ i % 4)) ∧
      h v (2 * i + 1) = h a (2 * (sel.toNat / 4 ^ i % 4) + 1)

/-- R124, R125: VSH16L selects lanes 0..3 and passes 4..7; VSH16H selects lanes 4..7 and passes 0..3. -/
def Obligations.Vsh16PermutesOneHalf : Prop :=
  (∀ sel : Byte, unaryRule 0x1D (fun op vd va => encRI8 op vd va sel) (fun vd va => .vsh16l vd va sel) fun a v =>
    ∀ i < 4, h v i = h a (sel.toNat / 4 ^ i % 4) ∧ h v (4 + i) = h a (4 + i)) ∧
  (∀ sel : Byte, unaryRule 0x1E (fun op vd va => encRI8 op vd va sel) (fun vd va => .vsh16h vd va sel) fun a v =>
    ∀ i < 4, h v i = h a i ∧ h v (4 + i) = h a (4 + sel.toNat / 4 ^ i % 4))

/-! Data movement (43_host.md). -/

/-- R183: VINS replaces one lane of VD and keeps the other seven. -/
def Obligations.VinsReplacesOneLane : Prop :=
  reservedFieldRule 0x20 ∧
  ∀ (s : State) (vd : VReg) (n : Fin 8) (x : Int), fitsS16 x = true →
    encode (.vins vd n x) = encDL 0x20 vd n (u16 x) ∧
    (∀ r, s.readVR vd = .ok r →
      ∃ v t, exec (.vins vd n x) s = .next t ∧ wroteOnlyVR vd v s t ∧ h v n.val = x ∧
        ∀ i < 8, i ≠ n.val → h v i = h r i) ∧
    (s.params.uninitReg = .fault → s.marked (.vr vd) = false →
      exec (.vins vd n x) s = .fault (.uninitRead (.vr vd)))

/-- R182: LDC copies the ROM entry c to VD, or raises CONST_RANGE if c ≥ 7. -/
def Obligations.LdcLoadsARomEntry : Prop :=
  reservedFieldRule 0x21 ∧
  ∀ (s : State) (vd : VReg) (c : Nat),
    encode (.ldc vd c) = encDI 0x21 vd (BitVec.ofNat 16 c) ∧
    (∀ v, [s.params.trellis.sysPol, s.params.trellis.parPol, s.params.trellis.bwParPol, s.params.trellis.fGather0,
        s.params.trellis.fGather1, s.params.trellis.lGather0, s.params.trellis.lGather1][c]? = some v →
      ∃ t, exec (.ldc vd c) s = .next t ∧ wroteOnlyVR vd v s t) ∧
    (7 ≤ c → exec (.ldc vd c) s = .next (s.raiseError .constRange (encode (.ldc vd c))))

/-- R184, R186, R188: LDA, LDBM and LDB copy an ALPHA entry, a BM half and BETA to VD; an index outside the memory raises
STAGE_RANGE; a place nothing has written raises UNINIT_READ where the model faults there. -/
def Obligations.LoadsCopyMetricsToAVectorRegister : Prop :=
  reservedFieldRule 0x22 ∧ reservedFieldRule 0x24 ∧ reservedFieldRule 0x26 ∧
  ∀ (s : State) (vd : VReg),
    (∀ k, encode (.lda vd k) = encMD 0x22 vd (BitVec.ofNat 16 k) ∧
      (s.params.kmax < k → exec (.lda vd k) s = .next (s.raiseError .stageRange (encode (.lda vd k)))) ∧
      (k ≤ s.params.kmax →
        (∀ v, s.readAlpha k = .ok v → ∃ t, exec (.lda vd k) s = .next t ∧ wroteOnlyVR vd v s t) ∧
        (s.params.uninitMem = .fault → s.marked (.alpha k) = false →
          exec (.lda vd k) s = .fault (.uninitRead (.alpha k))))) ∧
    (∀ k half, encode (.ldbm vd k half) = encMDH 0x24 vd half (BitVec.ofNat 16 k) ∧
      (s.params.kmax ≤ k →
        exec (.ldbm vd k half) s = .next (s.raiseError .stageRange (encode (.ldbm vd k half)))) ∧
      (k < s.params.kmax →
        (∀ v, s.readBm k half = .ok v → ∃ t, exec (.ldbm vd k half) s = .next t ∧ wroteOnlyVR vd v s t) ∧
        (s.params.uninitMem = .fault → s.marked (.bm k half) = false →
          exec (.ldbm vd k half) s = .fault (.uninitRead (.bm k half))))) ∧
    encode (.ldb vd) = encD 0x26 vd ∧
    (∀ v, s.readBeta = .ok v → ∃ t, exec (.ldb vd) s = .next t ∧ wroteOnlyVR vd v s t) ∧
    (s.params.uninitReg = .fault → s.marked .beta = false → exec (.ldb vd) s = .fault (.uninitRead .beta))

/-- R185, R187, R189: STA, STBM and STB store VA in the ALPHA entry, the BM half or BETA that they name, and change nothing
else: STBM leaves the other half; an index outside the memory raises STAGE_RANGE; a VA nothing has written raises UNINIT_READ
where the model faults there. -/
def Obligations.StoresWriteOnlyTheEntryTheyName : Prop :=
  reservedFieldRule 0x23 ∧ reservedFieldRule 0x25 ∧ reservedFieldRule 0x27 ∧
  ∀ (s : State) (va : VReg),
    (∀ k, encode (.sta va k) = encMA 0x23 va (BitVec.ofNat 16 k) ∧
      (s.params.kmax < k → exec (.sta va k) s = .next (s.raiseError .stageRange (encode (.sta va k)))) ∧
      (k ≤ s.params.kmax →
        (∀ v, s.readVR va = .ok v → ∃ t, exec (.sta va k) s = .next t ∧ t.alpha.find k = some v ∧
          keepsAlpha (fun j => j = k) s t ∧ keepsBmLo noEntry s t ∧ keepsBmHi noEntry s t ∧ keepsLlr noEntry s t ∧
          keepsVRs s t ∧ t.beta = s.beta ∧ keepsControl s t ∧ keepsHost s t) ∧
        (s.params.uninitReg = .fault → s.marked (.vr va) = false →
          exec (.sta va k) s = .fault (.uninitRead (.vr va))))) ∧
    (∀ k half, encode (.stbm va k half) = encMAH 0x25 va half (BitVec.ofNat 16 k) ∧
      (s.params.kmax ≤ k →
        exec (.stbm va k half) s = .next (s.raiseError .stageRange (encode (.stbm va k half)))) ∧
      (k < s.params.kmax →
        (∀ v, s.readVR va = .ok v → ∃ t, exec (.stbm va k half) s = .next t ∧
          (half = .lo → t.bmLo.find k = some v ∧ keepsBmLo (fun j => j = k) s t ∧ keepsBmHi noEntry s t) ∧
          (half = .hi → t.bmHi.find k = some v ∧ keepsBmHi (fun j => j = k) s t ∧ keepsBmLo noEntry s t) ∧
          keepsAlpha noEntry s t ∧ keepsLlr noEntry s t ∧
          keepsVRs s t ∧ t.beta = s.beta ∧ keepsControl s t ∧ keepsHost s t) ∧
        (s.params.uninitReg = .fault → s.marked (.vr va) = false →
          exec (.stbm va k half) s = .fault (.uninitRead (.vr va))))) ∧
    encode (.stb va) = encA 0x27 va ∧
    (∀ v, s.readVR va = .ok v → ∃ t, exec (.stb va) s = .next t ∧ t.beta = ⟨v, true⟩ ∧
      keepsMetrics s t ∧ keepsVRs s t ∧ keepsControl s t ∧ keepsHost s t) ∧
    (s.params.uninitReg = .fault → s.marked (.vr va) = false → exec (.stb va) s = .fault (.uninitRead (.vr va)))

/-! The recursion (41_forward.md, 42_backward.md). -/

/-- R146: FWD at stage k = KPTR, for any TRELLIS, in terms of the primitives: what it writes to BM[k], ALPHA[k+1], RESULT and
KPTR, and that it writes nothing else; STAGE_RANGE if KPTR ≥ KMAX; UNINIT_READ of ALPHA[k]. -/
def Obligations.FwdRunsOneForwardStage : Prop :=
  reservedFieldRule 0x30 ∧
  ∀ (s : State) (x z le : Int), s.params.kmax ≤ 16383 → fitsS16 x = true → fitsS16 z = true → fitsS16 le = true →
    encode (.fwd x z le) = encF 0x30 (u16 x) (u16 z) (u16 le) ∧
    (s.params.kmax ≤ s.kptr.toNat →
      exec (.fwd x z le) s = .next (s.raiseError .stageRange (encode (.fwd x z le)))) ∧
    (s.kptr.toNat < s.params.kmax →
      (s.params.uninitMem = .fault → s.marked (.alpha s.kptr.toNat) = false →
        exec (.fwd x z le) s = .fault (.uninitRead (.alpha s.kptr.toNat))) ∧
      (∀ a sx sz sl g ng an m, s.readAlpha s.kptr.toNat = .ok a →
        sx = vsign s.params.psignMin (bcast8 x) (romEntry s.params.trellis 0) →
        sz = vsign s.params.psignMin (bcast8 z) (romEntry s.params.trellis 1) →
        sl = vsign s.params.psignMin (bcast8 le) (romEntry s.params.trellis 0) →
        (s.params.bmShift = .leOnly → g = vadds (vadds sx sz) (vsra sl 1)) →
        (s.params.bmShift = .wholeSum → g = vsra (vadds (vadds sx sz) sl) 1) →
        ng = vsubs 0 g →
        an = vmax (vadds (vbshuf a (romEntry s.params.trellis 3)) g)
          (vadds (vbshuf a (romEntry s.params.trellis 4)) ng) →
        isGreatest (h an) m →
        ∃ t, exec (.fwd x z le) s = .next t ∧
          t.bmLo.find s.kptr.toNat = some (vilo g ng) ∧ t.bmHi.find s.kptr.toNat = some (vihi g ng) ∧
          t.alpha.find (s.kptr.toNat + 1) = some (vsubs an (bcast8 m)) ∧
          t.result = u16 m ∧ t.kptr.toNat = s.kptr.toNat + 1 ∧
          keepsBmLo (fun j => j = s.kptr.toNat) s t ∧ keepsBmHi (fun j => j = s.kptr.toNat) s t ∧
          keepsAlpha (fun j => j = s.kptr.toNat + 1) s t ∧ keepsLlr noEntry s t ∧
          keepsVRs s t ∧ t.beta = s.beta ∧ t.status = s.status ∧ t.errcmd = s.errcmd ∧ keepsHost s t))

/-- R166: BWD at stage k = KPTR - 1, for any TRELLIS, in terms of the primitives: what it writes to BETA, LLR[k], RESULT and
KPTR, all from the BETA before it, and that it writes nothing else; STAGE_RANGE if KPTR = 0; UNINIT_READ of what it reads. -/
def Obligations.BwdRunsOneBackwardStage : Prop :=
  reservedFieldRule 0x31 ∧
  ∀ (s : State) (z norm : Int), s.kptr.toNat ≤ s.params.kmax → fitsS16 z = true → fitsS16 norm = true →
    encode (.bwd z norm) = encB 0x31 (u16 z) (u16 norm) ∧
    (s.kptr.toNat = 0 → exec (.bwd z norm) s = .next (s.raiseError .stageRange (encode (.bwd z norm)))) ∧
    (∀ k, s.kptr.toNat = k + 1 →
      (s.faultsOnUninit → (∃ p ∈ [.bm k .lo, .bm k .hi, .alpha k, .beta], s.marked p = false) →
        ∃ p ∈ [.bm k .lo, .bm k .hi, .alpha k, .beta], s.marked p = false ∧
          exec (.bwd z norm) s = .fault (.uninitRead p)) ∧
      (∀ blo bhi a b pz npz bn m1 m0 h1 h0, s.readBm k .lo = .ok blo → s.readBm k .hi = .ok bhi →
        s.readAlpha k = .ok a → s.readBeta = .ok b →
        pz = vsign s.params.psignMin (bcast8 z) (romEntry s.params.trellis 2) → npz = vsubs 0 pz →
        bn = vmax (vadds blo (vilo b b)) (vadds bhi (vihi b b)) →
        m1 = vadds (vadds a pz) (vbshuf b (romEntry s.params.trellis 6)) →
        m0 = vadds (vadds a npz) (vbshuf b (romEntry s.params.trellis 5)) →
        isGreatest (h m1) h1 → isGreatest (h m0) h0 →
        ∃ t, exec (.bwd z norm) s = .next t ∧ t.beta = ⟨vsubs bn (bcast8 norm), true⟩ ∧
          t.llr.find k = some (u16 (sat16 (h1 - h0))) ∧ t.result = u16 (sat16 (h1 - h0)) ∧ t.kptr.toNat = k ∧
          keepsLlr (fun j => j = k) s t ∧ keepsAlpha noEntry s t ∧ keepsBmLo noEntry s t ∧ keepsBmHi noEntry s t ∧
          keepsVRs s t ∧ t.status = s.status ∧ t.errcmd = s.errcmd ∧ keepsHost s t))

/-- R142 to R145, R147: with the default ROM, FWD is the max-log forward update of the trellis of 10_state.md R33, lane by lane:
the branch metrics of every edge, the add-compare-select into every state, and the normalisation by the raw maximum. -/
def Obligations.FwdIsTheTrellisForwardUpdate : Prop :=
  ∀ (s : State) (x z le : Int) (a : Vec), paramsLegal s.params = true → s.params.trellis = lteTrellis →
    fitsS16 x = true → fitsS16 z = true → fitsS16 le = true →
    s.kptr.toNat < s.params.kmax → s.readAlpha s.kptr.toNat = .ok a →
    ∃ t lo hi next m, exec (.fwd x z le) s = .next t ∧
      t.bmLo.find s.kptr.toNat = some lo ∧ t.bmHi.find s.kptr.toNat = some hi ∧
      t.alpha.find (s.kptr.toNat + 1) = some next ∧ t.result = u16 m ∧
      (∀ i < 8, h lo i = if i % 2 = 0 then upperMetric s.params x z le (i / 2)
        else sat16 (-(upperMetric s.params x z le (i / 2)))) ∧
      (∀ i < 8, h hi i = if i % 2 = 0 then upperMetric s.params x z le (i / 2 + 4)
        else sat16 (-(upperMetric s.params x z le (i / 2 + 4)))) ∧
      isGreatest (bestInto s.params x z le a) m ∧
      ∀ i < 8, h next i = sat16 (bestInto s.params x z le a i - m)

/-- R161 to R164: with the default ROM, BWD is the max-log backward update and LLR of the trellis of 10_state.md R33: each
state's best outgoing edge, and the best path through a bit = 1 edge less the best through a bit = 0 edge. -/
def Obligations.BwdIsTheTrellisBackwardUpdate : Prop :=
  ∀ (s : State) (z norm : Int) (k : Nat) (blo bhi a b : Vec), s.params.trellis = lteTrellis →
    fitsS16 z = true → fitsS16 norm = true → s.kptr.toNat = k + 1 → s.kptr.toNat ≤ s.params.kmax →
    s.readBm k .lo = .ok blo → s.readBm k .hi = .ok bhi → s.readAlpha k = .ok a → s.readBeta = .ok b →
    ∃ t v h1 h0, exec (.bwd z norm) s = .next t ∧ t.beta = ⟨v, true⟩ ∧
      (∀ i < 8, h v i = sat16 (max (sat16 (h blo i + h b (i / 2))) (sat16 (h bhi i + h b (i / 2 + 4))) - norm)) ∧
      isGreatest (fun i => sat16 (sat16 (h a i + signedBy s.params.psignMin z (parityBit i true)) +
        h b (nextState i true))) h1 ∧
      isGreatest (fun i => sat16 (sat16 (h a i + sat16 (-(signedBy s.params.psignMin z (parityBit i true)))) +
        h b (nextState i false))) h0 ∧
      t.llr.find k = some (u16 (sat16 (h1 - h0))) ∧ t.result = u16 (sat16 (h1 - h0))

/-- R141: HMAX is the pair of the signed maximum and the least lane that has it, and no other pair, on every input. -/
def Obligations.HorizontalMaximumIsExact : Prop :=
  ∀ (v : Vec) (m : Int) (j : Nat), hmax v = (m, j) ↔
    j < 8 ∧ h v j = m ∧ (∀ i < 8, h v i ≤ m) ∧ ∀ i < j, h v i < m

/-- R147, R148 (d): every lane of the ALPHA entry that FWD writes is in [-32768, 0], and one is 0; for any TRELLIS. -/
def Obligations.FwdLeavesItsLargestLaneZero : Prop :=
  ∀ (s t : State) (x z le : Int), s.kptr.toNat < s.params.kmax → exec (.fwd x z le) s = .next t →
    ∃ v, t.alpha.find (s.kptr.toNat + 1) = some v ∧ (∀ i < 8, -32768 ≤ h v i ∧ h v i ≤ 0) ∧ ∃ i < 8, h v i = 0

/-- R143, R148 (a), (c): in the BM entry that FWD writes, entry 2j+1 is the negation of entry 2j, but for -32768, whose partner
is 32767; and the entry does not depend on ALPHA or KPTR. -/
def Obligations.BranchMetricsAreAntisymmetric : Prop :=
  ∀ (s t : State) (x z le : Int), s.kptr.toNat < s.params.kmax → exec (.fwd x z le) s = .next t →
    ∃ lo hi, t.bmLo.find s.kptr.toNat = some lo ∧ t.bmHi.find s.kptr.toNat = some hi ∧
      (∀ v, v = lo ∨ v = hi → ∀ j < 4,
        (h v (2 * j) ≠ -32768 → h v (2 * j + 1) = -(h v (2 * j))) ∧
        (h v (2 * j) = -32768 → h v (2 * j + 1) = 32767)) ∧
      ∀ (s' t' : State), s'.params = s.params → s'.kptr.toNat < s'.params.kmax → exec (.fwd x z le) s' = .next t' →
        t'.bmLo.find s'.kptr.toNat = some lo ∧ t'.bmHi.find s'.kptr.toNat = some hi

/-- R148 (b), with the default ROM: taking C from every lane of ALPHA[k] leaves ALPHA[k+1] and BM[k] as they were and takes C
from the raw maximum in RESULT, where no VADDS of R144 saturates. -/
def Obligations.NormalisationRemovesAConstant : Prop :=
  ∀ (s : State) (x z le c : Int) (a a2 : Vec), paramsLegal s.params = true → s.params.trellis = lteTrellis →
    fitsS16 x = true → fitsS16 z = true → fitsS16 le = true →
    s.kptr.toNat < s.params.kmax → s.readAlpha s.kptr.toNat = .ok a → (∀ i < 8, h a2 i = h a i - c) →
    (∀ i < 8, fitsS16 (h a (evenPred i) + upperMetric s.params x z le i) = true ∧
      fitsS16 (h a (oddPred i) + sat16 (-(upperMetric s.params x z le i))) = true ∧
      fitsS16 (h a2 (evenPred i) + upperMetric s.params x z le i) = true ∧
      fitsS16 (h a2 (oddPred i) + sat16 (-(upperMetric s.params x z le i))) = true) →
    ∃ t t2, exec (.fwd x z le) s = .next t ∧ exec (.fwd x z le) (s.writeAlpha s.kptr.toNat a2) = .next t2 ∧
      t2.alpha.find (s.kptr.toNat + 1) = t.alpha.find (s.kptr.toNat + 1) ∧
      t2.bmLo.find s.kptr.toNat = t.bmLo.find s.kptr.toNat ∧ t2.bmHi.find s.kptr.toNat = t.bmHi.find s.kptr.toNat ∧
      s16 t2.result = s16 t.result - c

/-- 42_backward.md R167, with the default ROM: adding Ca to every lane of ALPHA[k] and Cb to every lane of BETA does not change
the LLR that BWD emits, where no VADDS of R164 saturates. -/
def Obligations.LlrIgnoresConstantShifts : Prop :=
  ∀ (s : State) (z norm ca cb : Int) (k : Nat) (blo bhi a a2 b b2 : Vec), s.params.trellis = lteTrellis →
    fitsS16 z = true → fitsS16 norm = true → s.kptr.toNat = k + 1 → s.kptr.toNat ≤ s.params.kmax →
    s.readBm k .lo = .ok blo → s.readBm k .hi = .ok bhi → s.readAlpha k = .ok a → s.readBeta = .ok b →
    (∀ i < 8, h a2 i = h a i + ca ∧ h b2 i = h b i + cb) →
    (∀ i < 8, ∀ pz, pz = signedBy s.params.psignMin z (parityBit i true) →
      fitsS16 (h a i + pz) = true ∧ fitsS16 (h a i + pz + h b (nextState i true)) = true ∧
      fitsS16 (h a2 i + pz) = true ∧ fitsS16 (h a2 i + pz + h b2 (nextState i true)) = true ∧
      fitsS16 (h a i + sat16 (-pz)) = true ∧ fitsS16 (h a i + sat16 (-pz) + h b (nextState i false)) = true ∧
      fitsS16 (h a2 i + sat16 (-pz)) = true ∧ fitsS16 (h a2 i + sat16 (-pz) + h b2 (nextState i false)) = true) →
    ∃ t t2, exec (.bwd z norm) s = .next t ∧
      exec (.bwd z norm) ((s.writeAlpha k a2).writeBeta b2) = .next t2 ∧
      t2.llr.find k = t.llr.find k ∧ t2.result = t.result

/-- 40_vector.md R126: for lanes in [-32767, 0], VHMIN of the negated vector gives the maximum, negated, and the lowest lane
that holds it. -/
def Obligations.NegatedMinimumIsTheMaximum : Prop :=
  ∀ a : Vec, (∀ i < 8, -32767 ≤ h a i ∧ h a i ≤ 0) →
    -(h (vhmin (vsubs 0 a)) 0) = (hmax a).1 ∧ h (vhmin (vsubs 0 a)) 1 = (hmax a).2

/-- 41_forward.md R149: the two readings of ">>1" give the same branch metrics when x = z = 0, for any TRELLIS, and they are
R142's halved a priori term. -/
def Obligations.ShiftReadingsAgreeWithoutChannel : Prop :=
  ∀ (p : Params) (le : Int), fitsS16 le = true →
    plusMetric { p with bmShift := .leOnly } 0 0 le = plusMetric { p with bmShift := .wholeSum } 0 0 le ∧
    plusMetric p 0 0 le = vsra (vsign p.psignMin (bcast8 le) p.trellis.sysPol) 1

/-- 41_forward.md R150, with the default ROM, BM_SHIFT = LE_ONLY and samples too small to saturate: the metric of an upper edge
with input u and parity p is x(2u-1) + z(2p-1) + asr(le(2u-1), 1); with le even the same holds of the lower edges, whose
stored metric is the negation (log 23). -/
def Obligations.EdgeMetricsAreTheBcjrTerms : Prop :=
  ∀ (s t : State) (x z le : Int) (lo hi : Vec), s.params.trellis = lteTrellis → s.params.bmShift = .leOnly →
    -8000 ≤ x → x ≤ 8000 → -8000 ≤ z → z ≤ 8000 → -8000 ≤ le → le ≤ 8000 →
    s.kptr.toNat < s.params.kmax → exec (.fwd x z le) s = .next t →
    t.bmLo.find s.kptr.toNat = some lo → t.bmHi.find s.kptr.toNat = some hi →
    ∀ (i : Nat) (u : Bool), i < 8 → (i % 2 = 0 ∨ le % 2 = 0) →
      h (if nextState i u < 4 then lo else hi) i =
        x * polarity u + z * polarity (parityBit i u) + asr (le * polarity u) 1

/-! The trellis and its ROM (10_state.md). -/

/-- R34: each entry of the default ROM holds what its row says: the polarities of the edges, and gather tables that move whole
lanes to each state from its two predecessors and from its two successors. -/
def Obligations.DefaultRomEncodesTheTrellis : Prop :=
  ∀ i < 8,
    (∀ u, nextState (evenPred i) u = i →
      h (romEntry lteTrellis 0) i = polarity u ∧ h (romEntry lteTrellis 1) i = polarity (parityBit (evenPred i) u)) ∧
    h (romEntry lteTrellis 2) i = polarity (parityBit i true) ∧
    ∀ v : Vec,
      lane (vbshuf v (romEntry lteTrellis 3)) i = lane v (evenPred i) ∧
      lane (vbshuf v (romEntry lteTrellis 4)) i = lane v (oddPred i) ∧
      lane (vbshuf v (romEntry lteTrellis 5)) i = lane v (nextState i false) ∧
      lane (vbshuf v (romEntry lteTrellis 6)) i = lane v (nextState i true)

/-- R33 and R35: the edge table of the trellis, and properties (a) to (e) of the default ROM. -/
def Obligations.TrellisTableAndRomProperties : Prop :=
  ((List.range 8).map fun s => (nextState s false, parityBit s false, nextState s true, parityBit s true)) =
      [(0, false, 4, true), (4, false, 0, true), (5, true, 1, false), (1, true, 5, false),
       (2, true, 6, false), (6, true, 2, false), (7, false, 3, true), (3, false, 7, true)] ∧
  (∀ i < 4, h lteTrellis.sysPol (i + 4) = -(h lteTrellis.sysPol i) ∧
    h lteTrellis.parPol (i + 4) = -(h lteTrellis.parPol i)) ∧
  (∀ i < 8, h lteTrellis.bwParPol i = -(h lteTrellis.parPol i) ∧
    polarity (parityBit i false) = -(h lteTrellis.bwParPol i)) ∧
  (∀ s < 8, ∀ u, u = decide (h lteTrellis.sysPol s > 0) →
    nextState (evenPred s) u = s ∧ nextState (oddPred s) (!u) = s ∧
      parityBit (oddPred s) (!u) = !(parityBit (evenPred s) u)) ∧
  (∀ g ∈ [lteTrellis.fGather0, lteTrellis.fGather1, lteTrellis.lGather0, lteTrellis.lGather1], ∀ j < 16,
    (byteOf g j).toNat < 16)

/-! Pseudo-instructions (30_encoding.md). -/

/-- R91: the expansion of each pseudo-instruction, and what it does: VMOV copies; VNEG writes the saturated negation of every
lane, using VRt; VSET writes each lane its value; KRESET sets KPTR to 0; VLDROM loads the ROM entry it names. -/
def Obligations.PseudoInstructionsDoWhatTheySay : Prop :=
  (∀ vd va, (Pseudo.vmov vd va).expand = [.vmax vd va va]) ∧
  (∀ vd va vt, (Pseudo.vneg vd va vt).expand = [.vzero vt, .vsubs vd vt va]) ∧
  (∀ (vd : VReg) (l : Vector Int 8), (Pseudo.vset vd l).expand =
    .vbcast vd l[0] :: [1, 2, 3, 4, 5, 6, 7].map fun i : Fin 8 => .vins vd i l[i]) ∧
  Pseudo.kreset.expand = [.setk 0] ∧ (∀ vd c, (Pseudo.vldrom vd c).expand = [.ldc vd c.val]) ∧
  ∀ s : State, s.halted = false →
    (∀ vd va a, s.readVR va = .ok a →
      ∃ t, execAll (Pseudo.vmov vd va).expand s = .next t ∧ wroteOnlyVR vd a s t) ∧
    (∀ vd va vt a, (Pseudo.vneg vd va vt).wf = true → s.readVR va = .ok a →
      ∃ v t, execAll (Pseudo.vneg vd va vt).expand s = .next t ∧ t.vr[vd] = ⟨v, true⟩ ∧
        (∀ i < 8, h v i = sat16 (0 - h a i)) ∧ ∀ r : VReg, r ≠ vd → r ≠ vt → t.vr[r] = s.vr[r]) ∧
    (∀ (vd : VReg) (l : Vector Int 8), (Pseudo.vset vd l).wf = true →
      ∃ v t, execAll (Pseudo.vset vd l).expand s = .next t ∧ wroteOnlyVR vd v s t ∧
        ∀ i : Fin 8, h v i.val = l[i]) ∧
    execAll Pseudo.kreset.expand s = .next { s with kptr := 0 } ∧
    ∀ vd c, ∃ t, execAll (Pseudo.vldrom vd c).expand s = .next t ∧ wroteOnlyVR vd (romEntry s.params.trellis c.val) s t
end

