-- ==== Sys2Proof/Laws/Codec.lean ====
section
/-! SUPPORT. The opcode, the reserved bits and the fields of every format (30_encoding.md R82): one lemma for each. -/

namespace Sys2Proof

/-! Reading a field out of a chain of fields. -/

theorem skip_low {v w start len : Nat} {a : BitVec v} {b : BitVec w} (hw : w ≤ start) :
    BitVec.extractLsb' start len (a ++ b) = BitVec.extractLsb' (start - w) len a :=
  BitVec.extractLsb'_append_eq_of_le hw

theorem take_low {v w : Nat} {a : BitVec v} {b : BitVec w} : BitVec.extractLsb' 0 w (a ++ b) = b :=
  BitVec.extractLsb'_append_eq_right

theorem take_high {v w : Nat} {a : BitVec v} {b : BitVec w} : BitVec.extractLsb' w v (a ++ b) = a :=
  BitVec.extractLsb'_append_eq_left

/-! The opcode and the reserved bits of every format. -/

theorem opField_encN (op : Byte) : opField (encN op) = op := by
  show BitVec.extractLsb' 56 8 (op ++ 0#56) = op
  rw [take_high]

theorem mask_encN (op : Byte) :
    encN op &&& 0xFFFFFFFFFFFFFFFF = (op ++ 0#56 : CmdWord) := by
  show op ++ 0#56 &&& (0xFF#8 ++ 0xffffffffffffff#56) = _
  rw [BitVec.and_append, show op &&& 0xFF#8 = op from BitVec.and_allOnes]
  simp only [BitVec.zero_and]

theorem opField_encK (op : Byte) (imm : Half16) : opField (encK op imm) = op := by
  show BitVec.extractLsb' 56 8 (op ++ 0#40 ++ imm) = op
  rw [skip_low (by decide), take_high]

theorem mask_encK (op : Byte) (imm : Half16) :
    encK op imm &&& 0xFFFFFFFFFFFF0000 = (op ++ 0#40 ++ 0#16 : CmdWord) := by
  show op ++ 0#40 ++ imm &&& (0xFF#8 ++ 0xffffffffff#40 ++ 0#16) = _
  rw [BitVec.and_append, BitVec.and_append, show op &&& 0xFF#8 = op from BitVec.and_allOnes]
  simp only [BitVec.and_zero, BitVec.zero_and]

theorem opField_encD (op : Byte) (vd : VReg) : opField (encD op vd) = op := by
  show BitVec.extractLsb' 56 8 (op ++ regBits vd ++ 0#52) = op
  rw [skip_low (by decide), take_high]

theorem mask_encD (op : Byte) (vd : VReg) :
    encD op vd &&& 0xFF0FFFFFFFFFFFFF = (op ++ 0#4 ++ 0#52 : CmdWord) := by
  show op ++ regBits vd ++ 0#52 &&& (0xFF#8 ++ 0#4 ++ 0xfffffffffffff#52) = _
  rw [BitVec.and_append, BitVec.and_append, show op &&& 0xFF#8 = op from BitVec.and_allOnes]
  simp only [BitVec.and_zero, BitVec.zero_and]

theorem opField_encA (op : Byte) (va : VReg) : opField (encA op va) = op := by
  show BitVec.extractLsb' 56 8 (op ++ 0#4 ++ regBits va ++ 0#48) = op
  rw [skip_low (by decide), skip_low (by decide), take_high]

theorem mask_encA (op : Byte) (va : VReg) :
    encA op va &&& 0xFFF0FFFFFFFFFFFF = (op ++ 0#4 ++ 0#4 ++ 0#48 : CmdWord) := by
  show op ++ 0#4 ++ regBits va ++ 0#48 &&& (0xFF#8 ++ 0xf#4 ++ 0#4 ++ 0xffffffffffff#48) = _
  rw [BitVec.and_append, BitVec.and_append, BitVec.and_append, show op &&& 0xFF#8 = op from BitVec.and_allOnes]
  simp only [BitVec.and_zero, BitVec.zero_and]

theorem opField_encRR (op : Byte) (vd va : VReg) : opField (encRR op vd va) = op := by
  show BitVec.extractLsb' 56 8 (op ++ regBits vd ++ regBits va ++ 0#48) = op
  rw [skip_low (by decide), skip_low (by decide), take_high]

theorem mask_encRR (op : Byte) (vd va : VReg) :
    encRR op vd va &&& 0xFF00FFFFFFFFFFFF = (op ++ 0#4 ++ 0#4 ++ 0#48 : CmdWord) := by
  show op ++ regBits vd ++ regBits va ++ 0#48 &&& (0xFF#8 ++ 0#4 ++ 0#4 ++ 0xffffffffffff#48) = _
  rw [BitVec.and_append, BitVec.and_append, BitVec.and_append, show op &&& 0xFF#8 = op from BitVec.and_allOnes]
  simp only [BitVec.and_zero, BitVec.zero_and]

theorem opField_encRRR (op : Byte) (vd va vb : VReg) : opField (encRRR op vd va vb) = op := by
  show BitVec.extractLsb' 56 8 (op ++ regBits vd ++ regBits va ++ regBits vb ++ 0#44) = op
  rw [skip_low (by decide), skip_low (by decide), skip_low (by decide), take_high]

theorem mask_encRRR (op : Byte) (vd va vb : VReg) :
    encRRR op vd va vb &&& 0xFF000FFFFFFFFFFF = (op ++ 0#4 ++ 0#4 ++ 0#4 ++ 0#44 : CmdWord) := by
  show op ++ regBits vd ++ regBits va ++ regBits vb ++ 0#44 &&& (0xFF#8 ++ 0#4 ++ 0#4 ++ 0#4 ++ 0xfffffffffff#44) = _
  rw [BitVec.and_append, BitVec.and_append, BitVec.and_append, BitVec.and_append, show op &&& 0xFF#8 = op from BitVec.and_allOnes]
  simp only [BitVec.and_zero, BitVec.zero_and]

theorem opField_encDI (op : Byte) (vd : VReg) (imm : Half16) : opField (encDI op vd imm) = op := by
  show BitVec.extractLsb' 56 8 (op ++ regBits vd ++ 0#36 ++ imm) = op
  rw [skip_low (by decide), skip_low (by decide), take_high]

theorem mask_encDI (op : Byte) (vd : VReg) (imm : Half16) :
    encDI op vd imm &&& 0xFF0FFFFFFFFF0000 = (op ++ 0#4 ++ 0#36 ++ 0#16 : CmdWord) := by
  show op ++ regBits vd ++ 0#36 ++ imm &&& (0xFF#8 ++ 0#4 ++ 0xfffffffff#36 ++ 0#16) = _
  rw [BitVec.and_append, BitVec.and_append, BitVec.and_append, show op &&& 0xFF#8 = op from BitVec.and_allOnes]
  simp only [BitVec.and_zero, BitVec.zero_and]

theorem opField_encRI16 (op : Byte) (vd va : VReg) (imm : Half16) : opField (encRI16 op vd va imm) = op := by
  show BitVec.extractLsb' 56 8 (op ++ regBits vd ++ regBits va ++ 0#32 ++ imm) = op
  rw [skip_low (by decide), skip_low (by decide), skip_low (by decide), take_high]

theorem mask_encRI16 (op : Byte) (vd va : VReg) (imm : Half16) :
    encRI16 op vd va imm &&& 0xFF00FFFFFFFF0000 = (op ++ 0#4 ++ 0#4 ++ 0#32 ++ 0#16 : CmdWord) := by
  show op ++ regBits vd ++ regBits va ++ 0#32 ++ imm &&& (0xFF#8 ++ 0#4 ++ 0#4 ++ 0xffffffff#32 ++ 0#16) = _
  rw [BitVec.and_append, BitVec.and_append, BitVec.and_append, BitVec.and_append, show op &&& 0xFF#8 = op from BitVec.and_allOnes]
  simp only [BitVec.and_zero, BitVec.zero_and]

theorem opField_encRI8 (op : Byte) (vd va : VReg) (imm : Byte) : opField (encRI8 op vd va imm) = op := by
  show BitVec.extractLsb' 56 8 (op ++ regBits vd ++ regBits va ++ 0#40 ++ imm) = op
  rw [skip_low (by decide), skip_low (by decide), skip_low (by decide), take_high]

theorem mask_encRI8 (op : Byte) (vd va : VReg) (imm : Byte) :
    encRI8 op vd va imm &&& 0xFF00FFFFFFFFFF00 = (op ++ 0#4 ++ 0#4 ++ 0#40 ++ 0#8 : CmdWord) := by
  show op ++ regBits vd ++ regBits va ++ 0#40 ++ imm &&& (0xFF#8 ++ 0#4 ++ 0#4 ++ 0xffffffffff#40 ++ 0#8) = _
  rw [BitVec.and_append, BitVec.and_append, BitVec.and_append, BitVec.and_append, show op &&& 0xFF#8 = op from BitVec.and_allOnes]
  simp only [BitVec.and_zero, BitVec.zero_and]

theorem opField_encDL (op : Byte) (vd : VReg) (lane : Fin 8) (imm : Half16) : opField (encDL op vd lane imm) = op := by
  show BitVec.extractLsb' 56 8 (op ++ regBits vd ++ 0#33 ++ BitVec.ofNat 3 lane.val ++ imm) = op
  rw [skip_low (by decide), skip_low (by decide), skip_low (by decide), take_high]

theorem mask_encDL (op : Byte) (vd : VReg) (lane : Fin 8) (imm : Half16) :
    encDL op vd lane imm &&& 0xFF0FFFFFFFF80000 = (op ++ 0#4 ++ 0#33 ++ 0#3 ++ 0#16 : CmdWord) := by
  show op ++ regBits vd ++ 0#33 ++ BitVec.ofNat 3 lane.val ++ imm &&& (0xFF#8 ++ 0#4 ++ 0x1ffffffff#33 ++ 0#3 ++ 0#16) = _
  rw [BitVec.and_append, BitVec.and_append, BitVec.and_append, BitVec.and_append, show op &&& 0xFF#8 = op from BitVec.and_allOnes]
  simp only [BitVec.and_zero, BitVec.zero_and]

theorem opField_encMD (op : Byte) (vd : VReg) (idx : Half16) : opField (encMD op vd idx) = op := by
  show BitVec.extractLsb' 56 8 (op ++ regBits vd ++ 0#20 ++ idx ++ 0#16) = op
  rw [skip_low (by decide), skip_low (by decide), skip_low (by decide), take_high]

theorem mask_encMD (op : Byte) (vd : VReg) (idx : Half16) :
    encMD op vd idx &&& 0xFF0FFFFF0000FFFF = (op ++ 0#4 ++ 0#20 ++ 0#16 ++ 0#16 : CmdWord) := by
  show op ++ regBits vd ++ 0#20 ++ idx ++ 0#16 &&& (0xFF#8 ++ 0#4 ++ 0xfffff#20 ++ 0#16 ++ 0xffff#16) = _
  rw [BitVec.and_append, BitVec.and_append, BitVec.and_append, BitVec.and_append, show op &&& 0xFF#8 = op from BitVec.and_allOnes]
  simp only [BitVec.and_zero, BitVec.zero_and]

theorem opField_encMDH (op : Byte) (vd : VReg) (half : BmHalf) (idx : Half16) : opField (encMDH op vd half idx) = op := by
  show BitVec.extractLsb' 56 8 (op ++ regBits vd ++ 0#19 ++ hBits half ++ idx ++ 0#16) = op
  rw [skip_low (by decide), skip_low (by decide), skip_low (by decide), skip_low (by decide), take_high]

theorem mask_encMDH (op : Byte) (vd : VReg) (half : BmHalf) (idx : Half16) :
    encMDH op vd half idx &&& 0xFF0FFFFE0000FFFF = (op ++ 0#4 ++ 0#19 ++ 0#1 ++ 0#16 ++ 0#16 : CmdWord) := by
  show op ++ regBits vd ++ 0#19 ++ hBits half ++ idx ++ 0#16 &&& (0xFF#8 ++ 0#4 ++ 0x7ffff#19 ++ 0#1 ++ 0#16 ++ 0xffff#16) = _
  rw [BitVec.and_append, BitVec.and_append, BitVec.and_append, BitVec.and_append, BitVec.and_append, show op &&& 0xFF#8 = op from BitVec.and_allOnes]
  simp only [BitVec.and_zero, BitVec.zero_and]

theorem opField_encMA (op : Byte) (va : VReg) (idx : Half16) : opField (encMA op va idx) = op := by
  show BitVec.extractLsb' 56 8 (op ++ 0#4 ++ regBits va ++ 0#16 ++ idx ++ 0#16) = op
  rw [skip_low (by decide), skip_low (by decide), skip_low (by decide), skip_low (by decide), take_high]

theorem mask_encMA (op : Byte) (va : VReg) (idx : Half16) :
    encMA op va idx &&& 0xFFF0FFFF0000FFFF = (op ++ 0#4 ++ 0#4 ++ 0#16 ++ 0#16 ++ 0#16 : CmdWord) := by
  show op ++ 0#4 ++ regBits va ++ 0#16 ++ idx ++ 0#16 &&& (0xFF#8 ++ 0xf#4 ++ 0#4 ++ 0xffff#16 ++ 0#16 ++ 0xffff#16) = _
  rw [BitVec.and_append, BitVec.and_append, BitVec.and_append, BitVec.and_append, BitVec.and_append, show op &&& 0xFF#8 = op from BitVec.and_allOnes]
  simp only [BitVec.and_zero, BitVec.zero_and]

theorem opField_encMAH (op : Byte) (va : VReg) (half : BmHalf) (idx : Half16) : opField (encMAH op va half idx) = op := by
  show BitVec.extractLsb' 56 8 (op ++ 0#4 ++ regBits va ++ 0#15 ++ hBits half ++ idx ++ 0#16) = op
  rw [skip_low (by decide), skip_low (by decide), skip_low (by decide), skip_low (by decide), skip_low (by decide), take_high]

theorem mask_encMAH (op : Byte) (va : VReg) (half : BmHalf) (idx : Half16) :
    encMAH op va half idx &&& 0xFFF0FFFE0000FFFF = (op ++ 0#4 ++ 0#4 ++ 0#15 ++ 0#1 ++ 0#16 ++ 0#16 : CmdWord) := by
  show op ++ 0#4 ++ regBits va ++ 0#15 ++ hBits half ++ idx ++ 0#16 &&& (0xFF#8 ++ 0xf#4 ++ 0#4 ++ 0x7fff#15 ++ 0#1 ++ 0#16 ++ 0xffff#16) = _
  rw [BitVec.and_append, BitVec.and_append, BitVec.and_append, BitVec.and_append, BitVec.and_append, BitVec.and_append, show op &&& 0xFF#8 = op from BitVec.and_allOnes]
  simp only [BitVec.and_zero, BitVec.zero_and]

theorem opField_encF (op : Byte) (x z le : Half16) : opField (encF op x z le) = op := by
  show BitVec.extractLsb' 56 8 (op ++ 0#8 ++ x ++ z ++ le) = op
  rw [skip_low (by decide), skip_low (by decide), skip_low (by decide), take_high]

theorem mask_encF (op : Byte) (x z le : Half16) :
    encF op x z le &&& 0xFFFF000000000000 = (op ++ 0#8 ++ 0#16 ++ 0#16 ++ 0#16 : CmdWord) := by
  show op ++ 0#8 ++ x ++ z ++ le &&& (0xFF#8 ++ 0xff#8 ++ 0#16 ++ 0#16 ++ 0#16) = _
  rw [BitVec.and_append, BitVec.and_append, BitVec.and_append, BitVec.and_append, show op &&& 0xFF#8 = op from BitVec.and_allOnes]
  simp only [BitVec.and_zero, BitVec.zero_and]

theorem opField_encB (op : Byte) (z norm : Half16) : opField (encB op z norm) = op := by
  show BitVec.extractLsb' 56 8 (op ++ 0#24 ++ z ++ norm) = op
  rw [skip_low (by decide), skip_low (by decide), take_high]

theorem mask_encB (op : Byte) (z norm : Half16) :
    encB op z norm &&& 0xFFFFFFFF00000000 = (op ++ 0#24 ++ 0#16 ++ 0#16 : CmdWord) := by
  show op ++ 0#24 ++ z ++ norm &&& (0xFF#8 ++ 0xffffff#24 ++ 0#16 ++ 0#16) = _
  rw [BitVec.and_append, BitVec.and_append, BitVec.and_append, show op &&& 0xFF#8 = op from BitVec.and_allOnes]
  simp only [BitVec.and_zero, BitVec.zero_and]

/-! The fields of every format, read back. -/

theorem regBits_toFin (r : VReg) : (regBits r).toFin = r := by
  simp [regBits]

theorem laneBits_toFin (lane : Fin 8) : (BitVec.ofNat 3 lane.val).toFin = lane := by
  simp

theorem sBits_toInt {v : Int} (hv : fitsS16 v = true) : (sBits v).toInt = v := by
  simp only [fitsS16, Bool.and_eq_true, decide_eq_true_eq] at hv
  unfold sBits
  rw [BitVec.toInt_ofInt]
  exact Int.bmod_eq_of_le (by omega) (by omega)

theorem uBits_toNat {n : Nat} (hn : fitsU16 n = true) : (uBits n).toNat = n := by
  simp only [fitsU16, decide_eq_true_eq] at hn
  simp only [uBits, BitVec.toNat_ofNat]
  omega

theorem imm16Field_encK (op : Byte) (imm : Half16) : imm16Field (encK op imm) = imm := by
  show BitVec.extractLsb' 0 16 (op ++ 0#40 ++ imm) = _
  rw [take_low]

theorem vdField_encD (op : Byte) (vd : VReg) : vdField (encD op vd) = vd := by
  show (BitVec.extractLsb' 52 4 (op ++ regBits vd ++ 0#52)).toFin = _
  rw [skip_low (by decide), take_low, regBits_toFin]

theorem vaField_encA (op : Byte) (va : VReg) : vaField (encA op va) = va := by
  show (BitVec.extractLsb' 48 4 (op ++ 0#4 ++ regBits va ++ 0#48)).toFin = _
  rw [skip_low (by decide), take_low, regBits_toFin]

theorem vdField_encRR (op : Byte) (vd va : VReg) : vdField (encRR op vd va) = vd := by
  show (BitVec.extractLsb' 52 4 (op ++ regBits vd ++ regBits va ++ 0#48)).toFin = _
  rw [skip_low (by decide), skip_low (by decide), take_low, regBits_toFin]

theorem vaField_encRR (op : Byte) (vd va : VReg) : vaField (encRR op vd va) = va := by
  show (BitVec.extractLsb' 48 4 (op ++ regBits vd ++ regBits va ++ 0#48)).toFin = _
  rw [skip_low (by decide), take_low, regBits_toFin]

theorem vdField_encRRR (op : Byte) (vd va vb : VReg) : vdField (encRRR op vd va vb) = vd := by
  show (BitVec.extractLsb' 52 4 (op ++ regBits vd ++ regBits va ++ regBits vb ++ 0#44)).toFin = _
  rw [skip_low (by decide), skip_low (by decide), skip_low (by decide), take_low, regBits_toFin]

theorem vaField_encRRR (op : Byte) (vd va vb : VReg) : vaField (encRRR op vd va vb) = va := by
  show (BitVec.extractLsb' 48 4 (op ++ regBits vd ++ regBits va ++ regBits vb ++ 0#44)).toFin = _
  rw [skip_low (by decide), skip_low (by decide), take_low, regBits_toFin]

theorem vbField_encRRR (op : Byte) (vd va vb : VReg) : vbField (encRRR op vd va vb) = vb := by
  show (BitVec.extractLsb' 44 4 (op ++ regBits vd ++ regBits va ++ regBits vb ++ 0#44)).toFin = _
  rw [skip_low (by decide), take_low, regBits_toFin]

theorem vdField_encDI (op : Byte) (vd : VReg) (imm : Half16) : vdField (encDI op vd imm) = vd := by
  show (BitVec.extractLsb' 52 4 (op ++ regBits vd ++ 0#36 ++ imm)).toFin = _
  rw [skip_low (by decide), skip_low (by decide), take_low, regBits_toFin]

theorem imm16Field_encDI (op : Byte) (vd : VReg) (imm : Half16) : imm16Field (encDI op vd imm) = imm := by
  show BitVec.extractLsb' 0 16 (op ++ regBits vd ++ 0#36 ++ imm) = _
  rw [take_low]

theorem vdField_encRI16 (op : Byte) (vd va : VReg) (imm : Half16) : vdField (encRI16 op vd va imm) = vd := by
  show (BitVec.extractLsb' 52 4 (op ++ regBits vd ++ regBits va ++ 0#32 ++ imm)).toFin = _
  rw [skip_low (by decide), skip_low (by decide), skip_low (by decide), take_low, regBits_toFin]

theorem vaField_encRI16 (op : Byte) (vd va : VReg) (imm : Half16) : vaField (encRI16 op vd va imm) = va := by
  show (BitVec.extractLsb' 48 4 (op ++ regBits vd ++ regBits va ++ 0#32 ++ imm)).toFin = _
  rw [skip_low (by decide), skip_low (by decide), take_low, regBits_toFin]

theorem imm16Field_encRI16 (op : Byte) (vd va : VReg) (imm : Half16) : imm16Field (encRI16 op vd va imm) = imm := by
  show BitVec.extractLsb' 0 16 (op ++ regBits vd ++ regBits va ++ 0#32 ++ imm) = _
  rw [take_low]

theorem vdField_encRI8 (op : Byte) (vd va : VReg) (imm : Byte) : vdField (encRI8 op vd va imm) = vd := by
  show (BitVec.extractLsb' 52 4 (op ++ regBits vd ++ regBits va ++ 0#40 ++ imm)).toFin = _
  rw [skip_low (by decide), skip_low (by decide), skip_low (by decide), take_low, regBits_toFin]

theorem vaField_encRI8 (op : Byte) (vd va : VReg) (imm : Byte) : vaField (encRI8 op vd va imm) = va := by
  show (BitVec.extractLsb' 48 4 (op ++ regBits vd ++ regBits va ++ 0#40 ++ imm)).toFin = _
  rw [skip_low (by decide), skip_low (by decide), take_low, regBits_toFin]

theorem imm8Field_encRI8 (op : Byte) (vd va : VReg) (imm : Byte) : imm8Field (encRI8 op vd va imm) = imm := by
  show BitVec.extractLsb' 0 8 (op ++ regBits vd ++ regBits va ++ 0#40 ++ imm) = _
  rw [take_low]

theorem vdField_encDL (op : Byte) (vd : VReg) (lane : Fin 8) (imm : Half16) : vdField (encDL op vd lane imm) = vd := by
  show (BitVec.extractLsb' 52 4 (op ++ regBits vd ++ 0#33 ++ BitVec.ofNat 3 lane.val ++ imm)).toFin = _
  rw [skip_low (by decide), skip_low (by decide), skip_low (by decide), take_low, regBits_toFin]

theorem laneField_encDL (op : Byte) (vd : VReg) (lane : Fin 8) (imm : Half16) : laneField (encDL op vd lane imm) = lane := by
  show (BitVec.extractLsb' 16 3 (op ++ regBits vd ++ 0#33 ++ BitVec.ofNat 3 lane.val ++ imm)).toFin = _
  rw [skip_low (by decide), take_low, laneBits_toFin]

theorem imm16Field_encDL (op : Byte) (vd : VReg) (lane : Fin 8) (imm : Half16) : imm16Field (encDL op vd lane imm) = imm := by
  show BitVec.extractLsb' 0 16 (op ++ regBits vd ++ 0#33 ++ BitVec.ofNat 3 lane.val ++ imm) = _
  rw [take_low]

theorem vdField_encMD (op : Byte) (vd : VReg) (idx : Half16) : vdField (encMD op vd idx) = vd := by
  show (BitVec.extractLsb' 52 4 (op ++ regBits vd ++ 0#20 ++ idx ++ 0#16)).toFin = _
  rw [skip_low (by decide), skip_low (by decide), skip_low (by decide), take_low, regBits_toFin]

theorem idx16Field_encMD (op : Byte) (vd : VReg) (idx : Half16) : idx16Field (encMD op vd idx) = idx := by
  show BitVec.extractLsb' 16 16 (op ++ regBits vd ++ 0#20 ++ idx ++ 0#16) = _
  rw [skip_low (by decide), take_low]

theorem vdField_encMDH (op : Byte) (vd : VReg) (half : BmHalf) (idx : Half16) : vdField (encMDH op vd half idx) = vd := by
  show (BitVec.extractLsb' 52 4 (op ++ regBits vd ++ 0#19 ++ hBits half ++ idx ++ 0#16)).toFin = _
  rw [skip_low (by decide), skip_low (by decide), skip_low (by decide), skip_low (by decide), take_low, regBits_toFin]

theorem hField_encMDH (op : Byte) (vd : VReg) (half : BmHalf) (idx : Half16) : hField (encMDH op vd half idx) = half := by
  have hb : (BitVec.extractLsb' 32 1 (op ++ regBits vd ++ 0#19 ++ hBits half ++ idx ++ 0#16)) = hBits half := by
    rw [skip_low (by decide), skip_low (by decide), take_low]
  have hg : BitVec.getLsbD (encMDH op vd half idx) 32 = (hBits half).getLsbD 0 := by
    rw [← hb, BitVec.getLsbD_extractLsb']
    rfl
  unfold hField
  rw [hg]
  cases half <;> rfl

theorem idx16Field_encMDH (op : Byte) (vd : VReg) (half : BmHalf) (idx : Half16) : idx16Field (encMDH op vd half idx) = idx := by
  show BitVec.extractLsb' 16 16 (op ++ regBits vd ++ 0#19 ++ hBits half ++ idx ++ 0#16) = _
  rw [skip_low (by decide), take_low]

theorem vaField_encMA (op : Byte) (va : VReg) (idx : Half16) : vaField (encMA op va idx) = va := by
  show (BitVec.extractLsb' 48 4 (op ++ 0#4 ++ regBits va ++ 0#16 ++ idx ++ 0#16)).toFin = _
  rw [skip_low (by decide), skip_low (by decide), skip_low (by decide), take_low, regBits_toFin]

theorem idx16Field_encMA (op : Byte) (va : VReg) (idx : Half16) : idx16Field (encMA op va idx) = idx := by
  show BitVec.extractLsb' 16 16 (op ++ 0#4 ++ regBits va ++ 0#16 ++ idx ++ 0#16) = _
  rw [skip_low (by decide), take_low]

theorem vaField_encMAH (op : Byte) (va : VReg) (half : BmHalf) (idx : Half16) : vaField (encMAH op va half idx) = va := by
  show (BitVec.extractLsb' 48 4 (op ++ 0#4 ++ regBits va ++ 0#15 ++ hBits half ++ idx ++ 0#16)).toFin = _
  rw [skip_low (by decide), skip_low (by decide), skip_low (by decide), skip_low (by decide), take_low, regBits_toFin]

theorem hField_encMAH (op : Byte) (va : VReg) (half : BmHalf) (idx : Half16) : hField (encMAH op va half idx) = half := by
  have hb : (BitVec.extractLsb' 32 1 (op ++ 0#4 ++ regBits va ++ 0#15 ++ hBits half ++ idx ++ 0#16)) = hBits half := by
    rw [skip_low (by decide), skip_low (by decide), take_low]
  have hg : BitVec.getLsbD (encMAH op va half idx) 32 = (hBits half).getLsbD 0 := by
    rw [← hb, BitVec.getLsbD_extractLsb']
    rfl
  unfold hField
  rw [hg]
  cases half <;> rfl

theorem idx16Field_encMAH (op : Byte) (va : VReg) (half : BmHalf) (idx : Half16) : idx16Field (encMAH op va half idx) = idx := by
  show BitVec.extractLsb' 16 16 (op ++ 0#4 ++ regBits va ++ 0#15 ++ hBits half ++ idx ++ 0#16) = _
  rw [skip_low (by decide), take_low]

theorem x16Field_encF (op : Byte) (x z le : Half16) : x16Field (encF op x z le) = x := by
  show BitVec.extractLsb' 32 16 (op ++ 0#8 ++ x ++ z ++ le) = _
  rw [skip_low (by decide), skip_low (by decide), take_low]

theorem idx16Field_encF (op : Byte) (x z le : Half16) : idx16Field (encF op x z le) = z := by
  show BitVec.extractLsb' 16 16 (op ++ 0#8 ++ x ++ z ++ le) = _
  rw [skip_low (by decide), take_low]

theorem imm16Field_encF (op : Byte) (x z le : Half16) : imm16Field (encF op x z le) = le := by
  show BitVec.extractLsb' 0 16 (op ++ 0#8 ++ x ++ z ++ le) = _
  rw [take_low]

theorem idx16Field_encB (op : Byte) (z norm : Half16) : idx16Field (encB op z norm) = z := by
  show BitVec.extractLsb' 16 16 (op ++ 0#24 ++ z ++ norm) = _
  rw [skip_low (by decide), take_low]

theorem imm16Field_encB (op : Byte) (z norm : Half16) : imm16Field (encB op z norm) = norm := by
  show BitVec.extractLsb' 0 16 (op ++ 0#24 ++ z ++ norm) = _
  rw [take_low]

end Sys2Proof
end

