-- ==== Sys2Proof/Laws/Memory.lean ====
section
/-! SUPPORT. The laws of a metric memory: a read after a write, everything else left alone, and the canonical form kept. -/

namespace Sys2Proof.Machine

variable {α : Type}

@[simp] theorem Mem.find_nil (k : Nat) : Mem.find ([] : Mem α) k = none := rfl

@[simp] theorem Mem.find_cons (a : Nat) (v : α) (m : Mem α) (k : Nat) :
    Mem.find ((a, v) :: m) k = if a = k then some v else Mem.find m k := rfl

@[simp] theorem Mem.find_write_same (m : Mem α) (k : Nat) (v : α) : (m.write k v).find k = some v := by
  induction m with
  | nil => simp [Mem.write]
  | cons e m ih =>
    obtain ⟨a, u⟩ := e
    simp only [Mem.write]
    split
    · simp
    · split
      · simp
      · rename_i _ hne
        simpa [Ne.symm hne] using ih

theorem Mem.find_write_other (m : Mem α) {j k : Nat} (v : α) (hjk : j ≠ k) : (m.write k v).find j = m.find j := by
  induction m with
  | nil => simp [Mem.write, Ne.symm hjk]
  | cons e m ih =>
    obtain ⟨a, u⟩ := e
    simp only [Mem.write]
    split
    · simp [Ne.symm hjk]
    · split
      · rename_i _ hka
        subst hka
        simp [Ne.symm hjk]
      · simp only [Mem.find_cons, ih]

/-- Reading any entry after a write, in one equation. -/
theorem Mem.find_write (m : Mem α) (j k : Nat) (v : α) :
    (m.write k v).find j = if j = k then some v else m.find j := by
  split
  · rename_i hjk
    subst hjk
    exact m.find_write_same j v
  · rename_i hjk
    exact m.find_write_other v hjk

/-- Writing the same entry twice is writing it once. -/
theorem Mem.write_write (m : Mem α) (k : Nat) (v : α) : (m.write k v).write k v = m.write k v := by
  induction m with
  | nil => simp [Mem.write]
  | cons e m ih =>
    obtain ⟨a, u⟩ := e
    by_cases h1 : k < a
    · simp [Mem.write, h1]
    · by_cases h2 : k = a
      · simp [Mem.write, h2]
      · simp [Mem.write, h1, h2, ih]

theorem Mem.wfFrom_mono {lo lo' hi : Nat} {m : Mem α} (hlo : lo' ≤ lo) (hm : Mem.wfFrom lo hi m = true) :
    Mem.wfFrom lo' hi m = true := by
  cases m with
  | nil => rfl
  | cons e m =>
    simp only [Mem.wfFrom, Bool.and_eq_true, decide_eq_true_eq] at hm ⊢
    exact ⟨⟨by omega, hm.1.2⟩, hm.2⟩

theorem Mem.wfFrom_write {lo hi k : Nat} (v : α) (hlo : lo ≤ k) (hhi : k < hi) {m : Mem α}
    (hm : Mem.wfFrom lo hi m = true) : Mem.wfFrom lo hi (m.write k v) = true := by
  induction m generalizing lo with
  | nil => simp [Mem.write, Mem.wfFrom, hlo, hhi]
  | cons e m ih =>
    obtain ⟨a, u⟩ := e
    simp only [Mem.wfFrom, Bool.and_eq_true, decide_eq_true_eq] at hm
    obtain ⟨⟨h1, h2⟩, h3⟩ := hm
    simp only [Mem.write]
    split
    · simp only [Mem.wfFrom, Bool.and_eq_true, decide_eq_true_eq]
      exact ⟨⟨hlo, hhi⟩, ⟨by omega, h2⟩, h3⟩
    · split
      · rename_i _ hka
        subst hka
        simp only [Mem.wfFrom, Bool.and_eq_true, decide_eq_true_eq]
        exact ⟨⟨hlo, hhi⟩, h3⟩
      · simp only [Mem.wfFrom, Bool.and_eq_true, decide_eq_true_eq]
        exact ⟨⟨h1, h2⟩, ih (by omega) h3⟩

/-- A write inside the memory keeps the canonical form. -/
theorem Mem.wf_write {size k : Nat} (v : α) (hk : k < size) {m : Mem α} (hm : m.wf size = true) :
    (m.write k v).wf size = true :=
  Mem.wfFrom_write v (Nat.zero_le k) hk hm

/-- The empty memory, the one after reset, has the canonical form. -/
@[simp] theorem Mem.wf_nil (size : Nat) : Mem.wf size ([] : Mem α) = true := rfl

theorem Mem.find_eq_none_of_lt {lo hi k : Nat} (hk : k < lo) {m : Mem α} (hm : Mem.wfFrom lo hi m = true) :
    m.find k = none := by
  induction m generalizing lo with
  | nil => rfl
  | cons e m ih =>
    obtain ⟨a, u⟩ := e
    simp only [Mem.wfFrom, Bool.and_eq_true, decide_eq_true_eq] at hm
    rw [Mem.find_cons, if_neg (by omega)]
    exact ih (by omega) hm.2

/-- Two memories in canonical form with the same entries are the same list: equal memories are equal data. -/
theorem Mem.ext_of_wfFrom {lo hi : Nat} {m n : Mem α} (hm : Mem.wfFrom lo hi m = true) (hn : Mem.wfFrom lo hi n = true)
    (heq : ∀ k, m.find k = n.find k) : m = n := by
  induction m generalizing lo n with
  | nil =>
    cases n with
    | nil => rfl
    | cons e n =>
      obtain ⟨b, w⟩ := e
      have := heq b
      simp at this
  | cons e m ih =>
    obtain ⟨a, u⟩ := e
    cases n with
    | nil => have := heq a; simp at this
    | cons e' n =>
      obtain ⟨b, w⟩ := e'
      simp only [Mem.wfFrom, Bool.and_eq_true, decide_eq_true_eq] at hm hn
      have hma : Mem.find m a = none := Mem.find_eq_none_of_lt (Nat.lt_succ_self a) hm.2
      have hnb : Mem.find n b = none := Mem.find_eq_none_of_lt (Nat.lt_succ_self b) hn.2
      have hab : a = b := by
        by_contra hne
        rcases Nat.lt_or_gt_of_ne hne with hlt | hgt
        · have h1 := heq a
          have h2 : Mem.find n a = none := Mem.find_eq_none_of_lt (by omega) hn.2
          simp [Ne.symm hne, h2] at h1
        · have h1 := heq b
          have h2 : Mem.find m b = none := Mem.find_eq_none_of_lt (by omega) hm.2
          simp [hne, h2] at h1
      subst hab
      have huw : u = w := by simpa using heq a
      subst huw
      have htail : m = n := by
        refine ih hm.2 hn.2 fun k => ?_
        by_cases hk : a = k
        · subst hk
          rw [hma, hnb]
        · have := heq k
          simpa [hk] using this
      rw [htail]

end Sys2Proof.Machine
end

