-- ==== Sys2Proof/Laws/State.lean ====
section
/-! SUPPORT. The fields of State after each update: one lemma per field per update, each by rfl, so that no later proof
unfolds a record update. -/

namespace Sys2Proof.Machine

/-! writeVR -/

@[simp] theorem State.writeVR_params (s : State) (r : VReg) (v : Vec) : (s.writeVR r v).params = s.params := rfl
@[simp] theorem State.writeVR_vr (s : State) (r : VReg) (v : Vec) : (s.writeVR r v).vr = s.vr.set r ⟨v, true⟩ := rfl
@[simp] theorem State.writeVR_beta (s : State) (r : VReg) (v : Vec) : (s.writeVR r v).beta = s.beta := rfl
@[simp] theorem State.writeVR_kptr (s : State) (r : VReg) (v : Vec) : (s.writeVR r v).kptr = s.kptr := rfl
@[simp] theorem State.writeVR_status (s : State) (r : VReg) (v : Vec) : (s.writeVR r v).status = s.status := rfl
@[simp] theorem State.writeVR_result (s : State) (r : VReg) (v : Vec) : (s.writeVR r v).result = s.result := rfl
@[simp] theorem State.writeVR_errcmd (s : State) (r : VReg) (v : Vec) : (s.writeVR r v).errcmd = s.errcmd := rfl
@[simp] theorem State.writeVR_alpha (s : State) (r : VReg) (v : Vec) : (s.writeVR r v).alpha = s.alpha := rfl
@[simp] theorem State.writeVR_bmLo (s : State) (r : VReg) (v : Vec) : (s.writeVR r v).bmLo = s.bmLo := rfl
@[simp] theorem State.writeVR_bmHi (s : State) (r : VReg) (v : Vec) : (s.writeVR r v).bmHi = s.bmHi := rfl
@[simp] theorem State.writeVR_llr (s : State) (r : VReg) (v : Vec) : (s.writeVR r v).llr = s.llr := rfl
@[simp] theorem State.writeVR_inbox (s : State) (r : VReg) (v : Vec) : (s.writeVR r v).inbox = s.inbox := rfl
@[simp] theorem State.writeVR_outbox (s : State) (r : VReg) (v : Vec) : (s.writeVR r v).outbox = s.outbox := rfl

/-! writeBeta -/

@[simp] theorem State.writeBeta_params (s : State) (v : Vec) : (s.writeBeta v).params = s.params := rfl
@[simp] theorem State.writeBeta_vr (s : State) (v : Vec) : (s.writeBeta v).vr = s.vr := rfl
@[simp] theorem State.writeBeta_beta (s : State) (v : Vec) : (s.writeBeta v).beta = ⟨v, true⟩ := rfl
@[simp] theorem State.writeBeta_kptr (s : State) (v : Vec) : (s.writeBeta v).kptr = s.kptr := rfl
@[simp] theorem State.writeBeta_status (s : State) (v : Vec) : (s.writeBeta v).status = s.status := rfl
@[simp] theorem State.writeBeta_result (s : State) (v : Vec) : (s.writeBeta v).result = s.result := rfl
@[simp] theorem State.writeBeta_errcmd (s : State) (v : Vec) : (s.writeBeta v).errcmd = s.errcmd := rfl
@[simp] theorem State.writeBeta_alpha (s : State) (v : Vec) : (s.writeBeta v).alpha = s.alpha := rfl
@[simp] theorem State.writeBeta_bmLo (s : State) (v : Vec) : (s.writeBeta v).bmLo = s.bmLo := rfl
@[simp] theorem State.writeBeta_bmHi (s : State) (v : Vec) : (s.writeBeta v).bmHi = s.bmHi := rfl
@[simp] theorem State.writeBeta_llr (s : State) (v : Vec) : (s.writeBeta v).llr = s.llr := rfl
@[simp] theorem State.writeBeta_inbox (s : State) (v : Vec) : (s.writeBeta v).inbox = s.inbox := rfl
@[simp] theorem State.writeBeta_outbox (s : State) (v : Vec) : (s.writeBeta v).outbox = s.outbox := rfl

/-! writeAlpha -/

@[simp] theorem State.writeAlpha_params (s : State) (k : Nat) (v : Vec) : (s.writeAlpha k v).params = s.params := rfl
@[simp] theorem State.writeAlpha_vr (s : State) (k : Nat) (v : Vec) : (s.writeAlpha k v).vr = s.vr := rfl
@[simp] theorem State.writeAlpha_beta (s : State) (k : Nat) (v : Vec) : (s.writeAlpha k v).beta = s.beta := rfl
@[simp] theorem State.writeAlpha_kptr (s : State) (k : Nat) (v : Vec) : (s.writeAlpha k v).kptr = s.kptr := rfl
@[simp] theorem State.writeAlpha_status (s : State) (k : Nat) (v : Vec) : (s.writeAlpha k v).status = s.status := rfl
@[simp] theorem State.writeAlpha_result (s : State) (k : Nat) (v : Vec) : (s.writeAlpha k v).result = s.result := rfl
@[simp] theorem State.writeAlpha_errcmd (s : State) (k : Nat) (v : Vec) : (s.writeAlpha k v).errcmd = s.errcmd := rfl
@[simp] theorem State.writeAlpha_alpha (s : State) (k : Nat) (v : Vec) : (s.writeAlpha k v).alpha = s.alpha.write k v := rfl
@[simp] theorem State.writeAlpha_bmLo (s : State) (k : Nat) (v : Vec) : (s.writeAlpha k v).bmLo = s.bmLo := rfl
@[simp] theorem State.writeAlpha_bmHi (s : State) (k : Nat) (v : Vec) : (s.writeAlpha k v).bmHi = s.bmHi := rfl
@[simp] theorem State.writeAlpha_llr (s : State) (k : Nat) (v : Vec) : (s.writeAlpha k v).llr = s.llr := rfl
@[simp] theorem State.writeAlpha_inbox (s : State) (k : Nat) (v : Vec) : (s.writeAlpha k v).inbox = s.inbox := rfl
@[simp] theorem State.writeAlpha_outbox (s : State) (k : Nat) (v : Vec) : (s.writeAlpha k v).outbox = s.outbox := rfl

/-! writeBmLo -/

@[simp] theorem State.writeBmLo_params (s : State) (k : Nat) (v : Vec) : (s.writeBmLo k v).params = s.params := rfl
@[simp] theorem State.writeBmLo_vr (s : State) (k : Nat) (v : Vec) : (s.writeBmLo k v).vr = s.vr := rfl
@[simp] theorem State.writeBmLo_beta (s : State) (k : Nat) (v : Vec) : (s.writeBmLo k v).beta = s.beta := rfl
@[simp] theorem State.writeBmLo_kptr (s : State) (k : Nat) (v : Vec) : (s.writeBmLo k v).kptr = s.kptr := rfl
@[simp] theorem State.writeBmLo_status (s : State) (k : Nat) (v : Vec) : (s.writeBmLo k v).status = s.status := rfl
@[simp] theorem State.writeBmLo_result (s : State) (k : Nat) (v : Vec) : (s.writeBmLo k v).result = s.result := rfl
@[simp] theorem State.writeBmLo_errcmd (s : State) (k : Nat) (v : Vec) : (s.writeBmLo k v).errcmd = s.errcmd := rfl
@[simp] theorem State.writeBmLo_alpha (s : State) (k : Nat) (v : Vec) : (s.writeBmLo k v).alpha = s.alpha := rfl
@[simp] theorem State.writeBmLo_bmLo (s : State) (k : Nat) (v : Vec) : (s.writeBmLo k v).bmLo = s.bmLo.write k v := rfl
@[simp] theorem State.writeBmLo_bmHi (s : State) (k : Nat) (v : Vec) : (s.writeBmLo k v).bmHi = s.bmHi := rfl
@[simp] theorem State.writeBmLo_llr (s : State) (k : Nat) (v : Vec) : (s.writeBmLo k v).llr = s.llr := rfl
@[simp] theorem State.writeBmLo_inbox (s : State) (k : Nat) (v : Vec) : (s.writeBmLo k v).inbox = s.inbox := rfl
@[simp] theorem State.writeBmLo_outbox (s : State) (k : Nat) (v : Vec) : (s.writeBmLo k v).outbox = s.outbox := rfl

/-! writeBmHi -/

@[simp] theorem State.writeBmHi_params (s : State) (k : Nat) (v : Vec) : (s.writeBmHi k v).params = s.params := rfl
@[simp] theorem State.writeBmHi_vr (s : State) (k : Nat) (v : Vec) : (s.writeBmHi k v).vr = s.vr := rfl
@[simp] theorem State.writeBmHi_beta (s : State) (k : Nat) (v : Vec) : (s.writeBmHi k v).beta = s.beta := rfl
@[simp] theorem State.writeBmHi_kptr (s : State) (k : Nat) (v : Vec) : (s.writeBmHi k v).kptr = s.kptr := rfl
@[simp] theorem State.writeBmHi_status (s : State) (k : Nat) (v : Vec) : (s.writeBmHi k v).status = s.status := rfl
@[simp] theorem State.writeBmHi_result (s : State) (k : Nat) (v : Vec) : (s.writeBmHi k v).result = s.result := rfl
@[simp] theorem State.writeBmHi_errcmd (s : State) (k : Nat) (v : Vec) : (s.writeBmHi k v).errcmd = s.errcmd := rfl
@[simp] theorem State.writeBmHi_alpha (s : State) (k : Nat) (v : Vec) : (s.writeBmHi k v).alpha = s.alpha := rfl
@[simp] theorem State.writeBmHi_bmLo (s : State) (k : Nat) (v : Vec) : (s.writeBmHi k v).bmLo = s.bmLo := rfl
@[simp] theorem State.writeBmHi_bmHi (s : State) (k : Nat) (v : Vec) : (s.writeBmHi k v).bmHi = s.bmHi.write k v := rfl
@[simp] theorem State.writeBmHi_llr (s : State) (k : Nat) (v : Vec) : (s.writeBmHi k v).llr = s.llr := rfl
@[simp] theorem State.writeBmHi_inbox (s : State) (k : Nat) (v : Vec) : (s.writeBmHi k v).inbox = s.inbox := rfl
@[simp] theorem State.writeBmHi_outbox (s : State) (k : Nat) (v : Vec) : (s.writeBmHi k v).outbox = s.outbox := rfl

/-! writeLlr -/

@[simp] theorem State.writeLlr_params (s : State) (k : Nat) (v : Half16) : (s.writeLlr k v).params = s.params := rfl
@[simp] theorem State.writeLlr_vr (s : State) (k : Nat) (v : Half16) : (s.writeLlr k v).vr = s.vr := rfl
@[simp] theorem State.writeLlr_beta (s : State) (k : Nat) (v : Half16) : (s.writeLlr k v).beta = s.beta := rfl
@[simp] theorem State.writeLlr_kptr (s : State) (k : Nat) (v : Half16) : (s.writeLlr k v).kptr = s.kptr := rfl
@[simp] theorem State.writeLlr_status (s : State) (k : Nat) (v : Half16) : (s.writeLlr k v).status = s.status := rfl
@[simp] theorem State.writeLlr_result (s : State) (k : Nat) (v : Half16) : (s.writeLlr k v).result = s.result := rfl
@[simp] theorem State.writeLlr_errcmd (s : State) (k : Nat) (v : Half16) : (s.writeLlr k v).errcmd = s.errcmd := rfl
@[simp] theorem State.writeLlr_alpha (s : State) (k : Nat) (v : Half16) : (s.writeLlr k v).alpha = s.alpha := rfl
@[simp] theorem State.writeLlr_bmLo (s : State) (k : Nat) (v : Half16) : (s.writeLlr k v).bmLo = s.bmLo := rfl
@[simp] theorem State.writeLlr_bmHi (s : State) (k : Nat) (v : Half16) : (s.writeLlr k v).bmHi = s.bmHi := rfl
@[simp] theorem State.writeLlr_llr (s : State) (k : Nat) (v : Half16) : (s.writeLlr k v).llr = s.llr.write k v := rfl
@[simp] theorem State.writeLlr_inbox (s : State) (k : Nat) (v : Half16) : (s.writeLlr k v).inbox = s.inbox := rfl
@[simp] theorem State.writeLlr_outbox (s : State) (k : Nat) (v : Half16) : (s.writeLlr k v).outbox = s.outbox := rfl

/-! setKptr -/

@[simp] theorem State.setKptr_params (s : State) (k : Nat) : (s.setKptr k).params = s.params := rfl
@[simp] theorem State.setKptr_vr (s : State) (k : Nat) : (s.setKptr k).vr = s.vr := rfl
@[simp] theorem State.setKptr_beta (s : State) (k : Nat) : (s.setKptr k).beta = s.beta := rfl
@[simp] theorem State.setKptr_kptr (s : State) (k : Nat) : (s.setKptr k).kptr = BitVec.ofNat 16 k := rfl
@[simp] theorem State.setKptr_status (s : State) (k : Nat) : (s.setKptr k).status = s.status := rfl
@[simp] theorem State.setKptr_result (s : State) (k : Nat) : (s.setKptr k).result = s.result := rfl
@[simp] theorem State.setKptr_errcmd (s : State) (k : Nat) : (s.setKptr k).errcmd = s.errcmd := rfl
@[simp] theorem State.setKptr_alpha (s : State) (k : Nat) : (s.setKptr k).alpha = s.alpha := rfl
@[simp] theorem State.setKptr_bmLo (s : State) (k : Nat) : (s.setKptr k).bmLo = s.bmLo := rfl
@[simp] theorem State.setKptr_bmHi (s : State) (k : Nat) : (s.setKptr k).bmHi = s.bmHi := rfl
@[simp] theorem State.setKptr_llr (s : State) (k : Nat) : (s.setKptr k).llr = s.llr := rfl
@[simp] theorem State.setKptr_inbox (s : State) (k : Nat) : (s.setKptr k).inbox = s.inbox := rfl
@[simp] theorem State.setKptr_outbox (s : State) (k : Nat) : (s.setKptr k).outbox = s.outbox := rfl

/-! setResult -/

@[simp] theorem State.setResult_params (s : State) (v : Half16) : (s.setResult v).params = s.params := rfl
@[simp] theorem State.setResult_vr (s : State) (v : Half16) : (s.setResult v).vr = s.vr := rfl
@[simp] theorem State.setResult_beta (s : State) (v : Half16) : (s.setResult v).beta = s.beta := rfl
@[simp] theorem State.setResult_kptr (s : State) (v : Half16) : (s.setResult v).kptr = s.kptr := rfl
@[simp] theorem State.setResult_status (s : State) (v : Half16) : (s.setResult v).status = s.status := rfl
@[simp] theorem State.setResult_result (s : State) (v : Half16) : (s.setResult v).result = v := rfl
@[simp] theorem State.setResult_errcmd (s : State) (v : Half16) : (s.setResult v).errcmd = s.errcmd := rfl
@[simp] theorem State.setResult_alpha (s : State) (v : Half16) : (s.setResult v).alpha = s.alpha := rfl
@[simp] theorem State.setResult_bmLo (s : State) (v : Half16) : (s.setResult v).bmLo = s.bmLo := rfl
@[simp] theorem State.setResult_bmHi (s : State) (v : Half16) : (s.setResult v).bmHi = s.bmHi := rfl
@[simp] theorem State.setResult_llr (s : State) (v : Half16) : (s.setResult v).llr = s.llr := rfl
@[simp] theorem State.setResult_inbox (s : State) (v : Half16) : (s.setResult v).inbox = s.inbox := rfl
@[simp] theorem State.setResult_outbox (s : State) (v : Half16) : (s.setResult v).outbox = s.outbox := rfl

/-! raiseError -/

@[simp] theorem State.raiseError_params (s : State) (c : ErrorCode) (w : CmdWord) : (s.raiseError c w).params = s.params := rfl
@[simp] theorem State.raiseError_vr (s : State) (c : ErrorCode) (w : CmdWord) : (s.raiseError c w).vr = s.vr := rfl
@[simp] theorem State.raiseError_beta (s : State) (c : ErrorCode) (w : CmdWord) : (s.raiseError c w).beta = s.beta := rfl
@[simp] theorem State.raiseError_kptr (s : State) (c : ErrorCode) (w : CmdWord) : (s.raiseError c w).kptr = s.kptr := rfl
@[simp] theorem State.raiseError_status (s : State) (c : ErrorCode) (w : CmdWord) : (s.raiseError c w).status = .error c := rfl
@[simp] theorem State.raiseError_result (s : State) (c : ErrorCode) (w : CmdWord) : (s.raiseError c w).result = s.result := rfl
@[simp] theorem State.raiseError_errcmd (s : State) (c : ErrorCode) (w : CmdWord) : (s.raiseError c w).errcmd = w := rfl
@[simp] theorem State.raiseError_alpha (s : State) (c : ErrorCode) (w : CmdWord) : (s.raiseError c w).alpha = s.alpha := rfl
@[simp] theorem State.raiseError_bmLo (s : State) (c : ErrorCode) (w : CmdWord) : (s.raiseError c w).bmLo = s.bmLo := rfl
@[simp] theorem State.raiseError_bmHi (s : State) (c : ErrorCode) (w : CmdWord) : (s.raiseError c w).bmHi = s.bmHi := rfl
@[simp] theorem State.raiseError_llr (s : State) (c : ErrorCode) (w : CmdWord) : (s.raiseError c w).llr = s.llr := rfl
@[simp] theorem State.raiseError_inbox (s : State) (c : ErrorCode) (w : CmdWord) : (s.raiseError c w).inbox = s.inbox := rfl
@[simp] theorem State.raiseError_outbox (s : State) (c : ErrorCode) (w : CmdWord) : (s.raiseError c w).outbox = s.outbox := rfl

/-! applyReset -/

@[simp] theorem State.applyReset_params (s : State) : s.applyReset.params = s.params := rfl
@[simp] theorem State.applyReset_vr (s : State) : s.applyReset.vr = Vector.replicate 16 Reg.atReset := rfl
@[simp] theorem State.applyReset_beta (s : State) : s.applyReset.beta = Reg.atReset := rfl
@[simp] theorem State.applyReset_kptr (s : State) : s.applyReset.kptr = 0 := rfl
@[simp] theorem State.applyReset_status (s : State) : s.applyReset.status = .ok := rfl
@[simp] theorem State.applyReset_result (s : State) : s.applyReset.result = 0 := rfl
@[simp] theorem State.applyReset_errcmd (s : State) : s.applyReset.errcmd = 0 := rfl
@[simp] theorem State.applyReset_alpha (s : State) : s.applyReset.alpha = [] := rfl
@[simp] theorem State.applyReset_bmLo (s : State) : s.applyReset.bmLo = [] := rfl
@[simp] theorem State.applyReset_bmHi (s : State) : s.applyReset.bmHi = [] := rfl
@[simp] theorem State.applyReset_llr (s : State) : s.applyReset.llr = [] := rfl
@[simp] theorem State.applyReset_inbox (s : State) : s.applyReset.inbox = s.inbox := rfl
@[simp] theorem State.applyReset_outbox (s : State) : s.applyReset.outbox = s.outbox := rfl

end Sys2Proof.Machine
end

