-- ==== Sys2Proof/Laws/Ops.lean ====
section
/-! SUPPORT. What each shared operation can do, said once: reads by policy, writes, and the shapes of commands. -/

namespace Sys2Proof.Machine

variable {s t : State} {f : Fault}

/-! The shapes. -/

@[simp] theorem withRead_ok {α : Type} (a : α) (k : α → Result) : withRead (.ok a) k = k a := rfl

@[simp] theorem withRead_error {α : Type} (f : Fault) (k : α → Result) : withRead (.error f) k = .fault f := rfl

theorem withRead_next {α : Type} {r : Except Fault α} {k : α → Result} (hr : withRead r k = .next t) :
    ∃ a, r = .ok a ∧ k a = .next t := by
  cases r with
  | error f => simp at hr
  | ok a => exact ⟨a, rfl, hr⟩

theorem withRead_fault {α : Type} {r : Except Fault α} {k : α → Result} (hr : withRead r k = .fault f) :
    r = .error f ∨ ∃ a, r = .ok a ∧ k a = .fault f := by
  cases r with
  | error g => exact .inl (by simpa using hr)
  | ok a => exact .inr ⟨a, rfl, hr⟩

theorem unary_of_ok {g : Vec → Vec} {vd va : VReg} {a : Vec} (ha : s.readVR va = .ok a) :
    unary g vd va s = .next (s.writeVR vd (g a)) := by
  simp [unary, ha]

theorem unary_of_error {g : Vec → Vec} {vd va : VReg} (ha : s.readVR va = .error f) : unary g vd va s = .fault f := by
  simp [unary, ha]

theorem unary_next {g : Vec → Vec} {vd va : VReg} (hu : unary g vd va s = .next t) :
    ∃ a, s.readVR va = .ok a ∧ t = s.writeVR vd (g a) := by
  obtain ⟨a, ha, hk⟩ := withRead_next hu
  exact ⟨a, ha, by simpa using hk.symm⟩

theorem binary_of_ok {g : Vec → Vec → Vec} {vd va vb : VReg} {a b : Vec} (ha : s.readVR va = .ok a)
    (hb : s.readVR vb = .ok b) : binary g vd va vb s = .next (s.writeVR vd (g a b)) := by
  simp [binary, ha, hb]

theorem binary_of_error_left {g : Vec → Vec → Vec} {vd va vb : VReg} (ha : s.readVR va = .error f) :
    binary g vd va vb s = .fault f := by
  simp [binary, ha]

theorem binary_of_error_right {g : Vec → Vec → Vec} {vd va vb : VReg} {a : Vec} (ha : s.readVR va = .ok a)
    (hb : s.readVR vb = .error f) : binary g vd va vb s = .fault f := by
  simp [binary, ha, hb]

theorem binary_next {g : Vec → Vec → Vec} {vd va vb : VReg} (hu : binary g vd va vb s = .next t) :
    ∃ a b, s.readVR va = .ok a ∧ s.readVR vb = .ok b ∧ t = s.writeVR vd (g a b) := by
  obtain ⟨a, ha, hk⟩ := withRead_next hu
  obtain ⟨b, hb, hk⟩ := withRead_next hk
  exact ⟨a, b, ha, hb, by simpa using hk.symm⟩

@[simp] theorem checked_true (c : ErrorCode) (i : Instr) (run : State → Result) (s : State) :
    checked true c i run s = .next (s.raiseError c (encode i)) := rfl

@[simp] theorem checked_false (c : ErrorCode) (i : Instr) (run : State → Result) (s : State) :
    checked false c i run s = run s := rfl

/-- A checked command whose check fails takes its error. -/
theorem checked_of {bad : Prop} [Decidable bad] {c : ErrorCode} {i : Instr} {run : State → Result} (hb : bad) :
    checked (decide bad) c i run s = .next (s.raiseError c (encode i)) := by
  rw [decide_eq_true hb, checked_true]

/-- A checked command whose check passes runs. -/
theorem checked_of_not {bad : Prop} [Decidable bad] {c : ErrorCode} {i : Instr} {run : State → Result} (hb : ¬ bad) :
    checked (decide bad) c i run s = run s := by
  rw [decide_eq_false hb, checked_false]

/-! Registers. -/

/-- A register read stops only where the mark is clear and the policy is to fault (60_exceptions.md R216). -/
theorem Reg.read_error {r : Reg} {policy : UninitPolicy} {p : Place} (hr : r.read policy p = .error f) :
    r.written = false ∧ policy = .fault ∧ f = .uninitRead p := by
  unfold Reg.read at hr
  split at hr
  · simp at hr
  · rename_i hw
    split at hr
    · exact ⟨by simpa using hw, rfl, by simpa using hr.symm⟩
    · simp at hr

/-- A register read that goes on gives the value the register holds. -/
theorem Reg.read_ok {r : Reg} {policy : UninitPolicy} {p : Place} {v : Vec} (hr : r.read policy p = .ok v) :
    v = r.value := by
  unfold Reg.read at hr
  split at hr
  · simpa using hr.symm
  · split at hr
    · simp at hr
    · simpa using hr.symm

@[simp] theorem Reg.read_written (v : Vec) (policy : UninitPolicy) (p : Place) :
    Reg.read ⟨v, true⟩ policy p = .ok v := rfl

theorem State.vr_writeVR_same (s : State) (r : VReg) (v : Vec) : (s.writeVR r v).vr[r] = ⟨v, true⟩ := by
  simp

theorem State.vr_writeVR_other (s : State) {r q : VReg} (v : Vec) (hq : q ≠ r) :
    (s.writeVR r v).vr[q] = s.vr[q] := by
  have : (r : Nat) ≠ q := fun he => hq (Fin.ext he.symm)
  simp [this]

/-- A register just written reads as what was written. -/
@[simp] theorem State.readVR_writeVR_same (s : State) (r : VReg) (v : Vec) : (s.writeVR r v).readVR r = .ok v := by
  unfold State.readVR
  rw [State.vr_writeVR_same]
  rfl

theorem State.readVR_writeVR_other (s : State) {r q : VReg} (v : Vec) (hq : q ≠ r) :
    (s.writeVR r v).readVR q = s.readVR q := by
  unfold State.readVR
  rw [State.vr_writeVR_other s v hq, State.writeVR_params]

/-! Memories. -/

/-- A memory read outside the memory stops; inside it, it stops only at an entry nothing has written where the policy is to
fault (60_exceptions.md R216). -/
theorem Mem.read_error {α : Type} {m : Mem α} {size : Nat} {policy : UninitPolicy} {p : Place} {free : α} {k : Nat}
    (hr : m.read size policy p free k = .error f) :
    (size ≤ k ∧ f = .noSuchEntry p) ∨ (k < size ∧ m.find k = none ∧ policy = .fault ∧ f = .uninitRead p) := by
  unfold Mem.read at hr
  split at hr
  · exact .inl ⟨by assumption, by simpa using hr.symm⟩
  · rename_i hk
    split at hr
    · simp at hr
    · rename_i hn
      split at hr
      · exact .inr ⟨by omega, hn, rfl, by simpa using hr.symm⟩
      · simp at hr

theorem Mem.read_of_find {α : Type} {m : Mem α} {size : Nat} {policy : UninitPolicy} {p : Place} {free : α} {k : Nat}
    {v : α} (hk : k < size) (hf : m.find k = some v) : m.read size policy p free k = .ok v := by
  unfold Mem.read
  rw [if_neg (by omega), hf]

theorem Mem.read_of_none {α : Type} {m : Mem α} {size : Nat} {policy : UninitPolicy} {p : Place} {free : α} {k : Nat}
    (hk : k < size) (hf : m.find k = none) :
    m.read size policy p free k = match policy with
      | .fault => .error (.uninitRead p)
      | .value => .ok free := by
  cases policy <;> simp [Mem.read, Nat.not_le.mpr hk, hf]

theorem Mem.lt_of_read_ok {α : Type} {m : Mem α} {size : Nat} {policy : UninitPolicy} {p : Place} {free : α} {k : Nat}
    {v : α} (hr : m.read size policy p free k = .ok v) : k < size := by
  unfold Mem.read at hr
  split at hr
  · simp at hr
  · omega

/-- An ALPHA entry just written reads as what was written. -/
theorem State.readAlpha_writeAlpha_same (s : State) {k : Nat} (v : Vec) (hk : k ≤ s.params.kmax) :
    (s.writeAlpha k v).readAlpha k = .ok v :=
  Mem.read_of_find (Nat.lt_succ_of_le hk) (Mem.find_write_same _ _ _)

/-- Writing a BM half through the half selector, field by field. -/
@[simp] theorem State.writeBm_lo (s : State) (k : Nat) (v : Vec) : s.writeBm k .lo v = s.writeBmLo k v := rfl

@[simp] theorem State.writeBm_hi (s : State) (k : Nat) (v : Vec) : s.writeBm k .hi v = s.writeBmHi k v := rfl

end Sys2Proof.Machine
end

