-- ==== Sys2Proof/Laws/Lanes.lean ====
section
/-! SUPPORT. The laws of the lane and byte views of a vector: a vector is its lanes and its bytes, and the integer helpers on
16-bit values. -/

namespace Sys2Proof.Machine

/-! The integer helpers. -/

theorem s16_bounds (b : Half16) : -32768 ≤ s16 b ∧ s16 b ≤ 32767 := by
  unfold s16
  constructor
  · have := BitVec.le_toInt b; simpa using this
  · have := BitVec.toInt_lt (x := b); simp at this; omega

theorem s16_u16 {v : Int} (h1 : -32768 ≤ v) (h2 : v ≤ 32767) : s16 (u16 v) = v := by
  unfold s16 u16
  rw [BitVec.toInt_ofInt]
  exact Int.bmod_eq_of_le (by omega) (by omega)

@[simp] theorem u16_s16 (b : Half16) : u16 (s16 b) = b := by
  unfold s16 u16
  exact BitVec.ofInt_toInt

theorem sat16_bounds (v : Int) : -32768 ≤ sat16 v ∧ sat16 v ≤ 32767 := by
  unfold sat16
  omega

theorem sat16_eq_self {v : Int} (h1 : -32768 ≤ v) (h2 : v ≤ 32767) : sat16 v = v := by
  unfold sat16
  omega

theorem sat16_mono {v w : Int} (hvw : v ≤ w) : sat16 v ≤ sat16 w := by
  unfold sat16
  omega

@[simp] theorem s16_u16_sat16 (v : Int) : s16 (u16 (sat16 v)) = sat16 v :=
  s16_u16 (sat16_bounds v).1 (sat16_bounds v).2

/-! Lanes. -/

theorem h_bounds (v : Vec) (i : Nat) : -32768 ≤ h v i ∧ h v i ≤ 32767 := s16_bounds _

@[simp] theorem s16_u16_h (v : Vec) (i : Nat) : s16 (u16 (h v i)) = h v i :=
  s16_u16 (h_bounds v i).1 (h_bounds v i).2

theorem u16_h (v : Vec) (i : Nat) : u16 (h v i) = lane v i := u16_s16 _

theorem lane_ofLanes (f : Nat → Half16) {i : Nat} (hi : i < 8) : lane (ofLanes f) i = f i := by
  unfold lane ofLanes
  apply BitVec.eq_of_getLsbD_eq
  intro j hj
  rw [BitVec.getLsbD_extractLsb']
  simp only [hj, decide_true, Bool.true_and, BitVec.getLsbD_append]
  interval_cases i
  all_goals
    repeat rw [if_neg (by omega)]
    try rw [if_pos (by omega)]
  all_goals
    congr 1
    omega

theorem h_mk8 (f : Nat → Int) {i : Nat} (hi : i < 8) : h (mk8 f) i = s16 (u16 (f i)) := by
  unfold h mk8
  rw [lane_ofLanes _ hi]

/-- A lane of `mk8` is the value it was given, where that is a 16-bit value. -/
theorem h_mk8_of_fits {f : Nat → Int} {i : Nat} (hi : i < 8) (h1 : -32768 ≤ f i) (h2 : f i ≤ 32767) :
    h (mk8 f) i = f i := by
  rw [h_mk8 f hi, s16_u16 h1 h2]

theorem h_bcast8 {v : Int} (h1 : -32768 ≤ v) (h2 : v ≤ 32767) {i : Nat} (hi : i < 8) : h (bcast8 v) i = v := by
  unfold bcast8
  exact h_mk8_of_fits hi h1 h2

@[simp] theorem lane_zero (i : Nat) : lane 0 i = 0 := by
  unfold lane
  apply BitVec.eq_of_getLsbD_eq
  intro j hj
  simp

@[simp] theorem h_zero (i : Nat) : h 0 i = 0 := by
  unfold h
  rw [lane_zero]
  rfl

/-- `h_zero` in the spelling that simp gives the zero vector. -/
@[simp] theorem h_zero_literal (i : Nat) : h 0#128 i = 0 := h_zero i

/-- Two vectors with the same lanes are the same vector. -/
theorem vec_ext {v w : Vec} (hl : ∀ i < 8, lane v i = lane w i) : v = w := by
  apply BitVec.eq_of_getLsbD_eq
  intro j hj
  have hq : j / 16 < 8 := by omega
  have := congrArg (fun b => BitVec.getLsbD b (j % 16)) (hl (j / 16) hq)
  simp only [lane, BitVec.getLsbD_extractLsb'] at this
  have h16 : j % 16 < 16 := Nat.mod_lt _ (by omega)
  simpa [h16, Nat.div_add_mod] using this

theorem lane_eq_of_h_eq {v w : Vec} {i j : Nat} (hh : h v i = h w j) : lane v i = lane w j := by
  rw [← u16_h v i, ← u16_h w j, hh]

/-- Two vectors with the same signed lanes are the same vector. -/
theorem vec_ext_h {v w : Vec} (hl : ∀ i < 8, h v i = h w i) : v = w :=
  vec_ext fun i hi => lane_eq_of_h_eq (hl i hi)

/-! Bytes. -/

theorem byteOf_ofBytes (f : Nat → Byte) {j : Nat} (hj : j < 16) : byteOf (ofBytes f) j = f j := by
  unfold byteOf ofBytes
  apply BitVec.eq_of_getLsbD_eq
  intro n hn
  rw [BitVec.getLsbD_extractLsb']
  simp only [hn, decide_true, Bool.true_and, BitVec.getLsbD_append]
  interval_cases j
  all_goals
    iterate 15 try rw [if_neg (by omega)]
    try rw [if_pos (by omega)]
  all_goals exact congrArg _ (by omega)

/-- A lane is its two bytes, the low one first (20_memory.md R61). -/
theorem lane_eq_bytes (v : Vec) (i : Nat) : lane v i = byteOf v (2 * i + 1) ++ byteOf v (2 * i) := by
  unfold lane byteOf
  apply BitVec.eq_of_getLsbD_eq
  intro n hn
  simp only [BitVec.getLsbD_extractLsb', BitVec.getLsbD_append, hn, decide_true, Bool.true_and]
  by_cases h8 : n < 8
  · simp only [h8, if_true, decide_true, Bool.true_and]
    congr 1
    omega
  · have : n - 8 < 8 := by omega
    simp only [h8, if_false, this, decide_true, Bool.true_and]
    congr 1
    omega

end Sys2Proof.Machine
end

