-- ==== Sys2Proof/Laws/Primitives.lean ====
section
/-! SUPPORT. What each primitive puts in each lane (40_vector.md R111 to R125), and what the two horizontal searches find. -/

namespace Sys2Proof.Machine

variable {i j : Nat}

theorem h_vadds (a b : Vec) (hi : i < 8) : h (vadds a b) i = sat16 (h a i + h b i) := by
  rw [vadds, h_mk8 _ hi, s16_u16_sat16]

theorem h_vsubs (a b : Vec) (hi : i < 8) : h (vsubs a b) i = sat16 (h a i - h b i) := by
  rw [vsubs, h_mk8 _ hi, s16_u16_sat16]

theorem h_vmax (a b : Vec) (hi : i < 8) : h (vmax a b) i = max (h a i) (h b i) := by
  have ha := h_bounds a i
  have hb := h_bounds b i
  exact h_mk8_of_fits hi (by omega) (by omega)

theorem asr_bounds {v : Int} (n : Nat) (h1 : -32768 ≤ v) (h2 : v ≤ 32767) : -32768 ≤ asr v n ∧ asr v n ≤ 32767 := by
  unfold asr
  have hp : (0 : Int) < ((2 ^ n : Nat) : Int) := by positivity
  have hp1 : (1 : Int) ≤ ((2 ^ n : Nat) : Int) := hp
  constructor
  · rw [Int.le_ediv_iff_mul_le hp]
    nlinarith
  · have : v / ((2 ^ n : Nat) : Int) < 32768 := by
      rw [Int.ediv_lt_iff_lt_mul hp]
      nlinarith
    omega

theorem h_vsra (a : Vec) (n : Nat) (hi : i < 8) : h (vsra a n) i = asr (h a i) (min n 15) := by
  have hb := asr_bounds (min n 15) (h_bounds a i).1 (h_bounds a i).2
  exact h_mk8_of_fits hi hb.1 hb.2

theorem signNeg_bounds (pm : PsignMin) (v : Int) : -32768 ≤ signNeg pm v ∧ signNeg pm v ≤ 32767 := by
  cases pm
  · exact sat16_bounds _
  · exact s16_bounds _

/-- The negation of VSIGN is exact but at -32768 (R113). -/
theorem signNeg_eq_neg (pm : PsignMin) {v : Int} (h1 : -32768 < v) (h2 : v ≤ 32767) : signNeg pm v = -v := by
  cases pm
  · exact sat16_eq_self (by omega) (by omega)
  · exact s16_u16 (by omega) (by omega)

theorem h_vsign (pm : PsignMin) (a p : Vec) (hi : i < 8) :
    h (vsign pm a p) i = if h p i > 0 then h a i else if h p i < 0 then signNeg pm (h a i) else 0 := by
  have ha := h_bounds a i
  have hn := signNeg_bounds pm (h a i)
  refine h_mk8_of_fits hi ?_ ?_ <;> split <;> try split
  all_goals omega

theorem h_vilo (a b : Vec) (hj : j < 8) : h (vilo a b) j = if j % 2 = 0 then h a (j / 2) else h b (j / 2) := by
  have ha := h_bounds a (j / 2)
  have hb := h_bounds b (j / 2)
  refine h_mk8_of_fits hj ?_ ?_ <;> split <;> omega

theorem h_vihi (a b : Vec) (hj : j < 8) :
    h (vihi a b) j = if j % 2 = 0 then h a (4 + j / 2) else h b (4 + j / 2) := by
  have ha := h_bounds a (4 + j / 2)
  have hb := h_bounds b (4 + j / 2)
  refine h_mk8_of_fits hj ?_ ?_ <;> split <;> omega

theorem h_vl0b (a : Vec) (hi : i < 8) : h (vl0b a) i = h a 0 :=
  h_bcast8 (h_bounds a 0).1 (h_bounds a 0).2 hi

theorem h_vsh32 (a : Vec) (imm : Byte) (hj : j < 8) :
    h (vsh32 a imm) j = h a (2 * selector imm (j / 2) + j % 2) :=
  h_mk8_of_fits hj (h_bounds _ _).1 (h_bounds _ _).2

theorem h_vsh16l (a : Vec) (imm : Byte) (hi : i < 8) :
    h (vsh16l a imm) i = if i < 4 then h a (selector imm i) else h a i := by
  refine h_mk8_of_fits hi ?_ ?_ <;> split <;> first | exact (h_bounds _ _).1 | exact (h_bounds _ _).2

theorem h_vsh16h (a : Vec) (imm : Byte) (hi : i < 8) :
    h (vsh16h a imm) i = if i < 4 then h a i else h a (4 + selector imm (i - 4)) := by
  refine h_mk8_of_fits hi ?_ ?_ <;> split <;> first | exact (h_bounds _ _).1 | exact (h_bounds _ _).2

theorem h_vins (r : Vec) (n : Nat) {v : Int} (h1 : -32768 ≤ v) (h2 : v ≤ 32767) (hi : i < 8) :
    h (vins r n v) i = if i = n then v else h r i := by
  have hr := h_bounds r i
  refine h_mk8_of_fits hi ?_ ?_ <;> split <;> omega

theorem byteOf_vbshuf (t x : Vec) (hj : j < 16) :
    byteOf (vbshuf t x) j = if s8 (byteOf x j) < 0 then 0 else byteOf t ((s8 (byteOf x j)).toNat % 16) :=
  byteOf_ofBytes _ hj

/-- A selector is one of the four groups or lanes (30_encoding.md R84). -/
theorem selector_lt (imm : Byte) (i : Nat) : selector imm i < 4 := by
  unfold selector
  exact BitVec.isLt _

/-- An index byte below 128 is the table index mod 16. -/
theorem byteOf_vbshuf_of_lt {t x : Vec} (hj : j < 16) (hx : (byteOf x j).toNat < 128) :
    byteOf (vbshuf t x) j = byteOf t ((byteOf x j).toNat % 16) := by
  have h8 : s8 (byteOf x j) = ((byteOf x j).toNat : Int) := by
    unfold s8
    rw [BitVec.toInt_eq_toNat_of_lt (by omega)]
  rw [byteOf_vbshuf t x hj, h8, if_neg (by omega), Int.toNat_natCast]

/-- An index byte of 128 or more is negative and gives 0. -/
theorem byteOf_vbshuf_of_ge {t x : Vec} (hj : j < 16) (hx : 128 ≤ (byteOf x j).toNat) :
    byteOf (vbshuf t x) j = 0 := by
  have hlt : (byteOf x j).toNat < 256 := (byteOf x j).isLt
  have h8 : s8 (byteOf x j) < 0 := by
    unfold s8
    rw [BitVec.toInt_eq_toNat_cond]
    split <;> omega
  rw [byteOf_vbshuf t x hj, if_pos h8]

/-- A shuffle whose index pair at lane i is (2L, 2L+1) moves the whole lane L to lane i (R119; 10_state.md R34). -/
theorem lane_vbshuf {t x : Vec} {L : Nat} (hi : i < 8) (hL : L < 8) (h0 : (byteOf x (2 * i)).toNat = 2 * L)
    (h1 : (byteOf x (2 * i + 1)).toNat = 2 * L + 1) : lane (vbshuf t x) i = lane t L := by
  rw [lane_eq_bytes, lane_eq_bytes t L, byteOf_vbshuf_of_lt (by omega) (by omega),
    byteOf_vbshuf_of_lt (by omega) (by omega), h0, h1, Nat.mod_eq_of_lt (by omega), Nat.mod_eq_of_lt (by omega)]

/-! The horizontal searches. -/

/-- A left-to-right search that keeps a better value keeps the best one, at the least place. -/
theorem foldl_best_spec {β : Type} [LinearOrder β] (f : Nat → β) (n k : Nat) (best : β × Nat) (hk : best.2 < k)
    (hf : f best.2 = best.1) (hle : ∀ i < k, f i ≤ best.1) (hlt : ∀ i < best.2, f i < best.1) :
    let r := (List.range' k n).foldl (fun best i => if best.1 < f i then (f i, i) else best) best
    r.2 < k + n ∧ f r.2 = r.1 ∧ (∀ i < k + n, f i ≤ r.1) ∧ ∀ i < r.2, f i < r.1 := by
  induction n generalizing k best with
  | zero => simpa using ⟨hk, hf, hle, hlt⟩
  | succ n ih =>
    have hkn : k + (n + 1) = (k + 1) + n := by omega
    rw [List.range'_succ, List.foldl_cons, hkn]
    split
    · rename_i hbetter
      refine ih (k + 1) (f k, k) (by simp) rfl ?_ ?_
      · intro i hik
        rcases Nat.lt_succ_iff_lt_or_eq.1 hik with h | h
        · exact (hle i h).trans hbetter.le
        · simp [h]
      · intro i hik
        exact (hle i hik).trans_lt hbetter
    · rename_i hworse
      refine ih (k + 1) best (by omega) hf ?_ hlt
      intro i hik
      rcases Nat.lt_succ_iff_lt_or_eq.1 hik with h | h
      · exact hle i h
      · rw [h]
        exact not_lt.1 hworse

/-- HMAX finds the greatest lane, and the least lane that has it (41_forward.md R141). -/
theorem hmax_spec (v : Vec) :
    (hmax v).2 < 8 ∧ h v (hmax v).2 = (hmax v).1 ∧ (∀ i < 8, h v i ≤ (hmax v).1) ∧ ∀ i < (hmax v).2, h v i < (hmax v).1 :=
  foldl_best_spec (h v) 7 1 (h v 0, 0) (by simp) rfl (by intro i hi; simp [Nat.lt_one_iff.1 hi]) (by simp)

/-- The least value of f over the lanes 0..7, and the least lane that has it (40_vector.md R122). -/
theorem leastLane_spec (f : Nat → Nat) :
    (leastLane f).2 < 8 ∧ f (leastLane f).2 = (leastLane f).1 ∧ (∀ i < 8, (leastLane f).1 ≤ f i) ∧
      ∀ i < (leastLane f).2, (leastLane f).1 < f i :=
  foldl_best_spec (β := Natᵒᵈ) f 7 1 (f 0, 0) (by simp) rfl
    (by intro i hi; obtain rfl := Nat.lt_one_iff.1 hi; exact le_rfl) (by simp)

/-- The greatest lane is unique. -/
theorem hmax_eq_of_greatest {v : Vec} {m : Int} (hle : ∀ i < 8, h v i ≤ m) (hex : ∃ i < 8, h v i = m) :
    (hmax v).1 = m := by
  obtain ⟨hi, he, hmax, -⟩ := hmax_spec v
  obtain ⟨i, hi8, rfl⟩ := hex
  exact le_antisymm (he ▸ hle _ hi) (hmax i hi8)

theorem hmax_bounds (v : Vec) : -32768 ≤ (hmax v).1 ∧ (hmax v).1 ≤ 32767 := by
  rw [← (hmax_spec v).2.1]
  exact h_bounds _ _

/-- VHMIN's lanes (R122). -/
theorem h_vhmin (a : Vec) (hj : j < 8) :
    h (vhmin a) j =
      if j = 0 then s16 (BitVec.ofNat 16 (leastLane fun i => (lane a i).toNat).1)
      else if j = 1 then ((leastLane fun i => (lane a i).toNat).2 : Int) else 0 := by
  have hs := leastLane_spec fun i => (lane a i).toNat
  unfold vhmin
  rw [h_mk8 _ hj]
  split
  · unfold u16
    rw [BitVec.ofInt_natCast]
  · split
    · exact s16_u16 (by omega) (by omega)
    · rfl

end Sys2Proof.Machine
end

