-- ==== Sys2Proof/Laws/Exec.lean ====
section
/-! SUPPORT. Everything a command can do, said once: if `exec` answers a next state, the command's check failed and it took
its error, or it passed and had one of a few effects. Every invariant follows from this, with no meaning unfolded again. -/

namespace Sys2Proof.Machine

variable {s t : State}

/-- The effect of a command that passes its check. -/
inductive Effect (s : State) : Instr → State → Prop where
  | nop : Effect s .nop s
  | setk {k : Nat} (hk : k ≤ s.params.kmax) : Effect s (.setk k) (s.setKptr k)
  | vr {i : Instr} {vd : VReg} (v : Vec) (hvd : vrWrittenBy i = some vd) : Effect s i (s.writeVR vd v)
  | sta {va : VReg} {k : Nat} {v : Vec} (hk : k ≤ s.params.kmax) (hv : s.readVR va = .ok v) :
      Effect s (.sta va k) (s.writeAlpha k v)
  | stbm {va : VReg} {k : Nat} {half : BmHalf} {v : Vec} (hk : k < s.params.kmax) (hv : s.readVR va = .ok v) :
      Effect s (.stbm va k half) (s.writeBm k half v)
  | stb {va : VReg} {v : Vec} (hv : s.readVR va = .ok v) : Effect s (.stb va) (s.writeBeta v)
  | fwd {x z le : Int} {a : Vec} (hk : s.kptr.toNat < s.params.kmax) (ha : s.readAlpha s.kptr.toNat = .ok a) :
      Effect s (.fwd x z le) (fwdCommit s s.kptr.toNat a x z le)
  | bwd {z norm : Int} {blo bhi a b : Vec} (hk : s.kptr.toNat ≠ 0)
      (hlo : s.readBm (s.kptr.toNat - 1) .lo = .ok blo) (hhi : s.readBm (s.kptr.toNat - 1) .hi = .ok bhi)
      (ha : s.readAlpha (s.kptr.toNat - 1) = .ok a) (hb : s.readBeta = .ok b) :
      Effect s (.bwd z norm) (bwdCommit s (s.kptr.toNat - 1) blo bhi a b z norm)

/-- A checked command either takes its error or runs. -/
theorem checked_next {bad : Prop} [Decidable bad] {c : ErrorCode} {i : Instr} {run : State → Result}
    (hc : checked (decide bad) c i run s = .next t) :
    (bad ∧ t = s.raiseError c (encode i)) ∨ (¬ bad ∧ run s = .next t) := by
  by_cases hb : bad
  · rw [decide_eq_true hb, checked_true] at hc
    exact .inl ⟨hb, by simpa using hc.symm⟩
  · rw [decide_eq_false hb, checked_false] at hc
    exact .inr ⟨hb, hc⟩

/-- What a command can do, if it answers a next state. -/
theorem exec_next {i : Instr} (he : exec i s = .next t) :
    (∃ c, commandCheck s.params.kmax s.kptr.toNat i = some c ∧ t = s.raiseError c (encode i)) ∨
      (commandCheck s.params.kmax s.kptr.toNat i = none ∧ Effect s i t) := by
  cases i
  case nop =>
    simp only [exec, execNop, Host.Outcome.next.injEq] at he
    subst he
    exact .inr ⟨rfl, .nop⟩
  case setk k =>
    simp only [exec, execSetk] at he
    rcases checked_next he with ⟨hb, rfl⟩ | ⟨hb, he⟩
    · exact .inl ⟨.stageRange, by simp [commandCheck, hb], rfl⟩
    · obtain rfl : s.setKptr k = t := by simpa using he
      exact .inr ⟨by simp [commandCheck, hb], .setk (by omega)⟩
  case vzero vd =>
    obtain rfl : s.writeVR vd 0 = t := by simpa [exec, execVzero] using he
    exact .inr ⟨rfl, .vr _ rfl⟩
  case vbcast vd v =>
    obtain rfl : s.writeVR vd (bcast8 v) = t := by simpa [exec, execVbcast] using he
    exact .inr ⟨rfl, .vr _ rfl⟩
  case ldc vd c =>
    simp only [exec, execLdc] at he
    rcases checked_next he with ⟨hb, rfl⟩ | ⟨hb, he⟩
    · exact .inl ⟨.constRange, by simp [commandCheck, hb], rfl⟩
    · obtain rfl : s.writeVR vd (romEntry s.params.trellis c) = t := by simpa using he
      exact .inr ⟨by simp [commandCheck, hb], .vr _ rfl⟩
  case lda vd k =>
    simp only [exec, execLda] at he
    rcases checked_next he with ⟨hb, rfl⟩ | ⟨hb, he⟩
    · exact .inl ⟨.stageRange, by simp [commandCheck, hb], rfl⟩
    · obtain ⟨v, -, he⟩ := withRead_next he
      obtain rfl : s.writeVR vd v = t := by simpa using he
      exact .inr ⟨by simp [commandCheck, hb], .vr _ rfl⟩
  case sta va k =>
    simp only [exec, execSta] at he
    rcases checked_next he with ⟨hb, rfl⟩ | ⟨hb, he⟩
    · exact .inl ⟨.stageRange, by simp [commandCheck, hb], rfl⟩
    · obtain ⟨v, hv, he⟩ := withRead_next he
      obtain rfl : s.writeAlpha k v = t := by simpa using he
      exact .inr ⟨by simp [commandCheck, hb], .sta (by omega) hv⟩
  case ldbm vd k half =>
    simp only [exec, execLdbm] at he
    rcases checked_next he with ⟨hb, rfl⟩ | ⟨hb, he⟩
    · exact .inl ⟨.stageRange, by simp [commandCheck, hb], rfl⟩
    · obtain ⟨v, -, he⟩ := withRead_next he
      obtain rfl : s.writeVR vd v = t := by simpa using he
      exact .inr ⟨by simp [commandCheck, hb], .vr _ rfl⟩
  case stbm va k half =>
    simp only [exec, execStbm] at he
    rcases checked_next he with ⟨hb, rfl⟩ | ⟨hb, he⟩
    · exact .inl ⟨.stageRange, by simp [commandCheck, hb], rfl⟩
    · obtain ⟨v, hv, he⟩ := withRead_next he
      obtain rfl : s.writeBm k half v = t := by simpa using he
      exact .inr ⟨by simp [commandCheck, hb], .stbm (by omega) hv⟩
  case ldb vd =>
    obtain ⟨v, -, he⟩ := withRead_next he
    obtain rfl : s.writeVR vd v = t := by simpa using he
    exact .inr ⟨rfl, .vr _ rfl⟩
  case stb va =>
    obtain ⟨v, hv, he⟩ := withRead_next he
    obtain rfl : s.writeBeta v = t := by simpa using he
    exact .inr ⟨rfl, .stb hv⟩
  case fwd x z le =>
    simp only [exec, execFwd] at he
    rcases checked_next he with ⟨hb, rfl⟩ | ⟨hb, he⟩
    · exact .inl ⟨.stageRange, by simp [commandCheck, hb], rfl⟩
    · obtain ⟨a, ha, he⟩ := withRead_next he
      obtain rfl : fwdCommit s s.kptr.toNat a x z le = t := by simpa using he
      exact .inr ⟨by simp [commandCheck, hb], .fwd (by omega) ha⟩
  case bwd z norm =>
    simp only [exec, execBwd] at he
    rcases checked_next he with ⟨hb, rfl⟩ | ⟨hb, he⟩
    · exact .inl ⟨.stageRange, by simp [commandCheck, hb], rfl⟩
    · obtain ⟨blo, hlo, he⟩ := withRead_next he
      obtain ⟨bhi, hhi, he⟩ := withRead_next he
      obtain ⟨a, ha, he⟩ := withRead_next he
      obtain ⟨b, hb', he⟩ := withRead_next he
      obtain rfl : bwdCommit s (s.kptr.toNat - 1) blo bhi a b z norm = t := by simpa using he
      exact .inr ⟨by simp [commandCheck, hb], .bwd hb hlo hhi ha hb'⟩
  all_goals
    first
      | obtain ⟨a, -, rfl⟩ := unary_next he
        exact .inr ⟨rfl, .vr _ rfl⟩
      | obtain ⟨a, b, -, -, rfl⟩ := binary_next he
        exact .inr ⟨rfl, .vr _ rfl⟩

/-- A command whose check fails takes its error, whatever it would read (60_exceptions.md R211, R214). -/
theorem exec_of_check {i : Instr} {c : ErrorCode} (hc : commandCheck s.params.kmax s.kptr.toNat i = some c) :
    exec i s = .next (s.raiseError c (encode i)) := by
  cases i <;> simp only [commandCheck, reduceCtorEq] at hc <;> split at hc <;>
    simp_all [exec, execSetk, execLdc, execLda, execSta, execLdbm, execStbm, execFwd, execBwd]

/-- The words of the two ports and the parameters are no command's to write. -/
theorem Effect.keepsHost {i : Instr} (he : Effect s i t) : keepsHost s t := by
  cases he <;> try exact ⟨rfl, rfl, rfl⟩
  rename_i half _ _ _
  cases half <;> exact ⟨rfl, rfl, rfl⟩

/-- A command that passes its check leaves STATUS and ERRCMD alone (10_state.md R26). -/
theorem Effect.status_errcmd {i : Instr} (he : Effect s i t) : t.status = s.status ∧ t.errcmd = s.errcmd := by
  cases he <;> try exact ⟨rfl, rfl⟩
  rename_i half _ _ _
  cases half <;> exact ⟨rfl, rfl⟩

/-- A command that only writes a vector register writes nothing else (40_vector.md R110). -/
theorem wroteOnlyVR_writeVR (s : State) (vd : VReg) (v : Vec) : wroteOnlyVR vd v s (s.writeVR vd v) :=
  ⟨State.vr_writeVR_same s vd v, fun _ hr => State.vr_writeVR_other s v hr, rfl, ⟨rfl, rfl, rfl, rfl⟩,
    ⟨fun _ _ => rfl, fun _ _ => rfl, fun _ _ => rfl, fun _ _ => rfl⟩, ⟨rfl, rfl, rfl⟩⟩

end Sys2Proof.Machine
end

