-- ==== Sys2Proof/Laws/PerInstr.lean ====
section
/-! SUPPORT. One lemma per constructor of Instr: the word of every command carries its own opcode and nothing in the bits its
row reserves, whatever the operands (30_encoding.md R82, R85, R86). -/

namespace Sys2Proof.Laws.OpcodeRow

/-- The word of the command selects a row of the opcode map and matches it under the row's mask. -/
def Statement (i : Instr) : Prop :=
  ∃ r, rowOf (opField (encode i)) = some r ∧ encode i &&& r.mask = r.pattern

/-- A word with this opcode and these reserved bits selects its row. -/
theorem of_fields {w : CmdWord} {op : Byte} {r : OpcodeRow} (ho : opField w = op) (hr : rowOf op = some r)
    (hm : w &&& r.mask = r.pattern) : ∃ r, rowOf (opField w) = some r ∧ w &&& r.mask = r.pattern :=
  ⟨r, ho ▸ hr, hm⟩

theorem nop : Statement (.nop) :=
  of_fields (opField_encN _) rfl (mask_encN _)

theorem setk (k : Nat) : Statement (.setk k) :=
  of_fields (opField_encK _ _) rfl (mask_encK _ _)

theorem vzero (vd : VReg) : Statement (.vzero vd) :=
  of_fields (opField_encD _ _) rfl (mask_encD _ _)

theorem vbcast (vd : VReg) (v : Int) : Statement (.vbcast vd v) :=
  of_fields (opField_encDI _ _ _) rfl (mask_encDI _ _ _)

theorem vsign (vd : VReg) (va : VReg) (vb : VReg) : Statement (.vsign vd va vb) :=
  of_fields (opField_encRRR _ _ _ _) rfl (mask_encRRR _ _ _ _)

theorem vsra (vd : VReg) (va : VReg) (n : Nat) : Statement (.vsra vd va n) :=
  of_fields (opField_encRI16 _ _ _ _) rfl (mask_encRI16 _ _ _ _)

theorem vadds (vd : VReg) (va : VReg) (vb : VReg) : Statement (.vadds vd va vb) :=
  of_fields (opField_encRRR _ _ _ _) rfl (mask_encRRR _ _ _ _)

theorem vsubs (vd : VReg) (va : VReg) (vb : VReg) : Statement (.vsubs vd va vb) :=
  of_fields (opField_encRRR _ _ _ _) rfl (mask_encRRR _ _ _ _)

theorem vilo (vd : VReg) (va : VReg) (vb : VReg) : Statement (.vilo vd va vb) :=
  of_fields (opField_encRRR _ _ _ _) rfl (mask_encRRR _ _ _ _)

theorem vihi (vd : VReg) (va : VReg) (vb : VReg) : Statement (.vihi vd va vb) :=
  of_fields (opField_encRRR _ _ _ _) rfl (mask_encRRR _ _ _ _)

theorem vbshuf (vd : VReg) (va : VReg) (vb : VReg) : Statement (.vbshuf vd va vb) :=
  of_fields (opField_encRRR _ _ _ _) rfl (mask_encRRR _ _ _ _)

theorem vl0b (vd : VReg) (va : VReg) : Statement (.vl0b vd va) :=
  of_fields (opField_encRR _ _ _) rfl (mask_encRR _ _ _)

theorem vmax (vd : VReg) (va : VReg) (vb : VReg) : Statement (.vmax vd va vb) :=
  of_fields (opField_encRRR _ _ _ _) rfl (mask_encRRR _ _ _ _)

theorem vhmin (vd : VReg) (va : VReg) : Statement (.vhmin vd va) :=
  of_fields (opField_encRR _ _ _) rfl (mask_encRR _ _ _)

theorem vsh32 (vd : VReg) (va : VReg) (sel : Byte) : Statement (.vsh32 vd va sel) :=
  of_fields (opField_encRI8 _ _ _ _) rfl (mask_encRI8 _ _ _ _)

theorem vsh16l (vd : VReg) (va : VReg) (sel : Byte) : Statement (.vsh16l vd va sel) :=
  of_fields (opField_encRI8 _ _ _ _) rfl (mask_encRI8 _ _ _ _)

theorem vsh16h (vd : VReg) (va : VReg) (sel : Byte) : Statement (.vsh16h vd va sel) :=
  of_fields (opField_encRI8 _ _ _ _) rfl (mask_encRI8 _ _ _ _)

theorem vins (vd : VReg) (lane : Fin 8) (v : Int) : Statement (.vins vd lane v) :=
  of_fields (opField_encDL _ _ _ _) rfl (mask_encDL _ _ _ _)

theorem ldc (vd : VReg) (c : Nat) : Statement (.ldc vd c) :=
  of_fields (opField_encDI _ _ _) rfl (mask_encDI _ _ _)

theorem lda (vd : VReg) (k : Nat) : Statement (.lda vd k) :=
  of_fields (opField_encMD _ _ _) rfl (mask_encMD _ _ _)

theorem sta (va : VReg) (k : Nat) : Statement (.sta va k) :=
  of_fields (opField_encMA _ _ _) rfl (mask_encMA _ _ _)

theorem ldbm (vd : VReg) (k : Nat) (half : BmHalf) : Statement (.ldbm vd k half) :=
  of_fields (opField_encMDH _ _ _ _) rfl (mask_encMDH _ _ _ _)

theorem stbm (va : VReg) (k : Nat) (half : BmHalf) : Statement (.stbm va k half) :=
  of_fields (opField_encMAH _ _ _ _) rfl (mask_encMAH _ _ _ _)

theorem ldb (vd : VReg) : Statement (.ldb vd) :=
  of_fields (opField_encD _ _) rfl (mask_encD _ _)

theorem stb (va : VReg) : Statement (.stb va) :=
  of_fields (opField_encA _ _) rfl (mask_encA _ _)

theorem fwd (x : Int) (z : Int) (le : Int) : Statement (.fwd x z le) :=
  of_fields (opField_encF _ _ _ _) rfl (mask_encF _ _ _ _)

theorem bwd (z : Int) (norm : Int) : Statement (.bwd z norm) :=
  of_fields (opField_encB _ _ _) rfl (mask_encB _ _ _)

end Sys2Proof.Laws.OpcodeRow
end

