-- ==== Sys2Proof/Laws/Step.lean ====
section
/-! SUPPORT. Everything a step can do, said once. -/

namespace Sys2Proof.Machine

variable {s t : State}

/-- What a command word on the port does, if it answers a next state (60_exceptions.md R212, R213; 30_encoding.md R89). -/
theorem runWord_next {w : CmdWord} (hr : runWord w s = .next t) :
    (s.halted = true ∧ t = s) ∨
      (s.halted = false ∧ ∃ e, decode w = .error e ∧ t = s.raiseError (codeOf e) w) ∨
      (s.halted = false ∧ ∃ i, decode w = .ok i ∧ exec i s = .next t) := by
  unfold runWord at hr
  split at hr
  · rename_i hh
    exact .inl ⟨hh, by simpa using hr.symm⟩
  · rename_i hh
    have hh' : s.halted = false := by simpa using hh
    split at hr
    · rename_i e he
      exact .inr (.inl ⟨hh', e, he, by simpa using hr.symm⟩)
    · rename_i i hi
      exact .inr (.inr ⟨hh', i, hi, hr⟩)

/-- What a step does, if it answers a next state: idle, a command word, a host read, or reset. -/
theorem step_next (hs : step s = .next t) :
    (s.inbox = [] ∧ t = s) ∨
      (∃ w rest, s.inbox = .command w :: rest ∧ runWord w { s with inbox := rest } = .next t) ∨
      (∃ a rest v, s.inbox = .read a :: rest ∧ State.readPort { s with inbox := rest } a = .ok v ∧
        t = { s with inbox := rest, outbox := s.outbox ++ [v] }) ∨
      (∃ rest, s.inbox = .reset :: rest ∧ t = State.applyReset { s with inbox := rest }) := by
  unfold step takeEvent at hs
  split at hs
  · rename_i hi
    exact .inl ⟨hi, by simpa using hs.symm⟩
  · rename_i e rest hi
    cases e with
    | command w => exact .inr (.inl ⟨w, rest, hi, hs⟩)
    | read a =>
      obtain ⟨v, hv, hk⟩ := withRead_next hs
      exact .inr (.inr (.inl ⟨a, rest, v, hi, hv, by simpa using hk.symm⟩))
    | reset => exact .inr (.inr (.inr ⟨rest, hi, by simpa [hostEvent] using hs.symm⟩))

theorem step_of_command {w : CmdWord} {rest : List HostEvent} (hi : s.inbox = .command w :: rest) :
    step s = runWord w { s with inbox := rest } := by
  simp [step, takeEvent, hi, hostEvent]

/-- The host's pending events do not show at the read port. -/
@[simp] theorem readPort_inbox (s : State) (rest : List HostEvent) (a : Half16) :
    State.readPort { s with inbox := rest } a = s.readPort a := rfl

/-- A word that decodes runs its command (30_encoding.md R89). -/
theorem runWord_of_decode {w : CmdWord} {i : Instr} (hh : s.halted = false) (hd : decode w = .ok i) :
    runWord w s = exec i s := by
  simp [runWord, hh, hd]

theorem runWord_of_error {w : CmdWord} {e : DecodeError} (hh : s.halted = false) (hd : decode w = .error e) :
    runWord w s = .next (s.raiseError (codeOf e) w) := by
  simp [runWord, hh, hd]

end Sys2Proof.Machine
end

