-- ==== Sys2Proof/Machine/Assembler.lean ====
section
/-! DEFINITION. The assembler syntax (30_encoding.md R90) with the pseudo-instructions (R91): one line of text to the commands
it stands for. It is the host's notation; no step of CORE depends on it. Log 18. -/

namespace Sys2Proof.Machine

/-- One operand as it is written (R90). -/
inductive Operand where
  /-- `VRn`. -/
  | reg (r : VReg)
  /-- A decimal immediate, optionally signed. -/
  | dec (v : Int)
  /-- A `0x` hexadecimal immediate. -/
  | hex (n : Nat)
  /-- A ROM index written by name. -/
  | rom (c : Fin 7)
  deriving DecidableEq, Repr

/-- The digits of R90's immediates, each at the index that is its value; the ten of a decimal immediate come first. -/
def digits : List Char := "0123456789ABCDEF".toList

/-- The value of a digit: where it stands in `digits`, a letter in either case (log 18). -/
def digitOf (c : Char) : Option Nat := digits.idxOf? c.toUpper

/-- Digits in a base, most significant first, going on from `acc`. -/
def digitsFrom (base : Nat) : Nat → List Char → Option Nat
  | acc, [] => some acc
  | acc, c :: cs =>
    match digitOf c with
    | none => none
    | some d => if d < base then digitsFrom base (acc * base + d) cs else none

/-- A number of at least one digit. -/
def numberOf (base : Nat) (cs : List Char) : Option Nat := if cs.isEmpty then none else digitsFrom base 0 cs

/-- Text without blanks at either end. -/
def trimBlanks (cs : List Char) : List Char :=
  ((cs.dropWhile Char.isWhitespace).reverse.dropWhile Char.isWhitespace).reverse

/-- The pieces of a text between commas. -/
def splitCommas : List Char → List (List Char)
  | [] => [[]]
  | c :: cs =>
    match splitCommas cs with
    | [] => [[c]]
    | p :: ps => if c = ',' then [] :: p :: ps else (c :: p) :: ps

/-- The names of the ROM entries, in index order (10_state.md R34; 30_encoding.md R90). -/
def romNames : List (List Char × Fin 7) :=
  [("SYS_POL".toList, 0), ("PAR_POL".toList, 1), ("BWPAR_POL".toList, 2), ("FGATHER0".toList, 3),
    ("FGATHER1".toList, 4), ("LGATHER0".toList, 5), ("LGATHER1".toList, 6)]

/-- One operand (R90). -/
def operandOf (cs : List Char) : Option Operand :=
  match (romNames.find? fun e => e.1 == cs) with
  | some e => some (.rom e.2)
  | none =>
    match cs with
    | 'V' :: 'R' :: ds =>
      (numberOf 10 ds).bind fun n => if g : n < 16 then some (.reg ⟨n, g⟩) else none
    | '0' :: 'x' :: ds => (numberOf 16 ds).map .hex
    | '-' :: ds => (numberOf 10 ds).map fun n => .dec (-(n : Int))
    | '+' :: ds => (numberOf 10 ds).map fun n => .dec n
    | ds => (numberOf 10 ds).map fun n => .dec n

/-- A signed 16-bit scalar: a decimal in range, or a hexadecimal 16-bit pattern (R84, R90, log 18). -/
def asScalar : Operand → Option Int
  | .dec v => if fitsS16 v then some v else none
  | .hex n => if n < 65536 then some (s16 (BitVec.ofNat 16 n)) else none
  | _ => none

/-- An unsigned immediate below a bound (R84, R90). -/
def asIndex (bound : Nat) : Operand → Option Nat
  | .dec v => if 0 ≤ v ∧ v.toNat < bound then some v.toNat else none
  | .hex n => if n < bound then some n else none
  | _ => none

/-- A ROM index, by name or by number (R90). -/
def asRomIndex : Operand → Option Nat
  | .rom c => some c.val
  | o => asIndex 65536 o

/-- A BM half: 0 is lo, 1 is hi (R81, R90). -/
def asHalf (o : Operand) : Option BmHalf :=
  (asIndex 2 o).map fun n => if n = 0 then .lo else .hi

/-- A lane number (R81, R90). -/
def asLane (o : Operand) : Option (Fin 8) :=
  (asIndex 8 o).map fun n => Fin.ofNat 8 n

/-- A register operand. -/
def asReg : Operand → Option VReg
  | .reg r => some r
  | _ => none

/-- `OP VRd, VRa, VRb`. -/
def three (f : VReg → VReg → VReg → Instr) : List Operand → Option (List Instr)
  | [.reg d, .reg a, .reg b] => some [f d a b]
  | _ => none

/-- `OP VRd, VRa`. -/
def two (f : VReg → VReg → Instr) : List Operand → Option (List Instr)
  | [.reg d, .reg a] => some [f d a]
  | _ => none

/-- `OP VRd, VRa, sel`. -/
def twoSel (f : VReg → VReg → Byte → Instr) : List Operand → Option (List Instr)
  | [.reg d, .reg a, o] => (asIndex 256 o).map fun n => [f d a (BitVec.ofNat 8 n)]
  | _ => none

/-- `OP VRr`. -/
def one (f : VReg → Instr) : List Operand → Option (List Instr)
  | [.reg r] => some [f r]
  | _ => none

/-- `VSET VRd, l0, …, l7`. -/
def vsetLine : List Operand → Option (List Instr)
  | [.reg d, o0, o1, o2, o3, o4, o5, o6, o7] => do
    let l0 ← asScalar o0
    let l1 ← asScalar o1
    let l2 ← asScalar o2
    let l3 ← asScalar o3
    let l4 ← asScalar o4
    let l5 ← asScalar o5
    let l6 ← asScalar o6
    let l7 ← asScalar o7
    return (Pseudo.vset d #v[l0, l1, l2, l3, l4, l5, l6, l7]).expand
  | _ => none

/-- The mnemonics of the vector and sequencing commands with their operand orders (R90). -/
def vectorLines : List (String × (List Operand → Option (List Instr))) :=
  [ ("NOP", fun os => if os.isEmpty then some [.nop] else none),
    ("SETK", fun | [o] => (asIndex 65536 o).map fun k => [.setk k] | _ => none),
    ("VZERO", one .vzero),
    ("VBCAST", fun | [.reg d, o] => (asScalar o).map fun v => [.vbcast d v] | _ => none),
    ("VSIGN", three .vsign),
    ("VSRA", fun | [.reg d, .reg a, o] => (asIndex 65536 o).map fun n => [.vsra d a n] | _ => none),
    ("VADDS", three .vadds),
    ("VSUBS", three .vsubs),
    ("VILO", three .vilo),
    ("VIHI", three .vihi),
    ("VBSHUF", three .vbshuf),
    ("VL0B", two .vl0b),
    ("VMAX", three .vmax),
    ("VHMIN", two .vhmin),
    ("VSH32", twoSel .vsh32),
    ("VSH16L", twoSel .vsh16l),
    ("VSH16H", twoSel .vsh16h) ]

/-- The mnemonics of the data-movement and recursion commands with their operand orders (R90). -/
def hostLines : List (String × (List Operand → Option (List Instr))) :=
  [ ("VINS", fun
      | [.reg d, l, o] => (asLane l).bind fun l => (asScalar o).map fun v => [.vins d l v]
      | _ => none),
    ("LDC", fun | [.reg d, o] => (asRomIndex o).map fun c => [.ldc d c] | _ => none),
    ("LDA", fun | [.reg d, o] => (asIndex 65536 o).map fun k => [.lda d k] | _ => none),
    ("STA", fun | [o, .reg a] => (asIndex 65536 o).map fun k => [.sta a k] | _ => none),
    ("LDBM", fun
      | [.reg d, o, g] => (asIndex 65536 o).bind fun k => (asHalf g).map fun g => [.ldbm d k g]
      | _ => none),
    ("STBM", fun
      | [o, g, .reg a] => (asIndex 65536 o).bind fun k => (asHalf g).map fun g => [.stbm a k g]
      | _ => none),
    ("LDB", one .ldb),
    ("STB", one .stb),
    ("FWD", fun
      | [x, z, e] =>
        (asScalar x).bind fun x => (asScalar z).bind fun z => (asScalar e).map fun e => [.fwd x z e]
      | _ => none),
    ("BWD", fun
      | [z, n] => (asScalar z).bind fun z => (asScalar n).map fun n => [.bwd z n]
      | _ => none) ]

/-- The pseudo-instructions (R91). -/
def pseudoLines : List (String × (List Operand → Option (List Instr))) :=
  [ ("VMOV", fun | [.reg d, .reg a] => some (Pseudo.vmov d a).expand | _ => none),
    ("VNEG", fun
      | [.reg d, .reg a, .reg t] => if t = a then none else some (Pseudo.vneg d a t).expand
      | _ => none),
    ("VSET", vsetLine),
    ("KRESET", fun os => if os.isEmpty then some Pseudo.kreset.expand else none),
    ("VLDROM", fun | [.reg d, .rom c] => some (Pseudo.vldrom d c).expand | _ => none) ]

/-- The commands of one line of assembler text (R90, R91): a comment starts at `;`, an empty line stands for no command, and a
line that is neither a command nor a pseudo-instruction stands for nothing. -/
def assembleLine (line : List Char) : Option (List Instr) :=
  let text := trimBlanks (line.takeWhile (· ≠ ';'))
  if text.isEmpty then some []
  else
    let name := text.takeWhile fun c => !c.isWhitespace
    let rest := trimBlanks (text.dropWhile fun c => !c.isWhitespace)
    let pieces := if rest.isEmpty then [] else (splitCommas rest).map trimBlanks
    match (vectorLines ++ hostLines ++ pseudoLines).find? fun e => e.1.toList == name with
    | none => none
    | some e => (pieces.mapM operandOf).bind e.2

end Sys2Proof.Machine
end

