-- ==== Sys2Proof/Tests/Slice0.lean ====
section
/-! SUPPORT. Tests of the model. Every expected word, lane and register value is copied from the rules and vectors of spec/
(the rule or vector is named beside each), never from the model. -/

namespace Sys2Proof.Tests

open Sys2Proof.Machine

/-! Well-formedness: one ill-formed command for each check. -/

theorem test_wf_refuses_counts : (Instr.setk 65536).wf = false ∧ (Instr.vsra 1 2 65536).wf = false ∧
    (Instr.ldc 1 65536).wf = false ∧ (Instr.lda 1 65536).wf = false ∧ (Instr.sta 1 65536).wf = false ∧
    (Instr.ldbm 1 65536 .lo).wf = false ∧ (Instr.stbm 1 65536 .hi).wf = false := by decide

theorem test_wf_refuses_scalars : (Instr.vbcast 1 32768).wf = false ∧ (Instr.vbcast 1 (-32769)).wf = false ∧
    (Instr.vins 1 0 (-32769)).wf = false ∧ (Instr.vins 1 0 32768).wf = false := by decide

theorem test_wf_refuses_samples : (Instr.fwd 32768 0 0).wf = false ∧ (Instr.fwd 0 (-32769) 0).wf = false ∧
    (Instr.fwd 0 0 32768).wf = false ∧ (Instr.bwd (-32769) 0).wf = false ∧ (Instr.bwd 0 32768).wf = false := by decide

/-- Every operand at the edge of its field is well formed, an index outside the memories too (R84). -/
theorem test_wf_admits_edges : (Instr.fwd (-32768) 32767 (-32768)).wf = true ∧ (Instr.setk 65535).wf = true ∧
    (Instr.ldbm 15 65535 .hi).wf = true := by decide

/-! Decoding: the word of each command. First, words put together field by field as 30_encoding.md R82 lays them out. -/

theorem test_decode_fields_rrr : decode (0x14#8 ++ 3#4 ++ 1#4 ++ 2#4 ++ 0#44) = .ok (.vadds 3 1 2) := by decide
theorem test_decode_fields_ri16 : decode (0x13#8 ++ 6#4 ++ 5#4 ++ 0#32 ++ 65535#16) = .ok (.vsra 6 5 65535) := by decide
theorem test_decode_fields_ri8 : decode (0x1E#8 ++ 15#4 ++ 14#4 ++ 0#40 ++ 0b10110001#8) = .ok (.vsh16h 15 14 0xB1) := by
  decide
theorem test_decode_fields_dl : decode (0x20#8 ++ 4#4 ++ 0#33 ++ 3#3 ++ 0x8000#16) = .ok (.vins 4 3 (-32768)) := by decide
theorem test_decode_fields_mdh : decode (0x24#8 ++ 9#4 ++ 0#19 ++ 1#1 ++ 5#16 ++ 0#16) = .ok (.ldbm 9 5 .hi) := by decide
theorem test_decode_fields_mah : decode (0x25#8 ++ 0#4 ++ 9#4 ++ 0#15 ++ 0#1 ++ 5#16 ++ 0#16) = .ok (.stbm 9 5 .lo) := by
  decide
theorem test_decode_fields_ma : decode (0x23#8 ++ 0#4 ++ 7#4 ++ 0#16 ++ 8192#16 ++ 0#16) = .ok (.sta 7 8192) := by decide
theorem test_decode_fields_f : decode (0x30#8 ++ 0#8 ++ 0xFFC0#16 ++ 0x0040#16 ++ 0x8000#16) = .ok (.fwd (-64) 64 (-32768)) := by
  decide
theorem test_decode_fields_b : decode (0x31#8 ++ 0#24 ++ 0xFFFF#16 ++ 0x7FFF#16) = .ok (.bwd (-1) 32767) := by decide

/-! Words of the spec's own examples and programs (95_test_vectors.md; the examples of the command rules). -/

theorem test_decode_nop : decode 0x0100000000000000 = .ok .nop := by decide
theorem test_decode_setk : decode 0x0200000000000007 = .ok (.setk 7) := by decide
theorem test_decode_vzero : decode 0x1010000000000000 = .ok (.vzero 1) := by decide
theorem test_decode_vbcast : decode 0x1110000000007530 = .ok (.vbcast 1 30000) := by decide
theorem test_decode_vsign : decode 0x1233100000000000 = .ok (.vsign 3 3 1) := by decide
theorem test_decode_vsra : decode 0x1365000000000002 = .ok (.vsra 6 5 2) := by decide
theorem test_decode_vadds : decode 0x1431200000000000 = .ok (.vadds 3 1 2) := by decide
theorem test_decode_vsubs : decode 0x1542100000000000 = .ok (.vsubs 4 2 1) := by decide
theorem test_decode_vilo : decode 0x1686700000000000 = .ok (.vilo 8 6 7) := by decide
theorem test_decode_vihi : decode 0x1796700000000000 = .ok (.vihi 9 6 7) := by decide
theorem test_decode_vbshuf : decode 0x18A0A00000000000 = .ok (.vbshuf 10 0 10) := by decide
theorem test_decode_vl0b : decode (0x19#8 ++ 5#4 ++ 4#4 ++ 0#48) = .ok (.vl0b 5 4) := by decide
theorem test_decode_vmax : decode 0x1A94200000000000 = .ok (.vmax 9 4 2) := by decide
theorem test_decode_vhmin : decode 0x1B84000000000000 = .ok (.vhmin 8 4) := by decide
theorem test_decode_vsh32 : decode 0x1CDC00000000004E = .ok (.vsh32 13 12 0x4E) := by decide
theorem test_decode_vsh16l : decode 0x1DED0000000000B1 = .ok (.vsh16l 14 13 0xB1) := by decide
theorem test_decode_vsh16h : decode 0x1EEE0000000000B1 = .ok (.vsh16h 14 14 0xB1) := by decide
theorem test_decode_vins : decode 0x2040000000038000 = .ok (.vins 4 3 (-32768)) := by decide
theorem test_decode_ldc : decode 0x21A0000000000003 = .ok (.ldc 10 3) := by decide
theorem test_decode_lda : decode 0x2220000000010000 = .ok (.lda 2 1) := by decide
theorem test_decode_sta : decode 0x2300000020000000 = .ok (.sta 0 8192) := by decide
theorem test_decode_ldbm : decode 0x2440000100000000 = .ok (.ldbm 4 0 .hi) := by decide
theorem test_decode_stbm : decode 0x2501000100050000 = .ok (.stbm 1 5 .hi) := by decide
theorem test_decode_ldb : decode 0x2650000000000000 = .ok (.ldb 5) := by decide
theorem test_decode_stb : decode 0x2701000000000000 = .ok (.stb 1) := by decide
theorem test_decode_fwd : decode 0x3000006400320000 = .ok (.fwd 100 50 0) := by decide
theorem test_decode_bwd : decode 0x3100000000320000 = .ok (.bwd 50 0) := by decide

/-- Words that are no command (95_test_vectors.md X1 to X5). -/
theorem test_decode_illegal : [0x0000000000000000, 0x0300000000000001, 0x1F00000000000000, 0x2810000000000000,
    0xF000000000000000].all (fun w => decode w = .error .illegalOpcode) = true := by decide

/-- Words with a reserved bit set (95_test_vectors.md X6 to X15). -/
theorem test_decode_reserved : [0x1412300000000001, 0x0100000000000001, 0x1001000000000000, 0x10000000000000FF,
    0x1C5400000000014E, 0x2040000000080000, 0x2300000100000000, 0x3100000100000000, 0x2100000000010000,
    0x2210000020010001].all (fun w => decode w = .error .reservedField) = true := by decide

/-- The host's two questions of one opcode-table row: the decoder reads it, and the next step runs it. -/
theorem test_table_word : decodeTableWord 64 0x1431200000000000 = some (.vadds 3 1 2) ∧ decodeTableWord 64 0 = none := by
  decide

/-! One step of each command. -/

/-- The state a command answers meets a check. -/
def got (r : Result) (p : State → Bool) : Bool :=
  match r with
  | .next s => p s
  | _ => false

/-- The vector with these lanes, lane 0 first. -/
def vecOf (l : List Int) : Vec := mk8 fun i => l.getD i 0

/-- The lanes of a vector, lane 0 first. -/
def lanesOf (v : Vec) : List Int := (List.range 8).map (h v)

/-- The register is written and has these lanes. -/
def vrIs (r : VReg) (l : List Int) (s : State) : Bool := (s.vr[r]).written && lanesOf (s.vr[r]).value == l

/-- VR1 = a, VR2 = b, VR3 = L of 95_test_vectors.md section 2.2; VR4 = the index bytes and VR5 = the table bytes of V22. -/
def loaded : State :=
  ((((State.reset.writeVR 1 (vecOf [1, -1, 32767, -32768, 0, 100, -100, 5])).writeVR 2
    (vecOf [1, -1, 1, -1, 5, 32767, -32768, 0])).writeVR 3 (vecOf [10, 11, 12, 13, 14, 15, 16, 17])).writeVR 4
    0x058F030201010000107F1110FF800E0F).writeVR 5 0x0F0E0D0C0B0A09080706050403020100

theorem test_nop : exec .nop loaded = .next loaded := by rfl
theorem test_setk : got (exec (.setk 7) loaded) (fun t => t.kptr == 7) = true := by decide
/-- SETK KMAX is legal and SETK KMAX+1 is STAGE_RANGE (programs P10, P11). -/
theorem test_setk_range : got (exec (.setk 8192) loaded) (fun t => t.kptr == 8192 && !t.halted) = true ∧
    got (exec (.setk 8193) loaded) (fun t => t.kptr == 0 && t.status.word == 0x0031 && t.errcmd == 0x0200000000002001) = true := by
  decide
theorem test_vzero : got (exec (.vzero 1) loaded) (vrIs 1 [0, 0, 0, 0, 0, 0, 0, 0]) = true := by decide
/-- V3. -/
theorem test_vbcast : got (exec (.vbcast 6 (-32768)) loaded)
    (vrIs 6 [-32768, -32768, -32768, -32768, -32768, -32768, -32768, -32768]) = true := by decide
/-- V11. -/
theorem test_vsign_sat : got (exec (.vsign 6 1 2) loaded) (vrIs 6 [1, 1, 32767, 32767, 0, 100, 100, 0]) = true := by decide
/-- V12. -/
theorem test_vsign_wrap : got (exec (.vsign 6 1 2) { loaded with params := { defaultParams with psignMin := .wrap } })
    (vrIs 6 [1, 1, 32767, -32768, 0, 100, 100, 0]) = true := by decide
/-- V15. -/
theorem test_vsra : got (exec (.vsra 6 1 1) loaded) (vrIs 6 [0, -1, 16383, -16384, 0, 50, -50, 2]) = true := by decide
/-- V17. -/
theorem test_vsra_large : got (exec (.vsra 6 1 65535) loaded) (vrIs 6 [0, -1, 0, -1, 0, 0, -1, 0]) = true := by decide
/-- V5, with VD = VA. -/
theorem test_vadds : got (exec (.vadds 1 1 2) loaded) (vrIs 1 [2, -2, 32767, -32768, 5, 32767, -32768, 5]) = true := by decide
/-- V7. -/
theorem test_vsubs : got (exec (.vsubs 6 1 2) loaded) (vrIs 6 [0, 0, 32766, -32767, -5, -32667, 32668, 5]) = true := by decide
/-- V18. -/
theorem test_vilo : got (exec (.vilo 6 1 2) loaded) (vrIs 6 [1, 1, -1, -1, 32767, 1, -32768, -1]) = true := by decide
/-- V19. -/
theorem test_vihi : got (exec (.vihi 6 1 2) loaded) (vrIs 6 [0, 5, 100, 32767, -100, -32768, 5, 0]) = true := by decide
/-- V22. -/
theorem test_vbshuf : got (exec (.vbshuf 6 5 4) loaded)
    (fun t => (List.range 16).map (fun j => (byteOf (t.vr[(6 : VReg)]).value j).toNat) ==
      [15, 14, 0, 0, 0, 1, 15, 0, 0, 0, 1, 1, 2, 3, 0, 5]) = true := by decide
/-- V21. -/
theorem test_vl0b : got (exec (.vl0b 6 1) loaded) (vrIs 6 [1, 1, 1, 1, 1, 1, 1, 1]) = true := by decide
/-- V10. -/
theorem test_vmax : got (exec (.vmax 6 1 2) loaded) (vrIs 6 [1, -1, 32767, -1, 5, 32767, -100, 5]) = true := by decide
/-- V24. -/
theorem test_vhmin : got (exec (.vhmin 6 2) loaded) (vrIs 6 [0, 7, 0, 0, 0, 0, 0, 0]) = true := by decide
/-- V25: ties go to the lowest index. -/
theorem test_vhmin_ties : got (exec (.vhmin 6 7) (loaded.writeVR 7 (vecOf [7, 3, 3, 9, 3, 8, 8, 8])))
    (vrIs 6 [3, 1, 0, 0, 0, 0, 0, 0]) = true := by decide
/-- V29. -/
theorem test_vsh32 : got (exec (.vsh32 6 3 0x1B) loaded) (vrIs 6 [16, 17, 14, 15, 12, 13, 10, 11]) = true := by decide
/-- V33. -/
theorem test_vsh16l : got (exec (.vsh16l 6 3 0x1B) loaded) (vrIs 6 [13, 12, 11, 10, 14, 15, 16, 17]) = true := by decide
/-- V35. -/
theorem test_vsh16h : got (exec (.vsh16h 6 3 0x1B) loaded) (vrIs 6 [10, 11, 12, 13, 17, 16, 15, 14]) = true := by decide
/-- V37. -/
theorem test_vins : got (exec (.vins 6 3 (-32768)) (loaded.writeVR 6 (bcast8 (-25000))))
    (vrIs 6 [-25000, -25000, -25000, -32768, -25000, -25000, -25000, -25000]) = true := by decide
/-- LDC VR0, 2 gives BWPAR_POL (section 2.1). -/
theorem test_ldc : got (exec (.ldc 0 2) loaded) (vrIs 0 [1, 1, -1, -1, -1, -1, 1, 1]) = true := by decide
/-- Program P4: LDC with c = 7 is CONST_RANGE. -/
theorem test_ldc_range : got (exec (.ldc 1 7) loaded)
    (fun t => t.status.word == 0x0041 && t.errcmd == 0x2110000000000007) = true := by decide

/-- ALPHA[0] of F1: known start in state 0. -/
def knownStart : State := State.reset.writeAlpha 0 (vecOf [0, -16384, -16384, -16384, -16384, -16384, -16384, -16384])

theorem test_lda : got (exec (.lda 2 0) knownStart)
    (vrIs 2 [0, -16384, -16384, -16384, -16384, -16384, -16384, -16384]) = true := by decide
/-- LDA of an entry nothing has written stops with UNINIT_READ (60_exceptions.md R216); beyond KMAX it is STAGE_RANGE (X15's
index, with the reserved bits clear). -/
theorem test_lda_stops : exec (.lda 1 8192) knownStart = .fault (.uninitRead (.alpha 8192)) ∧
    got (exec (.lda 1 8193) knownStart) (fun t => t.status.word == 0x0031) = true := ⟨rfl, by decide⟩
/-- Program P12: STA to ALPHA[KMAX] is legal. -/
theorem test_sta : got (exec (.sta 3 8192) loaded)
    (fun t => (t.alpha.find 8192).map lanesOf == some [10, 11, 12, 13, 14, 15, 16, 17] && !t.halted) = true := by decide
/-- Program P13: STBM to BM[KMAX] is STAGE_RANGE. -/
theorem test_stbm_range : got (exec (.stbm 3 8192 .lo) loaded) (fun t => t.status.word == 0x0031) = true := by decide
/-- STBM writes one half and leaves the other (43_host.md R187). -/
theorem test_stbm : got (exec (.stbm 3 5 .hi) loaded)
    (fun t => (t.bmHi.find 5).map lanesOf == some [10, 11, 12, 13, 14, 15, 16, 17] && (t.bmLo.find 5).isNone) = true := by decide
theorem test_ldbm : got (exec (.ldbm 7 5 .hi) (loaded.writeBmHi 5 (vecOf [10, 11, 12, 13, 14, 15, 16, 17])))
    (vrIs 7 [10, 11, 12, 13, 14, 15, 16, 17]) = true := by decide
theorem test_stb : got (exec (.stb 3) loaded)
    (fun t => t.beta.written && lanesOf t.beta.value == [10, 11, 12, 13, 14, 15, 16, 17]) = true := by decide
theorem test_ldb : got (exec (.ldb 7) (loaded.writeBeta (vecOf [10, 11, 12, 13, 14, 15, 16, 17])))
    (vrIs 7 [10, 11, 12, 13, 14, 15, 16, 17]) = true := by decide

/-- F1, the example of 41_forward.md R146. -/
theorem test_fwd : got (exec (.fwd 100 50 0) knownStart) (fun t => t.result == 150 && t.kptr == 1 &&
    (t.alpha.find 1).map lanesOf == some [-300, -16484, -16484, -16384, 0, -16484, -16484, -16384] &&
    (t.bmLo.find 0).map lanesOf == some [-150, 150, 50, -50, -50, 50, 150, -150]) = true := by decide +kernel
/-- The WHOLE_SUM reading (41_forward.md R149). -/
theorem test_fwd_whole_sum : got (exec (.fwd 10 (-20) 7)
    ((State.resetWith { defaultParams with bmShift := .wholeSum }).writeAlpha 0 0)) (fun t => t.result == 19 &&
    (t.alpha.find 1).map lanesOf == some [-18, -1, 0, -17, -17, 0, -1, -18]) = true := by decide +kernel

/-- After `FWD 100, 50, 0` from the known start and STB of zero: the state of the example of 42_backward.md R166. -/
def beforeBwd : State :=
  ((((knownStart.writeBmLo 0 (vecOf [-150, 150, 50, -50, -50, 50, 150, -150])).writeBmHi 0
    (vecOf [150, -150, -50, 50, 50, -50, -150, 150])).writeBeta 0).setKptr 1)

/-- The example of 42_backward.md R166. -/
theorem test_bwd : got (exec (.bwd 50 0) beforeBwd) (fun t => t.result == 100 && t.kptr == 0 && t.llr.find 0 == some 100 &&
    lanesOf t.beta.value == [150, 150, 50, 50, 50, 50, 150, 150]) = true := by decide +kernel
/-- Program P5: BWD at KPTR = 0 is STAGE_RANGE. -/
theorem test_bwd_range : got (exec (.bwd 0 0) knownStart)
    (fun t => t.status.word == 0x0031 && t.errcmd == 0x3100000000000000) = true := by decide

/-! Steps, ports, reset. -/

/-- Program P6: the illegal word halts the core, and the NOP after it is discarded. -/
theorem test_halt : got (runWord 0x0100000000000000 { State.reset with status := .error .illegalOpcode, errcmd := 0 })
    (fun t => t.status.word == 0x0011 && t.errcmd == 0) = true := by decide

theorem test_step_runs_the_word : step (State.reset.withFetchWord 64 0x0200000000000007) =
    .next { State.reset with kptr := 7 } := by rfl

/-- Two lanes of VR1 and the low word of ERRCMD through the read port (10_state.md R29). -/
theorem test_read_port : loaded.readPort 0x010A = .ok 0x7FFF ∧ loaded.readPort 0x010B = .ok 0x8000 ∧
    State.readPort { loaded with errcmd := 0x2110000000000007 } 0x0004 = .ok 0x0007 ∧
    State.readPort { loaded with errcmd := 0x2110000000000007 } 0x0007 = .ok 0x2110 := by decide

theorem test_read_port_reserved : loaded.readPort 0x0003 = .ok 0 ∧ loaded.readPort 0x0188 = .ok 0 ∧
    loaded.readPort 0x6000 = .ok 0 ∧ loaded.readPort 0x5FFF = .error (.uninitRead (.llr 8191)) := by decide

/-- Lines of the spec's assembler examples (30_encoding.md R90, R92). -/
theorem test_assemble : (assembleLine "VADDS VR3, VR1, VR2".toList).map (·.map encode) = some [0x1431200000000000] ∧
    (assembleLine "FWD 100, 50, 0 ; stage 0".toList).map (·.map encode) = some [0x3000006400320000] ∧
    (assembleLine "LDBM VR4, 0, 1".toList).map (·.map encode) = some [0x2440000100000000] ∧
    (assembleLine "VSH32 VR6, VR3, 0x1b".toList).map (·.map encode) = some [0x1C6300000000001B] ∧
    assembleLine "SETK 1A".toList = none ∧
    assembleLine "VADDS VR3, VR16, VR2".toList = none := by decide

/-- The words of a block of one stage with KPTR set and both boundary metrics in place (70_reset_and_hazards.md R250). -/
theorem test_block_commands : (blockCommands (.replicate 8 0) (.replicate 8 0) [⟨100, 50, 0, 0⟩]).map encode =
    (0x1100000000000000 :: [1, 2, 3, 4, 5, 6, 7].map (fun l => 0x2000000000000000 + BitVec.ofNat 64 (l * 65536))) ++
      [0x2300000000000000, 0x0200000000000000, 0x3000006400320000] ++
      (0x1110000000000000 :: [1, 2, 3, 4, 5, 6, 7].map (fun l => 0x2010000000000000 + BitVec.ofNat 64 (l * 65536))) ++
      [0x2701000000000000, 0x3100000000320000] := by decide

/-! Witnesses: for each statement with hypotheses, concrete values that meet them, clause by clause. -/

/-- A running core with one event of the host pending. -/
def pending (s : State) (e : HostEvent) : State := { s with inbox := [e] }

/-- A halted core: LDC VR1, 7 was its first error. -/
def stopped : State := { State.reset with status := .error .constRange, errcmd := 0x2110000000000007 }

/-- A core whose every unwritten register and entry stops the model (log 4). -/
def faulting : State := State.resetWith { defaultParams with uninitReg := .fault }

/-- A core whose unwritten entries read as free values (log 6). -/
def hardwareLike : State := State.resetWith { defaultParams with uninitMem := .value }

/-- The word has a reserved bit set: bit 0 of a VADDS. -/
theorem reservedBit : hasReservedBit 0x1412300000000001 :=
  ⟨[(43, 0)], by decide, (43, 0), by decide, 0, by decide⟩

theorem witness_DecodeUndoesEncode : (Instr.fwd (-32768) 32767 (-1)).wf = true := by decide

theorem witness_EncodeUndoesDecode : decode 0x2501000100050000 = .ok (.stbm 1 5 .hi) := by decide

theorem witness_WorkedWordsDecode : State.reset.halted = false := by decide

theorem witness_IllegalOpcodesAreThoseListed :
    (pending State.reset (.command 0xFF00000000000000)).inbox = .command 0xFF00000000000000 :: [] ∧
      (pending State.reset (.command 0xFF00000000000000)).halted = false ∧
      opcodeIllegal (opField 0xFF00000000000000).toNat :=
  ⟨rfl, by decide, .inr (.inr (.inr (.inr ⟨by decide, by decide⟩)))⟩

theorem witness_ReservedBitsAreChecked :
    (pending State.reset (.command 0x1412300000000001)).inbox = .command 0x1412300000000001 :: [] ∧
      (pending State.reset (.command 0x1412300000000001)).halted = false ∧ hasReservedBit 0x1412300000000001 :=
  ⟨rfl, by decide, reservedBit⟩

theorem witness_MaskAndMatchSelectTheRow : ∃ r ∈ opcodeTable, opField 0x1412300000000001 = r.op ∧
    (0x1412300000000001 : CmdWord) &&& r.mask ≠ r.pattern ∧ (0x1412300000000000 : CmdWord) &&& r.mask = r.pattern := by
  decide

theorem witness_StepRunsTheDecodedCommand :
    (pending loaded (.command 0x1431200000000000)).inbox = .command 0x1431200000000000 :: [] ∧
      (pending loaded (.command 0x1431200000000000)).halted = false ∧ decode 0x1431200000000000 = .ok (.vadds 3 1 2) :=
  ⟨rfl, by decide, by decide⟩

theorem witness_IdleStepKeepsAllState : loaded.inbox = [] := rfl

theorem witness_HaltedCoreDiscardsEveryWord :
    (pending stopped (.command 0)).halted = true ∧ (pending stopped (.command 0)).inbox = .command 0 :: [] ∧
      (pending stopped (.read 0)).halted = true ∧ (pending stopped (.read 0)).inbox = .read 0 :: [] ∧
      (pending stopped (.read 0)).readPort 0 = .ok 0x0041 ∧
      (pending stopped .reset).halted = true ∧ (pending stopped .reset).inbox = .reset :: [] ∧
      (∀ rest, (pending stopped (.command 0)).inbox ≠ .reset :: rest) ∧
      step (pending stopped (.command 0)) = .next stopped :=
  ⟨by decide, rfl, by decide, rfl, by decide, by decide, rfl, by simp [pending], rfl⟩

theorem witness_FirstErrorIsKeptUntilReset : (pending stopped (.command 0)).status = .error .constRange ∧
    (∀ rest, (pending stopped (.command 0)).inbox ≠ .reset :: rest) ∧
    step (pending stopped (.command 0)) = .next stopped :=
  ⟨rfl, by simp [pending], rfl⟩

theorem witness_OnlyResetClearsGhostMarks :
    (∀ rest, (pending loaded (.command 0x0100000000000000)).inbox ≠ .reset :: rest) ∧
      step (pending loaded (.command 0x0100000000000000)) = .next loaded ∧
      (pending loaded (.command 0x0100000000000000)).marked (.vr 1) = true ∧
      (pending loaded .reset).inbox = .reset :: [] :=
  ⟨by simp [pending], rfl, by decide, rfl⟩

theorem witness_ErrorEntryChangesOnlyStatusAndErrcmd :
    (pending loaded (.command 0)).inbox = .command 0 :: [] ∧ (pending loaded (.command 0)).halted = false ∧
      step (pending loaded (.command 0)) = .next (loaded.raiseError .illegalOpcode 0) ∧
      (loaded.raiseError .illegalOpcode 0).status = .error .illegalOpcode :=
  ⟨rfl, by decide, rfl, rfl⟩

theorem witness_ErrorPriority_opcode :
    (pending loaded (.command 0)).inbox = .command 0 :: [] ∧ (pending loaded (.command 0)).halted = false ∧
      (pending loaded (.command 0)).kptr.toNat ≤ (pending loaded (.command 0)).params.kmax ∧
      opcodeIllegal (opField 0).toNat :=
  ⟨rfl, by decide, by decide, .inl (by decide)⟩

theorem witness_ErrorPriority_reserved :
    (pending loaded (.command 0x1412300000000001)).halted = false ∧
      ¬ opcodeIllegal (opField 0x1412300000000001).toNat ∧ hasReservedBit 0x1412300000000001 :=
  ⟨by decide, by unfold opcodeIllegal; decide, reservedBit⟩

theorem witness_ErrorPriority_check : decode 0x2110000000000007 = .ok (.ldc 1 7) ∧
    commandCheck loaded.params.kmax loaded.kptr.toNat (.ldc 1 7) = some .constRange := by decide

theorem witness_ErrorPriority_unread : decode 0x1431200000000000 = .ok (.vadds 3 1 2) ∧
    commandCheck faulting.params.kmax faulting.kptr.toNat (.vadds 3 1 2) = none ∧
    (readsOf faulting.kptr.toNat (.vadds 3 1 2)).find? (fun q => !faulting.readable q) = some (.vr 1) ∧
    faulting.halted = false ∧ faulting.kptr.toNat ≤ faulting.params.kmax := by decide

theorem witness_CommandChecksDecideTheOutcome : beforeBwd.kptr.toNat ≤ beforeBwd.params.kmax ∧
    commandCheck beforeBwd.params.kmax beforeBwd.kptr.toNat (.setk 8193) = some .stageRange ∧
    commandCheck beforeBwd.params.kmax beforeBwd.kptr.toNat (.bwd 50 0) = none ∧
    ∀ p ∈ readsOf beforeBwd.kptr.toNat (.bwd 50 0), beforeBwd.readable p = true := by decide

theorem witness_UninitReadIsTheOnlyStop : faulting.kptr.toNat ≤ faulting.params.kmax ∧
    commandCheck faulting.params.kmax faulting.kptr.toNat (.sta 2 0) = none ∧
    (readsOf faulting.kptr.toNat (.sta 2 0)).find? (fun q => !faulting.readable q) = some (.vr 2) := by decide

theorem witness_ResultsDoNotDependOnUnwrittenState :
    faulting.agrees { faulting with beta := ⟨1, false⟩ } ∧ faulting.faultsOnUninit :=
  ⟨⟨fun _ => ⟨rfl, fun _ => rfl⟩, ⟨rfl, fun hw => by simp [faulting, State.resetWith, Reg.atReset] at hw⟩,
    ⟨rfl, rfl, rfl, rfl⟩, ⟨rfl, rfl, rfl⟩, rfl, rfl, rfl, rfl⟩, rfl, rfl⟩

theorem witness_StepKeepsTheInvariant : (pending loaded (.command 0)).Inv ∧
    step (pending loaded (.command 0)) = .next (loaded.raiseError .illegalOpcode 0) :=
  ⟨⟨by decide, by decide, rfl, rfl, rfl, rfl, by decide⟩, rfl⟩

theorem witness_ResetMeetsTheInvariant : State.construct defaultParams = .ok State.reset := by decide

theorem witness_ParametersAndRomNeverChange : step (pending loaded .reset) = .next State.reset := rfl

theorem witness_ResetSignalClearsTheControlState : (pending stopped .reset).inbox = .reset :: [] := rfl

theorem witness_UnwrittenPlaces_registers :
    (loaded.vr[(1 : VReg)]).written = true ∧ (faulting.vr[(15 : VReg)]).written = false ∧
      faulting.params.uninitReg = .fault ∧ (loaded.vr[(15 : VReg)]).written = false ∧ loaded.params.uninitReg = .value ∧
      beforeBwd.beta.written = true ∧ faulting.beta.written = false ∧ loaded.beta.written = false := by decide

theorem witness_UnwrittenPlaces_alpha : 8192 ≤ knownStart.params.kmax ∧ knownStart.alpha.find 8192 = none ∧
    knownStart.params.uninitMem = .fault ∧ (knownStart.alpha.find 0).isSome = true ∧
    hardwareLike.alpha.find 8192 = none ∧ hardwareLike.params.uninitMem = .value := by decide

theorem witness_UnwrittenPlaces_bm : 8191 < beforeBwd.params.kmax ∧ (beforeBwd.bmLo.find 0).isSome = true ∧
    (beforeBwd.bmHi.find 0).isSome = true ∧ beforeBwd.bmLo.find 8191 = none ∧ beforeBwd.bmHi.find 8191 = none ∧
    beforeBwd.params.uninitMem = .fault ∧ hardwareLike.marked (.bm 8191 .hi) = false := by decide

theorem witness_UnwrittenPlaces_llr : (beforeBwd.writeLlr 8191 5).llr.find 8191 = some 5 ∧
    beforeBwd.llr.find 8191 = none ∧ hardwareLike.llr.find 8191 = none := by decide

/-- Every clause of the map, at both ends of its addresses. -/
theorem witness_ReadPortFollowsItsMap : (0x00FF : Half16).toNat ≤ 0x00FF ∧ (0x017F : Half16).toNat = 0x0100 + 8 * 15 + 7 ∧
    (0x0187 : Half16).toNat = 0x0180 + 7 ∧ 0x0188 ≤ (0x3FFF : Half16).toNat ∧
    (0x5FFF : Half16).toNat = 0x4000 + 8191 ∧ 8191 < loaded.params.kmax ∧ (0xFFFF : Half16).toNat = 0x4000 + 49151 ∧
    loaded.params.kmax ≤ 49151 := by decide

theorem witness_ReadPort_lanes : (loaded.readVR 15).isOk = true ∧ loaded.readBeta.isOk = true ∧
    faulting.readVR 15 = .error (.uninitRead (.vr 15)) ∧ faulting.readBeta = .error (.uninitRead .beta) := by decide

theorem witness_HostReadChangesNothing : (pending loaded (.read 0x010A)).inbox = .read 0x010A :: [] ∧
    (pending loaded (.read 0x010A)).readPort 0x010A = .ok 0x7FFF ∧
    (pending loaded (.read 0x4000)).readPort 0x4000 = .error (.uninitRead (.llr 0)) := by decide

theorem witness_KptrAndResultHaveFewWriters : exec (.vzero 1) beforeBwd = .next (beforeBwd.writeVR 1 0) ∧
    (∀ k, Instr.vzero 1 ≠ .setk k) ∧ (∀ x z le, Instr.vzero 1 ≠ .fwd x z le) ∧ (∀ z norm, Instr.vzero 1 ≠ .bwd z norm) ∧
    beforeBwd.params.kmax ≤ 16383 ∧ beforeBwd.kptr.toNat ≤ beforeBwd.params.kmax :=
  ⟨rfl, nofun, nofun, nofun, by decide, by decide⟩

theorem witness_CommandsWriteOnlyTheirVectorRegister : exec (.vzero 1) loaded = .next (loaded.writeVR 1 0) ∧
    vrWrittenBy (.vzero 1) ≠ some 2 ∧ (∀ va k, Instr.vzero 1 ≠ .sta va k) ∧ (∀ va k half, Instr.vzero 1 ≠ .stbm va k half) ∧
    (∀ va, Instr.vzero 1 ≠ .stb va) :=
  ⟨rfl, by decide, nofun, nofun, nofun⟩

theorem witness_RepeatedCommandChangesNothingMore :
    (∀ r, vrWrittenBy (.vmax 4 1 2) = some r → .vr r ∉ readsOf loaded.kptr.toNat (.vmax 4 1 2)) ∧
      (∀ x z le, Instr.vmax 4 1 2 ≠ .fwd x z le) ∧ (∀ z norm, Instr.vmax 4 1 2 ≠ .bwd z norm) ∧
      ∃ t, exec (.vmax 4 1 2) loaded = .next t :=
  ⟨by decide, nofun, nofun, _, rfl⟩

theorem witness_InstancesAreIndependent :
    clusterStep 1 [State.reset, pending loaded .reset] = .next [State.reset, State.reset] ∧
      clusterStep 0 [pending loaded .reset, pending loaded .reset] = .next [State.reset, pending loaded .reset] :=
  ⟨rfl, rfl⟩

theorem witness_OnlyLegalParametersBuildAMachine :
    State.construct { defaultParams with kmax := 16383 } = .ok (State.resetWith { defaultParams with kmax := 16383 }) ∧
      State.construct { defaultParams with kmax := 16384 } = .error .kmaxOutOfRange := by decide

theorem witness_reservedFieldRule : opField 0x1412300000000001 = 0x14 := by decide

theorem witness_NopAndSetk : fitsU16 8192 = true ∧ 8192 ≤ State.reset.params.kmax ∧ fitsU16 65535 = true ∧
    State.reset.params.kmax < 65535 := by decide

theorem witness_VzeroAndVbcastWriteConstants : fitsS16 (-32768) = true ∧ fitsS16 32767 = true := by decide

/-- Both sources readable; the first unwritten; only the second unwritten. -/
theorem witness_binaryRule : (loaded.readVR 1).isOk = true ∧ (loaded.readVR 2).isOk = true ∧
    faulting.params.uninitReg = .fault ∧ faulting.marked (.vr 1) = false ∧
    (faulting.writeVR 1 0).params.uninitReg = .fault ∧ (faulting.writeVR 1 0).marked (.vr 1) = true ∧
    (faulting.writeVR 1 0).marked (.vr 2) = false := by decide

theorem witness_unaryRule : (loaded.readVR 1).isOk = true ∧ faulting.params.uninitReg = .fault ∧
    faulting.marked (.vr 1) = false := by decide

/-- The lanes of a and b of section 2.2 meet every clause of VSIGN. -/
theorem witness_VsignAppliesThePatternSign : 0 < h (loaded.vr[(2 : VReg)]).value 0 ∧
    h (loaded.vr[(2 : VReg)]).value 1 < 0 ∧ h (loaded.vr[(1 : VReg)]).value 1 ≠ -32768 ∧
    h (loaded.vr[(2 : VReg)]).value 3 < 0 ∧ h (loaded.vr[(1 : VReg)]).value 3 = -32768 ∧
    h (loaded.vr[(2 : VReg)]).value 7 = 0 := by decide

theorem witness_VsraShiftsRightArithmetically : fitsU16 15 = true ∧ fitsU16 16 = true ∧ fitsU16 65535 = true := by decide

theorem witness_VbshufGathersBytes : 128 ≤ (byteOf (loaded.vr[(4 : VReg)]).value 2).toNat ∧
    (byteOf (loaded.vr[(4 : VReg)]).value 6).toNat < 128 := by decide

theorem witness_Vl0bBroadcastsAndVmaxTakesTheGreater :
    h (loaded.vr[(1 : VReg)]).value 3 ≤ h (loaded.vr[(2 : VReg)]).value 3 ∧
      h (loaded.vr[(2 : VReg)]).value 2 ≤ h (loaded.vr[(1 : VReg)]).value 2 := by decide

theorem witness_VinsReplacesOneLane : fitsS16 (-32768) = true ∧ (loaded.readVR 1).isOk = true ∧
    faulting.params.uninitReg = .fault ∧ faulting.marked (.vr 1) = false := by decide

theorem witness_LdcLoadsARomEntry : ([lteTrellis.sysPol, lteTrellis.parPol, lteTrellis.bwParPol, lteTrellis.fGather0,
    lteTrellis.fGather1, lteTrellis.lGather0, lteTrellis.lGather1][6]?).isSome = true ∧ 7 ≤ 7 := by decide

theorem witness_LoadsCopyMetricsToAVectorRegister : knownStart.params.kmax < 8193 ∧ 8192 ≤ knownStart.params.kmax ∧
    (knownStart.readAlpha 0).isOk = true ∧ knownStart.params.uninitMem = .fault ∧ knownStart.marked (.alpha 8192) = false ∧
    beforeBwd.params.kmax ≤ 8192 ∧ 8191 < beforeBwd.params.kmax ∧ (beforeBwd.readBm 0 .lo).isOk = true ∧
    beforeBwd.params.uninitMem = .fault ∧ beforeBwd.marked (.bm 8191 .hi) = false ∧ beforeBwd.readBeta.isOk = true ∧
    faulting.params.uninitReg = .fault ∧ faulting.marked .beta = false := by decide

theorem witness_StoresWriteOnlyTheEntryTheyName : loaded.params.kmax < 8193 ∧ 8192 ≤ loaded.params.kmax ∧
    loaded.params.kmax ≤ 8192 ∧ 8191 < loaded.params.kmax ∧ (loaded.readVR 3).isOk = true ∧
    faulting.params.uninitReg = .fault ∧ faulting.marked (.vr 3) = false := by decide

/-- The same start under the WHOLE_SUM reading and with a TRELLIS that breaks 10_state.md R35 (d): a statement for any TRELLIS
holds of it too. -/
def wholeSumStart : State :=
  { knownStart with params := { defaultParams with bmShift := .wholeSum, trellis := { lteTrellis with sysPol := 0 } } }

/-- FWD at the last stage, at KMAX, at a stage whose ALPHA entry nothing has written, and under both readings of the shift. -/
theorem witness_FwdRunsOneForwardStage : knownStart.params.kmax ≤ 16383 ∧
    wholeSumStart.params.kmax ≤ 16383 ∧ wholeSumStart.params.bmShift = .wholeSum ∧
    keepsEdgeInputs wholeSumStart.params.trellis = false ∧
    wholeSumStart.kptr.toNat < wholeSumStart.params.kmax ∧ (wholeSumStart.readAlpha 0).isOk = true ∧
    fitsS16 100 = true ∧ fitsS16 (-32768) = true ∧ knownStart.kptr.toNat < knownStart.params.kmax ∧
    (knownStart.readAlpha 0).isOk = true ∧ knownStart.params.bmShift = .leOnly ∧
    (knownStart.setKptr 8191).kptr.toNat < knownStart.params.kmax ∧
    (knownStart.setKptr 8191).params.uninitMem = .fault ∧ (knownStart.setKptr 8191).marked (.alpha 8191) = false ∧
    knownStart.params.kmax ≤ (knownStart.setKptr 8192).kptr.toNat := by decide

/-- The greatest lanes of F1 and of the example of 42_backward.md R166 (row B2 of section 2.5). -/
theorem witness_isGreatest :
    isGreatest (h (addCompareSelect lteTrellis (vecOf [0, -16384, -16384, -16384, -16384, -16384, -16384, -16384])
      (plusMetric defaultParams 100 50 0))) 150 ∧
    isGreatest (h (pathMetricOne defaultParams 50 (vecOf [0, -16384, -16384, -16384, -16384, -16384, -16384, -16384]) 0)) 50 ∧
    isGreatest (h (pathMetricZero defaultParams 50 (vecOf [0, -16384, -16384, -16384, -16384, -16384, -16384, -16384]) 0))
      (-50) := by
  unfold isGreatest
  decide +kernel

theorem witness_BwdRunsOneBackwardStage : beforeBwd.kptr.toNat ≤ beforeBwd.params.kmax ∧ fitsS16 50 = true ∧
    fitsS16 0 = true ∧ beforeBwd.kptr.toNat = 0 + 1 ∧ (beforeBwd.readBm 0 .lo).isOk = true ∧
    (beforeBwd.readBm 0 .hi).isOk = true ∧ (beforeBwd.readAlpha 0).isOk = true ∧ beforeBwd.readBeta.isOk = true ∧
    knownStart.kptr.toNat = 0 ∧ (faulting.setKptr 8192).kptr.toNat = 8191 + 1 ∧
    (faulting.setKptr 8192).kptr.toNat ≤ (faulting.setKptr 8192).params.kmax ∧
    (faulting.setKptr 8192).params.uninitReg = .fault ∧ (faulting.setKptr 8192).params.uninitMem = .fault ∧
    (faulting.setKptr 8192).marked (.bm 8191 .hi) = false := by decide

theorem witness_FwdIsTheTrellisForwardUpdate : paramsLegal knownStart.params = true ∧
    knownStart.params.trellis = lteTrellis ∧ fitsS16 100 = true ∧ fitsS16 50 = true ∧ fitsS16 0 = true ∧
    knownStart.kptr.toNat < knownStart.params.kmax ∧
    knownStart.readAlpha knownStart.kptr.toNat =
      .ok (vecOf [0, -16384, -16384, -16384, -16384, -16384, -16384, -16384]) := by decide

theorem witness_BwdIsTheTrellisBackwardUpdate : beforeBwd.params.trellis = lteTrellis ∧ fitsS16 50 = true ∧
    fitsS16 (-32768) = true ∧ beforeBwd.kptr.toNat = 0 + 1 ∧ beforeBwd.kptr.toNat ≤ beforeBwd.params.kmax ∧
    (beforeBwd.readBm 0 .lo).isOk = true ∧ (beforeBwd.readBm 0 .hi).isOk = true ∧ (beforeBwd.readAlpha 0).isOk = true ∧
    beforeBwd.readBeta = .ok 0 := by decide

theorem witness_FwdLeavesItsLargestLaneZero : knownStart.kptr.toNat < knownStart.params.kmax ∧
    ∃ t, exec (.fwd 100 50 0) knownStart = .next t :=
  ⟨by decide, _, rfl⟩

/-- A saturated plus metric, so that both clauses of the antisymmetry are met (F6 of section 2.4). -/
theorem witness_BranchMetricsAreAntisymmetric : knownStart.kptr.toNat < knownStart.params.kmax ∧
    (∃ t, exec (.fwd 32767 32767 32767) knownStart = .next t) ∧
    lanesOf (plusMetric defaultParams 32767 32767 32767) = [-32768, 16383, -16384, 32767, 32767, -16384, 16383, -32768] :=
  ⟨by decide, ⟨_, rfl⟩, by decide +kernel⟩

/-- F10 of section 2.4: the constant is 7. -/
theorem witness_NormalisationRemovesAConstant :
    (State.reset.writeAlpha 0 (vecOf [0, -5, -10, -15, -20, -25, -30, -35])).readAlpha 0 =
      .ok (vecOf [0, -5, -10, -15, -20, -25, -30, -35]) ∧
    (∀ i < 8, h (vecOf [-7, -12, -17, -22, -27, -32, -37, -42]) i = h (vecOf [0, -5, -10, -15, -20, -25, -30, -35]) i - 7) ∧
    ∀ i < 8,
      fitsS16 (h (vecOf [0, -5, -10, -15, -20, -25, -30, -35]) (evenPred i) + upperMetric defaultParams 3 (-1) 1 i) = true ∧
      fitsS16 (h (vecOf [0, -5, -10, -15, -20, -25, -30, -35]) (oddPred i) +
        sat16 (-(upperMetric defaultParams 3 (-1) 1 i))) = true ∧
      fitsS16 (h (vecOf [-7, -12, -17, -22, -27, -32, -37, -42]) (evenPred i) +
        upperMetric defaultParams 3 (-1) 1 i) = true ∧
      fitsS16 (h (vecOf [-7, -12, -17, -22, -27, -32, -37, -42]) (oddPred i) +
        sat16 (-(upperMetric defaultParams 3 (-1) 1 i))) = true := by decide +kernel

/-- ALPHA[0] all 100 and BETA all 0, shifted by 3 and by -4, at the stage of the example of 42_backward.md R166. -/
theorem witness_LlrIgnoresConstantShifts :
    (beforeBwd.writeAlpha 0 (bcast8 100)).readAlpha 0 = .ok (bcast8 100) ∧ beforeBwd.readBeta = .ok 0 ∧
    (beforeBwd.readBm 0 .lo).isOk = true ∧ (beforeBwd.readBm 0 .hi).isOk = true ∧
    (∀ i < 8, h (bcast8 103) i = h (bcast8 100) i + 3 ∧ h (bcast8 (-4)) i = h 0 i + -4) ∧
    ∀ i < 8, ∀ pz, pz = signedBy .sat 50 (parityBit i true) →
      fitsS16 (h (bcast8 100) i + pz) = true ∧ fitsS16 (h (bcast8 100) i + pz + h 0 (nextState i true)) = true ∧
      fitsS16 (h (bcast8 103) i + pz) = true ∧
      fitsS16 (h (bcast8 103) i + pz + h (bcast8 (-4)) (nextState i true)) = true ∧
      fitsS16 (h (bcast8 100) i + sat16 (-pz)) = true ∧
      fitsS16 (h (bcast8 100) i + sat16 (-pz) + h 0 (nextState i false)) = true ∧
      fitsS16 (h (bcast8 103) i + sat16 (-pz)) = true ∧
      fitsS16 (h (bcast8 103) i + sat16 (-pz) + h (bcast8 (-4)) (nextState i false)) = true := by
  refine ⟨by decide, by decide, by decide, by decide, by decide +kernel, ?_⟩
  intro i hi pz hpz
  subst hpz
  revert i
  decide +kernel

theorem witness_NegatedMinimumIsTheMaximum : ∀ i < 8, -32767 ≤ h (vecOf [-7, -3, -3, -9, -3, -8, -8, -32767]) i ∧
    h (vecOf [-7, -3, -3, -9, -3, -8, -8, -32767]) i ≤ 0 := by decide

theorem witness_ShiftReadingsAgreeWithoutChannel : fitsS16 3 = true := by decide

theorem witness_EdgeMetricsAreTheBcjrTerms : knownStart.params.trellis = lteTrellis ∧ knownStart.params.bmShift = .leOnly ∧
    knownStart.kptr.toNat < knownStart.params.kmax ∧
    got (exec (.fwd 100 50 (-3)) knownStart) (fun t => (t.bmLo.find 0).isSome && (t.bmHi.find 0).isSome) = true := by
  decide +kernel

theorem witness_DefaultRomEncodesTheTrellis : nextState (evenPred 7) false = 7 ∧ nextState (evenPred 6) true = 6 := by decide

theorem witness_PseudoInstructionsDoWhatTheySay : loaded.halted = false ∧ (loaded.readVR 1).isOk = true ∧
    (Pseudo.vneg 1 1 2).wf = true ∧ (Pseudo.vset 1 (.replicate 8 (-32768))).wf = true := by decide

end Sys2Proof.Tests
end

section
/-! Which parameters build a machine (00_scope.md R8; 93_implementation_defined.md I4). -/

namespace Sys2Proof.Machine

/-- The two clauses on the TRELLIS are grouped as `State.construct` tests them. -/
theorem paramsLegal_iff (p : Params) : paramsLegal p = true ↔
    (1 ≤ p.kmax ∧ p.kmax ≤ 16383) ∧ (keepsEdgeInputs p.trellis && keepsGatherRange p.trellis) = true := by
  simp only [paramsLegal, Bool.and_eq_true, decide_eq_true_eq, and_assoc]

theorem construct_of_paramsLegal {p : Params} (legal : paramsLegal p = true) :
    State.construct p = .ok (State.resetWith p) := by
  obtain ⟨kmaxLegal, trellisLegal⟩ := (paramsLegal_iff p).mp legal
  have kmaxInRange : ¬ (p.kmax < 1 ∨ 16383 < p.kmax) := by omega
  rw [State.construct, if_neg kmaxInRange, trellisLegal]
  rfl

/-- Each of the two refusals of `State.construct` is taken exactly where a clause of `paramsLegal` fails, so the remaining
branch has them all. -/
theorem paramsLegal_of_construct {p : Params} {s : State} (built : State.construct p = .ok s) :
    paramsLegal p = true ∧ s = State.resetWith p := by
  unfold State.construct at built
  split at built
  case isTrue kmaxOut => cases built
  case isFalse kmaxInRange =>
    split at built
    case isTrue trellisBroken => cases built
    case isFalse trellisKept =>
      cases built
      exact ⟨(paramsLegal_iff p).mpr ⟨by omega, by simpa using trellisKept⟩, rfl⟩

theorem construct_eq_ok_iff {p : Params} {s : State} :
    State.construct p = .ok s ↔ paramsLegal p = true ∧ s = State.resetWith p :=
  ⟨paramsLegal_of_construct, fun ⟨legal, isReset⟩ => isReset ▸ construct_of_paramsLegal legal⟩

/-- Settles O29: both parts are read off `construct_eq_ok_iff`. -/
theorem onlyLegalParametersBuildAMachine : Obligations.OnlyLegalParametersBuildAMachine := by
  intro p
  simp only [construct_eq_ok_iff]
  constructor
  · exact ⟨fun ⟨_, legal, _⟩ => legal, fun legal => ⟨State.resetWith p, legal, rfl⟩⟩
  · exact fun _ ⟨_, isReset⟩ => isReset

end Sys2Proof.Machine
end

section
/-! The decoder on what the encoder writes, and the commands that a decoder can answer (30_encoding.md R82, R84, R85). -/

namespace Sys2Proof

/-- A word that carries the opcode of a row and matches it under its mask decodes to what the row builds. -/
theorem decode_of_row {w pattern mask : CmdWord} {op : Byte} {build : CmdWord → Instr} (opcode : opField w = op)
    (reserved : w &&& mask = pattern) (row : rowOf op = some ⟨op, pattern, mask, build⟩) :
    decode w = .ok (build w) := by
  simp only [decode, opcode, row, if_pos reserved]

/-- Decoding undoes encoding, format by format: the word selects its row, and each field reads back its operand. -/
theorem decode_encode {i : Instr} (wf : i.wf = true) : decode (encode i) = .ok i := by
  cases i
  case nop =>
    exact decode_of_row (w := encode .nop) (opField_encN _) (mask_encN _) rfl
  case setk =>
    refine (decode_of_row (opField_encK _ _) (mask_encK _ _) rfl).trans ?_
    rw [imm16Field_encK, uBits_toNat wf]
  case vzero | ldb =>
    refine (decode_of_row (opField_encD _ _) (mask_encD _ _) rfl).trans ?_
    rw [vdField_encD]
  case vbcast =>
    refine (decode_of_row (opField_encDI _ _ _) (mask_encDI _ _ _) rfl).trans ?_
    rw [vdField_encDI, imm16Field_encDI, sBits_toInt wf]
  case vsign | vadds | vsubs | vilo | vihi | vbshuf | vmax =>
    refine (decode_of_row (opField_encRRR _ _ _ _) (mask_encRRR _ _ _ _) rfl).trans ?_
    rw [vdField_encRRR, vaField_encRRR, vbField_encRRR]
  case vsra =>
    refine (decode_of_row (opField_encRI16 _ _ _ _) (mask_encRI16 _ _ _ _) rfl).trans ?_
    rw [vdField_encRI16, vaField_encRI16, imm16Field_encRI16, uBits_toNat wf]
  case vl0b | vhmin =>
    refine (decode_of_row (opField_encRR _ _ _) (mask_encRR _ _ _) rfl).trans ?_
    rw [vdField_encRR, vaField_encRR]
  case vsh32 | vsh16l | vsh16h =>
    refine (decode_of_row (opField_encRI8 _ _ _ _) (mask_encRI8 _ _ _ _) rfl).trans ?_
    rw [vdField_encRI8, vaField_encRI8, imm8Field_encRI8]
  case vins =>
    refine (decode_of_row (opField_encDL _ _ _ _) (mask_encDL _ _ _ _) rfl).trans ?_
    rw [vdField_encDL, laneField_encDL, imm16Field_encDL, sBits_toInt wf]
  case ldc =>
    refine (decode_of_row (opField_encDI _ _ _) (mask_encDI _ _ _) rfl).trans ?_
    rw [vdField_encDI, imm16Field_encDI, uBits_toNat wf]
  case lda =>
    refine (decode_of_row (opField_encMD _ _ _) (mask_encMD _ _ _) rfl).trans ?_
    rw [vdField_encMD, idx16Field_encMD, uBits_toNat wf]
  case sta =>
    refine (decode_of_row (opField_encMA _ _ _) (mask_encMA _ _ _) rfl).trans ?_
    rw [vaField_encMA, idx16Field_encMA, uBits_toNat wf]
  case ldbm =>
    refine (decode_of_row (opField_encMDH _ _ _ _) (mask_encMDH _ _ _ _) rfl).trans ?_
    rw [vdField_encMDH, hField_encMDH, idx16Field_encMDH, uBits_toNat wf]
  case stbm =>
    refine (decode_of_row (opField_encMAH _ _ _ _) (mask_encMAH _ _ _ _) rfl).trans ?_
    rw [vaField_encMAH, hField_encMAH, idx16Field_encMAH, uBits_toNat wf]
  case stb =>
    refine (decode_of_row (opField_encA _ _) (mask_encA _ _) rfl).trans ?_
    rw [vaField_encA]
  case fwd =>
    obtain ⟨⟨xFits, zFits⟩, leFits⟩ : (fitsS16 _ = true ∧ fitsS16 _ = true) ∧ fitsS16 _ = true := by
      simpa only [Instr.wf, Bool.and_eq_true] using wf
    refine (decode_of_row (opField_encF _ _ _ _) (mask_encF _ _ _ _) rfl).trans ?_
    rw [x16Field_encF, idx16Field_encF, imm16Field_encF, sBits_toInt xFits, sBits_toInt zFits, sBits_toInt leFits]
  case bwd =>
    obtain ⟨zFits, normFits⟩ : fitsS16 _ = true ∧ fitsS16 _ = true := by
      simpa only [Instr.wf, Bool.and_eq_true] using wf
    refine (decode_of_row (opField_encB _ _ _) (mask_encB _ _ _) rfl).trans ?_
    rw [idx16Field_encB, imm16Field_encB, sBits_toInt zFits, sBits_toInt normFits]

theorem fitsU16_toNat (b : Half16) : fitsU16 b.toNat = true := decide_eq_true b.isLt

theorem fitsS16_toInt (b : Half16) : fitsS16 b.toInt = true := by
  obtain ⟨lower, upper⟩ := Machine.s16_bounds b
  simp only [fitsS16, Bool.and_eq_true, decide_eq_true_eq]
  exact ⟨lower, upper⟩

/-- Every row of the opcode map reads its operands from fields of their own width. -/
theorem wf_of_decode {w : CmdWord} {i : Instr} (decoded : decode w = .ok i) : i.wf = true := by
  have rowsBuildWf : ∀ r ∈ opcodeTable, (r.build w).wf = true := by
    simp [opcodeTable, vectorRows, hostRows, Instr.wf, fitsU16_toNat, fitsS16_toInt]
  unfold decode at decoded
  split at decoded
  case h_1 => cases decoded
  case h_2 r row =>
    split at decoded
    case isTrue =>
      cases decoded
      exact rowsBuildWf r (List.mem_of_find?_eq_some row)
    case isFalse => cases decoded

end Sys2Proof
end

section
/-! What a command leaves alone and what it keeps (10_state.md R22, R25, R27, R34), read off `exec_next`: it takes its error,
or it has one of the few effects of `Effect`. -/

namespace Sys2Proof.Machine

variable {s t : State} {i : Instr}

/-! The fields that a write to either half of a BM entry leaves alone. -/

@[simp] theorem State.writeBm_vr (s : State) (k : Nat) (half : BmHalf) (v : Vec) : (s.writeBm k half v).vr = s.vr := by
  cases half <;> rfl

@[simp] theorem State.writeBm_params (s : State) (k : Nat) (half : BmHalf) (v : Vec) :
    (s.writeBm k half v).params = s.params := by
  cases half <;> rfl

@[simp] theorem State.writeBm_kptr (s : State) (k : Nat) (half : BmHalf) (v : Vec) :
    (s.writeBm k half v).kptr = s.kptr := by
  cases half <;> rfl

@[simp] theorem State.writeBm_result (s : State) (k : Nat) (half : BmHalf) (v : Vec) :
    (s.writeBm k half v).result = s.result := by
  cases half <;> rfl

/-! The commands that write each part of the state. -/

/-- A state keeps the entries of its own memories, whatever its other fields are: the memories of t may be those of s by
definition. -/
theorem keepsMetrics_refl (s : State) : keepsMetrics s s :=
  ⟨fun _ _ => rfl, fun _ _ => rfl, fun _ _ => rfl, fun _ _ => rfl⟩

theorem exec_keepsHost (he : exec i s = .next t) : keepsHost s t := by
  rcases exec_next he with ⟨c, -, rfl⟩ | ⟨-, effect⟩
  · exact ⟨rfl, rfl, rfl⟩
  · exact effect.keepsHost

theorem Effect.kptr_eq (effect : Effect s i t) (notSetk : ∀ k, i ≠ .setk k) (notFwd : ∀ x z le, i ≠ .fwd x z le)
    (notBwd : ∀ z norm, i ≠ .bwd z norm) : t.kptr = s.kptr := by
  cases effect with
  | setk => exact absurd rfl (notSetk _)
  | fwd => exact absurd rfl (notFwd _ _ _)
  | bwd => exact absurd rfl (notBwd _ _)
  | stbm => exact s.writeBm_kptr _ _ _
  | nop | vr | sta | stb => rfl

theorem Effect.result_eq (effect : Effect s i t) (notFwd : ∀ x z le, i ≠ .fwd x z le)
    (notBwd : ∀ z norm, i ≠ .bwd z norm) : t.result = s.result := by
  cases effect with
  | fwd => exact absurd rfl (notFwd _ _ _)
  | bwd => exact absurd rfl (notBwd _ _)
  | stbm => exact s.writeBm_result _ _ _
  | nop | setk | vr | sta | stb => rfl

/-- KPTR stays in 0..KMAX (10_state.md R25): SETK and FWD have checked the stage, and BWD counts down. -/
theorem Effect.kptr_le (effect : Effect s i t) (kptrLe : s.kptr.toNat ≤ s.params.kmax) :
    t.kptr.toNat ≤ s.params.kmax := by
  have ofNat_le {k : Nat} (hk : k ≤ s.params.kmax) : (BitVec.ofNat 16 k).toNat ≤ s.params.kmax :=
    (Nat.mod_le _ _).trans hk
  cases effect with
  | setk hk => exact ofNat_le hk
  | fwd hk => exact ofNat_le hk
  | bwd => exact ofNat_le (by omega)
  | stbm => rwa [State.writeBm_kptr]
  | nop | vr | sta | stb => exact kptrLe

theorem Effect.vr_eq (effect : Effect s i t) {r : VReg} (notWritten : vrWrittenBy i ≠ some r) : t.vr[r] = s.vr[r] := by
  cases effect with
  | vr v written => exact s.vr_writeVR_other v fun same => notWritten (same ▸ written)
  | stbm => rw [State.writeBm_vr]
  | nop | setk | sta | stb | fwd | bwd => rfl

theorem Effect.keepsMetrics (effect : Effect s i t) (notFwd : ∀ x z le, i ≠ .fwd x z le)
    (notBwd : ∀ z norm, i ≠ .bwd z norm) (notSta : ∀ va k, i ≠ .sta va k) (notStbm : ∀ va k half, i ≠ .stbm va k half)
    (notStb : ∀ va, i ≠ .stb va) : t.beta = s.beta ∧ Machine.keepsMetrics s t := by
  cases effect with
  | fwd => exact absurd rfl (notFwd _ _ _)
  | bwd => exact absurd rfl (notBwd _ _)
  | sta => exact absurd rfl (notSta _ _)
  | stbm => exact absurd rfl (notStbm _ _ _)
  | stb => exact absurd rfl (notStb _)
  | nop | setk | vr => exact ⟨rfl, keepsMetrics_refl s⟩

/-! The frame of a step. -/

/-- No event of the host changes a parameter (00_scope.md R8; 70_reset_and_hazards.md R240). -/
theorem step_params (hs : step s = .next t) : t.params = s.params := by
  rcases step_next hs with ⟨-, rfl⟩ | ⟨w, rest, -, ran⟩ | ⟨a, rest, v, -, -, rfl⟩ | ⟨rest, -, rfl⟩
  · rfl
  · rcases runWord_next ran with ⟨-, rfl⟩ | ⟨-, e, -, rfl⟩ | ⟨-, i, -, he⟩
    · rfl
    · rfl
    · exact (exec_keepsHost he).1
  · rfl
  · rfl

/-- Settles O25: an error keeps both, and each effect is looked at by `Effect.kptr_eq`, `Effect.kptr_le` and
`Effect.result_eq`. -/
theorem kptrAndResultHaveFewWriters : Obligations.KptrAndResultHaveFewWriters := by
  intro i s t he
  rcases exec_next he with ⟨c, -, rfl⟩ | ⟨-, effect⟩
  · exact ⟨fun _ _ _ => rfl, fun _ kptrLe => kptrLe, fun _ _ => rfl⟩
  · exact ⟨effect.kptr_eq, fun _ => effect.kptr_le, effect.result_eq⟩

/-- Settles O26: an error writes no register and no metric, and each effect is looked at by `Effect.vr_eq` and
`Effect.keepsMetrics`. -/
theorem commandsWriteOnlyTheirVectorRegister : Obligations.CommandsWriteOnlyTheirVectorRegister := by
  intro i s t he
  refine ⟨?vrs, ?metrics, exec_keepsHost he⟩ <;> rcases exec_next he with ⟨c, -, rfl⟩ | ⟨-, effect⟩
  case vrs.inl => exact fun _ _ => rfl
  case vrs.inr => exact fun _ => effect.vr_eq
  case metrics.inl => exact fun _ _ _ _ _ => ⟨rfl, keepsMetrics_refl s⟩
  case metrics.inr => exact effect.keepsMetrics

/-- Settles O19: the ROM is a parameter, and no step changes one. -/
theorem parametersAndRomNeverChange : Obligations.ParametersAndRomNeverChange := by
  intro s t hs
  have sameParams := step_params hs
  exact ⟨sameParams, fun c => by rw [sameParams]⟩

end Sys2Proof.Machine
end

section
/-! The invariant of a machine (10_state.md R25; 20_memory.md R60; 60_exceptions.md R210, R218), kept by every effect, every
error entry, every word and reset. -/

namespace Sys2Proof.Machine

variable {s t : State} {i : Instr} {c : ErrorCode} {w : CmdWord}

/-! The error record. -/

/-- While no error is recorded KPTR does not show in the error record, so a command may move it. -/
theorem errorConsistent_of_running (running : s.halted = false) (consistent : errorConsistent s = true)
    (sameStatus : t.status = s.status) (sameErrcmd : t.errcmd = s.errcmd) : errorConsistent t = true := by
  have noError : s.status = .ok := by
    cases hs : s.status with
    | ok => rfl
    | error c => simp [State.halted, hs, Status.err] at running
  simp only [errorConsistent, noError] at consistent
  simp only [errorConsistent, sameStatus, noError, sameErrcmd, consistent]

theorem errorConsistent_raiseError_of_decodeError {e : DecodeError} (rejected : decode w = .error e) :
    errorConsistent (s.raiseError (codeOf e) w) = true := by
  simp [errorConsistent, rejected]

/-- A failed check leaves the command's own word in ERRCMD (log 11), which decodes to the command again. -/
theorem errorConsistent_raiseError_of_check (wf : i.wf = true)
    (failed : commandCheck s.params.kmax s.kptr.toNat i = some c) :
    errorConsistent (s.raiseError c (encode i)) = true := by
  simp [errorConsistent, decode_encode wf, failed]

/-! The invariant. -/

/-- Error entry writes the error record and nothing else (60_exceptions.md R212). -/
theorem State.Inv.raiseError (inv : s.Inv) (consistent : errorConsistent (s.raiseError c w) = true) :
    (s.raiseError c w).Inv := by
  obtain ⟨legal, kptrLe, alphaWf, bmLoWf, bmHiWf, llrWf, -⟩ := inv
  exact ⟨legal, kptrLe, alphaWf, bmLoWf, bmHiWf, llrWf, consistent⟩

/-- Each entry that an effect writes is inside its memory: the command checked the stage it names, or the stage is KPTR or
KPTR - 1. -/
theorem Effect.inv (effect : Effect s i t) (inv : s.Inv) (running : s.halted = false) : t.Inv := by
  obtain ⟨legal, kptrLe, alphaWf, bmLoWf, bmHiWf, llrWf, consistent⟩ := inv
  have kptrLe' := effect.kptr_le kptrLe
  have consistent' :=
    errorConsistent_of_running running consistent effect.status_errcmd.1 effect.status_errcmd.2
  cases effect with
  | nop | setk | vr | stb => exact ⟨legal, kptrLe', alphaWf, bmLoWf, bmHiWf, llrWf, consistent'⟩
  | sta hk =>
    exact ⟨legal, kptrLe', Mem.wf_write _ (Nat.lt_succ_of_le hk) alphaWf, bmLoWf, bmHiWf, llrWf, consistent'⟩
  | @stbm _ _ half _ hk =>
    cases half with
    | lo => exact ⟨legal, kptrLe', alphaWf, Mem.wf_write _ hk bmLoWf, bmHiWf, llrWf, consistent'⟩
    | hi => exact ⟨legal, kptrLe', alphaWf, bmLoWf, Mem.wf_write _ hk bmHiWf, llrWf, consistent'⟩
  | fwd hk =>
    exact ⟨legal, kptrLe', Mem.wf_write _ (Nat.succ_lt_succ hk) alphaWf, Mem.wf_write _ hk bmLoWf,
      Mem.wf_write _ hk bmHiWf, llrWf, consistent'⟩
  | bwd hk =>
    have stageInRange : s.kptr.toNat - 1 < s.params.kmax := by omega
    exact ⟨legal, kptrLe', alphaWf, bmLoWf, bmHiWf, Mem.wf_write _ stageInRange llrWf, consistent'⟩

theorem runWord_inv (inv : s.Inv) (ran : runWord w s = .next t) : t.Inv := by
  rcases runWord_next ran with ⟨-, rfl⟩ | ⟨-, e, rejected, rfl⟩ | ⟨running, i, decoded, he⟩
  · exact inv
  · exact inv.raiseError (errorConsistent_raiseError_of_decodeError rejected)
  · rcases exec_next he with ⟨c, failed, rfl⟩ | ⟨-, effect⟩
    · exact inv.raiseError (errorConsistent_raiseError_of_check (wf_of_decode decoded) failed)
    · exact effect.inv inv running

theorem applyReset_inv (legal : paramsLegal s.params = true) : s.applyReset.Inv :=
  ⟨legal, Nat.zero_le _, rfl, rfl, rfl, rfl, rfl⟩

/-- Settles O17: the invariant does not see the host's side of the ports, so an idle step and a host read keep it at once. -/
theorem stepKeepsTheInvariant : Obligations.StepKeepsTheInvariant := by
  intro s t inv hs
  have tookEvent (rest : List HostEvent) : State.Inv { s with inbox := rest } := inv
  rcases step_next hs with ⟨-, rfl⟩ | ⟨w, rest, -, ran⟩ | ⟨a, rest, v, -, -, rfl⟩ | ⟨rest, -, rfl⟩
  · exact inv
  · exact runWord_inv (tookEvent rest) ran
  · exact tookEvent rest
  · exact applyReset_inv inv.1

end Sys2Proof.Machine
end

section
/-! Reads of marked state (10_state.md R37; 60_exceptions.md R216), the read port (R29) and the STATUS word (R26). -/

namespace Sys2Proof.Machine

variable {s : State} {addr : Half16}

/-! Reads by policy. -/

theorem Reg.read_by_policy (r : Reg) (policy : UninitPolicy) (p : Place) :
    (r.written = true → r.read policy p = .ok r.value) ∧
      (r.written = false → policy = .fault → r.read policy p = .error (.uninitRead p)) ∧
      (r.written = false → policy = .value → ∃ v, r.read policy p = .ok v) := by
  refine ⟨fun written => ?_, fun unwritten faults => ?_, fun unwritten goesOn => ⟨r.value, ?_⟩⟩
  · simp [Reg.read, written]
  · simp [Reg.read, unwritten, faults]
  · simp [Reg.read, unwritten, goesOn]

theorem Mem.read_by_policy {α : Type} (m : Mem α) {size k : Nat} (policy : UninitPolicy) (p : Place) (free : α)
    (hk : k < size) :
    (∀ v, m.find k = some v → m.read size policy p free k = .ok v) ∧
      (m.find k = none → policy = .fault → m.read size policy p free k = .error (.uninitRead p)) ∧
      (m.find k = none → policy = .value → ∃ v, m.read size policy p free k = .ok v) := by
  refine ⟨fun v => Mem.read_of_find hk, fun unwritten faults => ?_, fun unwritten goesOn => ⟨free, ?_⟩⟩
  · rw [Mem.read_of_none hk unwritten, faults]
  · rw [Mem.read_of_none hk unwritten, goesOn]

/-- Settles O21: VR and BETA are registers, every other place is an entry of a memory. -/
theorem unwrittenPlacesReadByPolicy : Obligations.UnwrittenPlacesReadByPolicy := by
  intro s
  refine ⟨fun r => Reg.read_by_policy _ _ _, Reg.read_by_policy _ _ _,
    fun k hk => Mem.read_by_policy _ _ _ _ (Nat.lt_succ_of_le hk), fun k hk => ?_⟩
  obtain ⟨loWritten, loFaults, loGoesOn⟩ :=
    s.bmLo.read_by_policy s.params.uninitMem (.bm k .lo) (Config.unwrittenBmLo k) hk
  obtain ⟨hiWritten, hiFaults, hiGoesOn⟩ :=
    s.bmHi.read_by_policy s.params.uninitMem (.bm k .hi) (Config.unwrittenBmHi k) hk
  refine ⟨loWritten, hiWritten, loFaults, hiFaults, fun half unmarked goesOn => ?_, Mem.read_by_policy _ _ _ _ hk⟩
  cases half with
  | lo => exact loGoesOn (by simpa [State.marked] using unmarked) goesOn
  | hi => exact hiGoesOn (by simpa [State.marked] using unmarked) goesOn

/-! The read port, range by range. -/

theorem readPort_vr {r : VReg} {i : Nat} (hi : i < 8) (ha : addr.toNat = 0x0100 + 8 * r.val + i) :
    s.readPort addr = (s.readVR r).map fun v => u16 (h v i) := by
  have hr := r.isLt
  have register : Fin.ofNat 16 ((addr.toNat - 0x0100) / 8) = r := Fin.ext (by simp only [Fin.val_ofNat]; omega)
  have laneNumber : (addr.toNat - 0x0100) % 8 = i := by omega
  unfold State.readPort
  iterate 6 rw [if_neg (by omega)]
  rw [if_pos (by omega), register, laneNumber]
  simp only [u16_h]

theorem readPort_beta {i : Nat} (hi : i < 8) (ha : addr.toNat = 0x0180 + i) :
    s.readPort addr = s.readBeta.map fun v => u16 (h v i) := by
  have laneNumber : addr.toNat - 0x0180 = i := by omega
  unfold State.readPort
  iterate 7 rw [if_neg (by omega)]
  rw [if_pos (by omega), laneNumber]
  simp only [u16_h]

/-- From 0x4000 up the port shows the LLR memory, and 0 beyond its end. -/
theorem readPort_llr {k : Nat} (ha : addr.toNat = 0x4000 + k) :
    s.readPort addr = if k < s.params.kmax then s.readLlr k else .ok 0 := by
  have stage : addr.toNat - 0x4000 = k := by omega
  unfold State.readPort
  iterate 9 rw [if_neg (by omega)]
  rw [stage]

theorem readPort_errcmd {j : Nat} (hj : j < 4) (ha : addr.toNat = 0x0004 + j) :
    s.readPort addr = .ok (s.errcmd.extractLsb' (16 * j) 16) := by
  have word : addr.toNat - 0x0004 = j := by omega
  unfold State.readPort
  iterate 4 rw [if_neg (by omega)]
  rw [if_pos (by omega), word]

/-- The reserved addresses below the LLR range read 0. -/
theorem readPort_reserved (ha : addr.toNat = 0x0003 ∨ (0x0008 ≤ addr.toNat ∧ addr.toNat ≤ 0x00FF) ∨
    (0x0188 ≤ addr.toNat ∧ addr.toNat ≤ 0x3FFF)) : s.readPort addr = .ok 0x0000 := by
  unfold State.readPort
  iterate 3 rw [if_neg (by omega)]
  rcases ha with ha | ha | ha
  · rw [if_pos (by omega)]
  · iterate 2 rw [if_neg (by omega)]
    rw [if_pos (by omega)]
  · iterate 5 rw [if_neg (by omega)]
    rw [if_pos (by omega)]

/-- Settles O22: each range of R29 has its own equation; a register's fault passes through the lane selection. -/
theorem readPortFollowsItsMap : Obligations.ReadPortFollowsItsMap := by
  intro s addr
  refine ⟨fun ha => ?_, fun ha => ?_, fun ha => ?_, fun ha => readPort_reserved (.inl ha),
    readPort_errcmd (j := 0) (by omega), readPort_errcmd (j := 1) (by omega), readPort_errcmd (j := 2) (by omega),
    readPort_errcmd (j := 3) (by omega), fun lower upper => readPort_reserved (.inr (.inl ⟨lower, upper⟩)),
    fun r i hi ha => ?_, fun i hi ha => ?_, fun lower upper => readPort_reserved (.inr (.inr ⟨lower, upper⟩)),
    fun k ha hk => ?_, fun k ha hk => ?_⟩
  · simp [State.readPort, ha]
  · simp [State.readPort, ha]
  · simp [State.readPort, ha]
  · rw [readPort_vr hi ha]
    exact ⟨fun v hv => by rw [hv]; rfl, fun f hf => by rw [hf]; rfl⟩
  · rw [readPort_beta hi ha]
    exact ⟨fun v hv => by rw [hv]; rfl, fun f hf => by rw [hf]; rfl⟩
  · rw [readPort_llr ha, if_pos hk]
  · rw [readPort_llr ha, if_neg (by omega)]

/-! The STATUS word. -/

/-- Settles O24: STATUS has five values, no error and the four codes of 60_exceptions.md R210. -/
theorem statusWordHasItsFields : Obligations.StatusWordHasItsFields := by
  intro st
  cases st with
  | ok => decide
  | error c => cases c <;> decide

end Sys2Proof.Machine
end

section
/-! The trellis and the default ROM (10_state.md R33, R34, R35). Each entry of the ROM is a literal, so what it holds at each
of its eight lanes is decided. -/

namespace Sys2Proof.Machine

/-- A gather table whose index pair at every lane i is that of the lane `source i` moves each `source i` to i (R119). -/
theorem lane_vbshuf_of_table {table : Vec} {source : Nat → Nat}
    (pairs : ∀ i < 8, source i < 8 ∧ (byteOf table (2 * i)).toNat = 2 * source i ∧
      (byteOf table (2 * i + 1)).toNat = 2 * source i + 1) (v : Vec) {i : Nat} (hi : i < 8) :
    lane (vbshuf v table) i = lane v (source i) := by
  obtain ⟨inRange, lowByte, highByte⟩ := pairs i hi
  exact lane_vbshuf hi inRange lowByte highByte

/-- ROM[0] and ROM[1] hold the polarities of the upper edge into each state (R34). -/
theorem forwardPolarities : ∀ i < 8, ∀ u, nextState (evenPred i) u = i →
    h (romEntry lteTrellis 0) i = polarity u ∧ h (romEntry lteTrellis 1) i = polarity (parityBit (evenPred i) u) := by
  decide

/-- ROM[2] holds the parity polarity of the u = 1 edge out of each state (R34). -/
theorem backwardPolarities : ∀ i < 8, h (romEntry lteTrellis 2) i = polarity (parityBit i true) := by decide

/-- Settles O58: the polarities are decided, and each gather table is read pair by pair. -/
theorem defaultRomEncodesTheTrellis : Obligations.DefaultRomEncodesTheTrellis := by
  intro i hi
  refine ⟨forwardPolarities i hi, backwardPolarities i hi, fun v => ⟨?even, ?odd, ?zero, ?one⟩⟩
  case even => exact lane_vbshuf_of_table (source := evenPred) (by decide) v hi
  case odd => exact lane_vbshuf_of_table (source := oddPred) (by decide) v hi
  case zero => exact lane_vbshuf_of_table (source := fun i => nextState i false) (by decide) v hi
  case one => exact lane_vbshuf_of_table (source := fun i => nextState i true) (by decide) v hi

/-- The model's check of R35 (d) is that property. -/
theorem keepsEdgeInputs_iff (t : Trellis) : keepsEdgeInputs t = true ↔
    ∀ s < 8, ∀ u, u = decide (h t.sysPol s > 0) →
      nextState (evenPred s) u = s ∧ nextState (oddPred s) (!u) = s ∧
        parityBit (oddPred s) (!u) = !(parityBit (evenPred s) u) := by
  simp only [keepsEdgeInputs, List.all_eq_true, List.mem_range, Bool.and_eq_true, decide_eq_true_eq, beq_iff_eq,
    and_assoc, forall_eq]

/-- The model's check of R35 (e) is that property. -/
theorem keepsGatherRange_iff (t : Trellis) : keepsGatherRange t = true ↔
    ∀ g ∈ [t.fGather0, t.fGather1, t.lGather0, t.lGather1], ∀ j < 16, (byteOf g j).toNat < 16 := by
  simp only [keepsGatherRange, List.all_eq_true, List.mem_range, decide_eq_true_eq]

/-- Settles O59: the edge table and R35 (a) to (c) are closed facts about the literals; R35 (d) and (e) are what the model's
own checks of a ROM test, and the default ROM passes both. -/
theorem trellisTableAndRomProperties : Obligations.TrellisTableAndRomProperties := by
  refine ⟨?edgeTable, ?halvesNegated, ?backwardParity, ?edgeInputs, ?gatherRange⟩
  case edgeTable => decide
  case halvesNegated => decide
  case backwardParity => decide
  case edgeInputs => exact (keepsEdgeInputs_iff lteTrellis).mp (by decide)
  case gatherRange => exact (keepsGatherRange_iff lteTrellis).mp (by decide)

end Sys2Proof.Machine
end

section
/-! Repeated commands and host reads (20_memory.md R64). -/

namespace Sys2Proof.Machine

variable {s t : State} {i : Instr}

/-! Host reads. -/

theorem step_of_read {a : Half16} {rest : List HostEvent} (pending : s.inbox = .read a :: rest) :
    step s = readEvent a { s with inbox := rest } := by
  simp [step, takeEvent, pending, hostEvent]

/-- Settles O23: the port does not show the pending events, so it answers as before the read was taken. -/
theorem hostReadChangesNothing : Obligations.HostReadChangesNothing := by
  intro s a rest pending
  refine ⟨fun v answered => ?_, fun f stopped => ?_⟩
  · rw [step_of_read pending, readEvent, readPort_inbox, answered, withRead_ok]
  · rw [step_of_read pending, readEvent, readPort_inbox, stopped, withRead_error]

/-! A write made twice is the write made once. -/

theorem State.writeVR_writeVR (s : State) (r : VReg) (v : Vec) : (s.writeVR r v).writeVR r v = s.writeVR r v := by
  simp [State.writeVR]

theorem State.writeAlpha_writeAlpha (s : State) (k : Nat) (v : Vec) :
    (s.writeAlpha k v).writeAlpha k v = s.writeAlpha k v := by
  simp [State.writeAlpha, Mem.write_write]

theorem State.writeBm_writeBm (s : State) (k : Nat) (half : BmHalf) (v : Vec) :
    (s.writeBm k half v).writeBm k half v = s.writeBm k half v := by
  cases half <;> simp [State.writeBm, State.writeBmLo, State.writeBmHi, Mem.write_write]

/-! The shapes of commands, executed again. -/

/-- A command that reads one place and writes another repeats: the write leaves what it read, and made twice it is the
write made once. -/
theorem withRead_repeats {α : Type} (read : State → Except Fault α) (write : State → α → State)
    (sourceKept : ∀ a, read (write s a) = read s) (writtenOnce : ∀ a, write (write s a) a = write s a)
    (answered : withRead (read s) (fun a => .next (write s a)) = .next t) :
    withRead (read t) (fun a => .next (write t a)) = .next t := by
  obtain ⟨a, source, answered⟩ := withRead_next answered
  obtain rfl : write s a = t := by simpa using answered
  rw [sourceKept, source, withRead_ok, writtenOnce]

theorem unary_repeats {g : Vec → Vec} {vd va : VReg} (notSource : va ≠ vd) (answered : unary g vd va s = .next t) :
    unary g vd va t = .next t :=
  withRead_repeats (State.readVR · va) (fun s a => s.writeVR vd (g a))
    (fun _ => s.readVR_writeVR_other _ notSource) (fun _ => s.writeVR_writeVR _ _) answered

theorem binary_repeats {g : Vec → Vec → Vec} {vd va vb : VReg} (notSources : va ≠ vd ∧ vb ≠ vd)
    (answered : binary g vd va vb s = .next t) : binary g vd va vb t = .next t := by
  obtain ⟨a, b, sourceA, sourceB, rfl⟩ := binary_next answered
  rw [← s.readVR_writeVR_other (g a b) notSources.1] at sourceA
  rw [← s.readVR_writeVR_other (g a b) notSources.2] at sourceB
  rw [binary_of_ok sourceA sourceB, State.writeVR_writeVR]

/-- A checked command repeats if its run does and its check is of nothing it changes: an error taken twice is the error
taken once. -/
theorem checked_repeats {bad : Prop} [Decidable bad] {c : ErrorCode} {run : State → Result}
    (runRepeats : run s = .next t → run t = .next t) (answered : checked (decide bad) c i run s = .next t) :
    checked (decide bad) c i run t = .next t := by
  rcases checked_next answered with ⟨failed, rfl⟩ | ⟨passed, answered⟩
  · exact checked_of failed
  · rw [checked_of_not passed, runRepeats answered]

/-- Settles O27, command by command along the shapes: each check is of operands and parameters alone, and no command here
reads what it writes. VINS is left out, as it reads the register it writes. -/
theorem repeatedCommandChangesNothingMore : Obligations.RepeatedCommandChangesNothingMore := by
  intro i s t notFwd notBwd notSource answered
  have sameParams : t.params = s.params := (exec_keepsHost answered).1
  cases i
  case fwd => exact absurd rfl (notFwd _ _ _)
  case bwd => exact absurd rfl (notBwd _ _)
  case vins => exact absurd (List.mem_singleton_self _) (notSource _ rfl)
  case nop => rfl
  case vzero | vbcast =>
    cases answered
    exact congrArg Host.Outcome.next (s.writeVR_writeVR _ _)
  case vsra | vl0b | vhmin | vsh32 | vsh16l | vsh16h =>
    exact unary_repeats (by simpa [readsOf, eq_comm] using notSource _ rfl) answered
  case vadds | vsubs | vilo | vihi | vbshuf | vmax =>
    exact binary_repeats (by simpa [readsOf, eq_comm] using notSource _ rfl) answered
  case vsign =>
    simp only [exec, execVsign, sameParams] at answered ⊢
    exact binary_repeats (by simpa [readsOf, eq_comm] using notSource _ rfl) answered
  case setk =>
    simp only [exec, execSetk, sameParams] at answered ⊢
    refine checked_repeats (fun ran => ?_) answered
    cases ran
    rfl
  case ldc =>
    simp only [exec, execLdc] at answered ⊢
    refine checked_repeats (fun ran => ?_) answered
    cases ran
    exact congrArg Host.Outcome.next (s.writeVR_writeVR _ _)
  case lda vd k =>
    simp only [exec, execLda, sameParams] at answered ⊢
    exact checked_repeats (withRead_repeats (State.readAlpha · k) (State.writeVR · vd ·)
      (fun _ => rfl) fun _ => s.writeVR_writeVR _ _) answered
  case sta va k =>
    simp only [exec, execSta, sameParams] at answered ⊢
    exact checked_repeats (withRead_repeats (State.readVR · va) (State.writeAlpha · k ·)
      (fun _ => rfl) fun _ => s.writeAlpha_writeAlpha _ _) answered
  case ldbm vd k half =>
    simp only [exec, execLdbm, sameParams] at answered ⊢
    exact checked_repeats (withRead_repeats (State.readBm · k half) (State.writeVR · vd ·)
      (fun _ => rfl) fun _ => s.writeVR_writeVR _ _) answered
  case stbm va k half =>
    simp only [exec, execStbm, sameParams] at answered ⊢
    exact checked_repeats (withRead_repeats (State.readVR · va) (State.writeBm · k half ·)
      (fun _ => by simp [State.readVR]) fun _ => s.writeBm_writeBm _ _ _) answered
  case ldb vd =>
    exact withRead_repeats State.readBeta (State.writeVR · vd ·)
      (fun _ => rfl) (fun _ => s.writeVR_writeVR _ _) answered
  case stb va =>
    exact withRead_repeats (State.readVR · va) State.writeBeta (fun _ => rfl) (fun _ => rfl) answered

end Sys2Proof.Machine
end

section
/-! Several instances (20_memory.md R73; 60_exceptions.md R223): a step of one changes the list at its place alone. -/

namespace Sys2Proof.Machine

/-- The state after a step, where the step goes on; where it stops, the state it stops in. -/
def State.stepped (s : State) : State :=
  match step s with
  | .next t => t
  | _ => s

theorem clusterStep_succ_cons {n : Nat} {s : State} {c after : Cluster} :
    clusterStep (n + 1) (s :: c) = .next after ↔ ∃ c', clusterStep n c = .next c' ∧ after = s :: c' := by
  cases stepped : clusterStep n c <;> simp [clusterStep, stepped, eq_comm]

/-- A cluster steps exactly where the named instance, if there is one, steps, and then only at its place. -/
theorem clusterStep_eq_next_iff {n : Nat} {all after : Cluster} :
    clusterStep n all = .next after ↔
      (∀ s, all[n]? = some s → step s = .next s.stepped) ∧ after = all.modify n State.stepped := by
  induction all generalizing n after with
  | nil => simp [clusterStep, eq_comm]
  | cons s c ih =>
    cases n with
    | zero => cases stepped : step s <;> simp [clusterStep, State.stepped, stepped, eq_comm]
    | succ n => simp [clusterStep_succ_cons, ih, and_assoc]

/-- Settles O28: both parts are read off `clusterStep_eq_next_iff`; changes at two places of a list commute. -/
theorem instancesAreIndependent : Obligations.InstancesAreIndependent := by
  refine ⟨fun n all after stepped => ?_, fun m n all mid after different first second => ?_⟩
  · obtain ⟨steps, rfl⟩ := clusterStep_eq_next_iff.mp stepped
    refine ⟨List.length_modify .., fun m other => List.getElem?_modify_ne _ _ other.symm, fun s here => ?_⟩
    exact ⟨s.stepped, steps s here, by simp [here]⟩
  · obtain ⟨mSteps, rfl⟩ := clusterStep_eq_next_iff.mp first
    obtain ⟨nSteps, rfl⟩ := clusterStep_eq_next_iff.mp second
    simp only [List.getElem?_modify_ne _ _ different] at nSteps
    refine ⟨all.modify n State.stepped, clusterStep_eq_next_iff.mpr ⟨nSteps, rfl⟩,
      clusterStep_eq_next_iff.mpr ⟨?_, ?_⟩⟩
    · simpa only [List.getElem?_modify_ne _ _ different.symm] using mSteps
    · exact List.modify_modify_ne _ _ _ different

end Sys2Proof.Machine
end

section
/-! What a word that matches a row of the opcode map consists of (30_encoding.md R82): the fields of its format, with the
row's opcode above them and zeros between them. So the word is the encoding of the command that the row builds. -/

namespace Sys2Proof

variable {w mask : CmdWord} {op : Byte}

/-! The fields of a word, as the encoder writes them. -/

theorem ofNat_toFin {n : Nat} (b : BitVec n) : BitVec.ofNat n b.toFin.val = b :=
  (BitVec.ofNat_toNat n b).trans (BitVec.setWidth_eq b)

theorem regBits_vdField (w : CmdWord) : regBits (vdField w) = w.extractLsb' 52 4 := ofNat_toFin _

theorem regBits_vaField (w : CmdWord) : regBits (vaField w) = w.extractLsb' 48 4 := ofNat_toFin _

theorem regBits_vbField (w : CmdWord) : regBits (vbField w) = w.extractLsb' 44 4 := ofNat_toFin _

theorem laneBits_laneField (w : CmdWord) : BitVec.ofNat 3 (laneField w).val = w.extractLsb' 16 3 := ofNat_toFin _

theorem hBits_hField (w : CmdWord) : hBits (hField w) = w.extractLsb' 32 1 := by
  rw [hField, BitVec.getLsbD_eq_extractLsb']
  generalize w.extractLsb' 32 1 = bit
  decide +revert

theorem sBits_toInt_self (b : Half16) : sBits b.toInt = b := BitVec.ofInt_toInt

theorem uBits_toNat_self (b : Half16) : uBits b.toNat = b := ofNat_toFin b

/-! A word that matches: the opcode stands in it, and zeros where the mask has ones below the opcode. -/

theorem extractLsb'_of_match {pattern : CmdWord} {start len : Nat} (matched : w &&& mask = pattern)
    (ones : mask.extractLsb' start len = BitVec.allOnes len) :
    w.extractLsb' start len = pattern.extractLsb' start len := by
  rw [← matched, BitVec.extractLsb'_and, ones, BitVec.and_allOnes]

theorem opcode_of_match (matched : w &&& mask = op ++ 0#56)
    (ones : mask.extractLsb' 56 8 = BitVec.allOnes 8 := by decide) : w.extractLsb' 56 8 = op :=
  (extractLsb'_of_match matched ones).trans take_high

theorem zeros_of_match (start len : Nat) (matched : w &&& mask = op ++ 0#56)
    (ones : mask.extractLsb' start len = BitVec.allOnes len := by decide) (below : start + len ≤ 56 := by decide) :
    w.extractLsb' start len = 0#len :=
  (extractLsb'_of_match matched ones).trans <| by
    rw [BitVec.extractLsb'_append_eq_of_add_le below, BitVec.extractLsb'_zero]

/-! The formats: the opcode and the zeros are written back as the bits of the word, and then all its fields join. -/

theorem encN_fields (op : Byte) (matched : w &&& 0xFFFFFFFFFFFFFFFF = op ++ 0#56) : encN op = w := by
  rw [encN, ← opcode_of_match matched, ← zeros_of_match 0 56 matched]
  simp only [BitVec.extractLsb'_append_extractLsb'_eq_extractLsb', BitVec.extractLsb'_eq_self]

theorem encK_fields (op : Byte) (matched : w &&& 0xFFFFFFFFFFFF0000 = op ++ 0#56) : encK op (imm16Field w) = w := by
  rw [encK, imm16Field, ← opcode_of_match matched, ← zeros_of_match 16 40 matched]
  simp only [BitVec.extractLsb'_append_extractLsb'_eq_extractLsb', BitVec.extractLsb'_eq_self]

theorem encD_fields (op : Byte) (matched : w &&& 0xFF0FFFFFFFFFFFFF = op ++ 0#56) : encD op (vdField w) = w := by
  rw [encD, regBits_vdField, ← opcode_of_match matched, ← zeros_of_match 0 52 matched]
  simp only [BitVec.extractLsb'_append_extractLsb'_eq_extractLsb', BitVec.extractLsb'_eq_self]

theorem encA_fields (op : Byte) (matched : w &&& 0xFFF0FFFFFFFFFFFF = op ++ 0#56) : encA op (vaField w) = w := by
  rw [encA, regBits_vaField, ← opcode_of_match matched, ← zeros_of_match 52 4 matched, ← zeros_of_match 0 48 matched]
  simp only [BitVec.extractLsb'_append_extractLsb'_eq_extractLsb', BitVec.extractLsb'_eq_self]

theorem encRR_fields (op : Byte) (matched : w &&& 0xFF00FFFFFFFFFFFF = op ++ 0#56) :
    encRR op (vdField w) (vaField w) = w := by
  rw [encRR, regBits_vdField, regBits_vaField, ← opcode_of_match matched, ← zeros_of_match 0 48 matched]
  simp only [BitVec.extractLsb'_append_extractLsb'_eq_extractLsb', BitVec.extractLsb'_eq_self]

theorem encRRR_fields (op : Byte) (matched : w &&& 0xFF000FFFFFFFFFFF = op ++ 0#56) :
    encRRR op (vdField w) (vaField w) (vbField w) = w := by
  rw [encRRR, regBits_vdField, regBits_vaField, regBits_vbField, ← opcode_of_match matched,
    ← zeros_of_match 0 44 matched]
  simp only [BitVec.extractLsb'_append_extractLsb'_eq_extractLsb', BitVec.extractLsb'_eq_self]

theorem encDI_fields (op : Byte) (matched : w &&& 0xFF0FFFFFFFFF0000 = op ++ 0#56) :
    encDI op (vdField w) (imm16Field w) = w := by
  rw [encDI, regBits_vdField, imm16Field, ← opcode_of_match matched, ← zeros_of_match 16 36 matched]
  simp only [BitVec.extractLsb'_append_extractLsb'_eq_extractLsb', BitVec.extractLsb'_eq_self]

theorem encRI16_fields (op : Byte) (matched : w &&& 0xFF00FFFFFFFF0000 = op ++ 0#56) :
    encRI16 op (vdField w) (vaField w) (imm16Field w) = w := by
  rw [encRI16, regBits_vdField, regBits_vaField, imm16Field, ← opcode_of_match matched, ← zeros_of_match 16 32 matched]
  simp only [BitVec.extractLsb'_append_extractLsb'_eq_extractLsb', BitVec.extractLsb'_eq_self]

theorem encRI8_fields (op : Byte) (matched : w &&& 0xFF00FFFFFFFFFF00 = op ++ 0#56) :
    encRI8 op (vdField w) (vaField w) (imm8Field w) = w := by
  rw [encRI8, regBits_vdField, regBits_vaField, imm8Field, ← opcode_of_match matched, ← zeros_of_match 8 40 matched]
  simp only [BitVec.extractLsb'_append_extractLsb'_eq_extractLsb', BitVec.extractLsb'_eq_self]

theorem encDL_fields (op : Byte) (matched : w &&& 0xFF0FFFFFFFF80000 = op ++ 0#56) :
    encDL op (vdField w) (laneField w) (imm16Field w) = w := by
  rw [encDL, regBits_vdField, laneBits_laneField, imm16Field, ← opcode_of_match matched,
    ← zeros_of_match 19 33 matched]
  simp only [BitVec.extractLsb'_append_extractLsb'_eq_extractLsb', BitVec.extractLsb'_eq_self]

theorem encMD_fields (op : Byte) (matched : w &&& 0xFF0FFFFF0000FFFF = op ++ 0#56) :
    encMD op (vdField w) (idx16Field w) = w := by
  rw [encMD, regBits_vdField, idx16Field, ← opcode_of_match matched, ← zeros_of_match 32 20 matched,
    ← zeros_of_match 0 16 matched]
  simp only [BitVec.extractLsb'_append_extractLsb'_eq_extractLsb', BitVec.extractLsb'_eq_self]

theorem encMDH_fields (op : Byte) (matched : w &&& 0xFF0FFFFE0000FFFF = op ++ 0#56) :
    encMDH op (vdField w) (hField w) (idx16Field w) = w := by
  rw [encMDH, regBits_vdField, hBits_hField, idx16Field, ← opcode_of_match matched, ← zeros_of_match 33 19 matched,
    ← zeros_of_match 0 16 matched]
  simp only [BitVec.extractLsb'_append_extractLsb'_eq_extractLsb', BitVec.extractLsb'_eq_self]

theorem encMA_fields (op : Byte) (matched : w &&& 0xFFF0FFFF0000FFFF = op ++ 0#56) :
    encMA op (vaField w) (idx16Field w) = w := by
  rw [encMA, regBits_vaField, idx16Field, ← opcode_of_match matched, ← zeros_of_match 52 4 matched]
  -- The two runs of zeros have one width, so each is written back at its own place.
  nth_rw 2 [← zeros_of_match 0 16 matched]
  rw [← zeros_of_match 32 16 matched]
  simp only [BitVec.extractLsb'_append_extractLsb'_eq_extractLsb', BitVec.extractLsb'_eq_self]

theorem encMAH_fields (op : Byte) (matched : w &&& 0xFFF0FFFE0000FFFF = op ++ 0#56) :
    encMAH op (vaField w) (hField w) (idx16Field w) = w := by
  rw [encMAH, regBits_vaField, hBits_hField, idx16Field, ← opcode_of_match matched, ← zeros_of_match 52 4 matched,
    ← zeros_of_match 33 15 matched, ← zeros_of_match 0 16 matched]
  simp only [BitVec.extractLsb'_append_extractLsb'_eq_extractLsb', BitVec.extractLsb'_eq_self]

theorem encF_fields (op : Byte) (matched : w &&& 0xFFFF000000000000 = op ++ 0#56) :
    encF op (x16Field w) (idx16Field w) (imm16Field w) = w := by
  rw [encF, x16Field, idx16Field, imm16Field, ← opcode_of_match matched, ← zeros_of_match 48 8 matched]
  simp only [BitVec.extractLsb'_append_extractLsb'_eq_extractLsb', BitVec.extractLsb'_eq_self]

theorem encB_fields (op : Byte) (matched : w &&& 0xFFFFFFFF00000000 = op ++ 0#56) :
    encB op (idx16Field w) (imm16Field w) = w := by
  rw [encB, idx16Field, imm16Field, ← opcode_of_match matched, ← zeros_of_match 32 24 matched]
  simp only [BitVec.extractLsb'_append_extractLsb'_eq_extractLsb', BitVec.extractLsb'_eq_self]

/-! The rows of the opcode map. -/

/-- One format for each row of the opcode map, in its order. -/
theorem encode_build_of_match : ∀ r ∈ opcodeTable, w &&& r.mask = r.pattern → encode (r.build w) = w := by
  simp only [opcodeTable, vectorRows, hostRows, List.forall_mem_append, List.forall_mem_cons, encode, sBits_toInt_self,
    uBits_toNat_self]
  exact ⟨⟨encN_fields 0x01, encK_fields 0x02, encD_fields 0x10, encDI_fields 0x11, encRRR_fields 0x12,
    encRI16_fields 0x13, encRRR_fields 0x14, encRRR_fields 0x15, encRRR_fields 0x16, encRRR_fields 0x17,
    encRRR_fields 0x18, encRR_fields 0x19, encRRR_fields 0x1A, encRR_fields 0x1B, encRI8_fields 0x1C,
    encRI8_fields 0x1D, encRI8_fields 0x1E, List.forall_mem_nil _⟩,
    encDL_fields 0x20, encDI_fields 0x21, encMD_fields 0x22, encMA_fields 0x23, encMDH_fields 0x24,
    encMAH_fields 0x25, encD_fields 0x26, encA_fields 0x27, encF_fields 0x30, encB_fields 0x31, List.forall_mem_nil _⟩

end Sys2Proof
end

section
/-! What the decoder answers, said through the rows of the opcode map (30_encoding.md R85, R89), and the reserved bits (R82,
R86) and illegal opcodes (R87) that it answers with an error. -/

namespace Sys2Proof.Machine

variable {s : State} {w : CmdWord} {r : OpcodeRow} {i : Instr}

/-! The rows. -/

theorem opcodes_distinct : opcodeTable.Pairwise fun r q => r.op ≠ q.op := by decide

theorem mem_of_rowOf {op : Byte} (row : rowOf op = some r) : r ∈ opcodeTable ∧ r.op = op := by
  rw [rowOf] at row
  exact ⟨List.mem_of_find?_eq_some row, by simpa using List.find?_some row⟩

/-- The first row with the opcode is the only one. -/
theorem rowOf_of_mem (mem : r ∈ opcodeTable) : rowOf r.op = some r := by
  have found : (rowOf r.op).isSome := List.find?_isSome.mpr ⟨r, mem, beq_self_eq_true r.op⟩
  obtain ⟨q, row⟩ := Option.isSome_iff_exists.mp found
  obtain ⟨qMem, sameOp⟩ := mem_of_rowOf row
  rw [row, List.inj_on_of_nodup_map (List.pairwise_map.mpr opcodes_distinct) qMem mem sameOp]

/-- R87 lists the opcodes that R85 leaves out. -/
theorem rowOf_eq_none_iff (op : Byte) : rowOf op = none ↔ opcodeIllegal op.toNat := by
  have inByte := op.isLt
  simp only [rowOf, List.find?_eq_none, opcodeTable, vectorRows, hostRows, List.forall_mem_append, List.forall_mem_cons,
    List.not_mem_nil, beq_iff_eq, BitVec.toNat_eq, BitVec.ofNat_eq_ofNat, BitVec.reduceToNat, false_imp_iff, implies_true,
    and_true, opcodeIllegal]
  omega

theorem exists_row_of_legal {op : Byte} (legal : ¬ opcodeIllegal op.toNat) : ∃ r ∈ opcodeTable, op = r.op := by
  obtain ⟨r, row⟩ := Option.ne_none_iff_exists'.mp (mt (rowOf_eq_none_iff op).mp legal)
  obtain ⟨mem, opcode⟩ := mem_of_rowOf row
  exact ⟨r, mem, opcode.symm⟩

theorem pattern_of_mem : ∀ r ∈ opcodeTable, r.pattern = r.op ++ 0#56 := by decide

theorem ones_opcode_of_mem : ∀ r ∈ opcodeTable, r.mask.extractLsb' 56 8 = BitVec.allOnes 8 := by decide

theorem opField_of_match_row (mem : r ∈ opcodeTable) (matched : w &&& r.mask = r.pattern) : opField w = r.op :=
  opcode_of_match (matched.trans (pattern_of_mem r mem)) (ones_opcode_of_mem r mem)

/-! The decoder. -/

theorem decode_of_mem (mem : r ∈ opcodeTable) (opcode : opField w = r.op) :
    decode w = if w &&& r.mask = r.pattern then .ok (r.build w) else .error .reservedField := by
  simp only [decode, opcode, rowOf_of_mem mem]

theorem decode_eq_illegalOpcode_iff : decode w = .error .illegalOpcode ↔ opcodeIllegal (opField w).toNat := by
  rw [← rowOf_eq_none_iff, decode]
  cases rowOf (opField w) with
  | none => simp
  | some r => by_cases matched : w &&& r.mask = r.pattern <;> simp [matched]

theorem exists_row_of_decode_ne (decoded : decode w ≠ .error .illegalOpcode) : ∃ r ∈ opcodeTable, opField w = r.op :=
  exists_row_of_legal (mt decode_eq_illegalOpcode_iff.mpr decoded)

theorem decode_eq_ok_iff : decode w = .ok i ↔ ∃ r ∈ opcodeTable, w &&& r.mask = r.pattern ∧ r.build w = i := by
  constructor
  · intro decoded
    obtain ⟨r, mem, opcode⟩ := exists_row_of_decode_ne (w := w) (by simp [decoded])
    rw [decode_of_mem mem opcode] at decoded
    split at decoded
    case isTrue matched => exact ⟨r, mem, matched, Except.ok.inj decoded⟩
    case isFalse => cases decoded
  · rintro ⟨r, mem, matched, rfl⟩
    rw [decode_of_mem mem (opField_of_match_row mem matched), if_pos matched]

theorem decode_eq_reservedField_iff :
    decode w = .error .reservedField ↔ ∃ r ∈ opcodeTable, opField w = r.op ∧ w &&& r.mask ≠ r.pattern := by
  constructor
  · intro decoded
    obtain ⟨r, mem, opcode⟩ := exists_row_of_decode_ne (w := w) (by simp [decoded])
    rw [decode_of_mem mem opcode] at decoded
    split at decoded
    case isTrue => cases decoded
    case isFalse unmatched => exact ⟨r, mem, opcode, unmatched⟩
  · rintro ⟨r, mem, opcode, unmatched⟩
    rw [decode_of_mem mem opcode, if_neg unmatched]

/-! The reserved bits. -/

/-- The bits of a word in these ranges (high, low). -/
def bitsOf (ranges : List (Nat × Nat)) : CmdWord :=
  ranges.foldr (fun q bits => (BitVec.allOnes (q.1 + 1 - q.2)).setWidth 64 <<< q.2 ||| bits) 0

theorem getLsbD_bitsOf (ranges : List (Nat × Nat)) (b : Nat) :
    (bitsOf ranges).getLsbD b = true ↔ b < 64 ∧ ∃ q ∈ ranges, q.2 ≤ b ∧ b ≤ q.1 := by
  induction ranges with
  | nil => simp [bitsOf]
  | cons q ranges ih =>
    rw [bitsOf, List.foldr_cons, ← bitsOf, BitVec.getLsbD_or, Bool.or_eq_true, ih, List.exists_mem_cons_iff, and_or_left]
    refine or_congr_left ?_
    simp only [BitVec.getLsbD_shiftLeft, BitVec.getLsbD_setWidth, BitVec.getLsbD_allOnes, Bool.and_eq_true,
      Bool.not_eq_true', decide_eq_true_eq, decide_eq_false_iff_not]
    omega

/-- A row's mask has the opcode and the bits that R82 marks 0 for it. -/
theorem mask_of_mem : ∀ r ∈ opcodeTable,
    (reservedRanges r.op.toNat).map (fun ranges => bitsOf ((63, 56) :: ranges)) = some r.mask := by decide

theorem reservedRanges_below_opcode : ∀ r ∈ opcodeTable, ∀ ranges ∈ reservedRanges r.op.toNat,
    ∀ q ∈ ranges, q.1 < 56 := by decide

theorem reservedRanges_of_illegal {op : Nat} (illegal : opcodeIllegal op) : reservedRanges op = none := by
  unfold opcodeIllegal at illegal
  simp only [reservedRanges, List.mem_cons, List.not_mem_nil, or_false]
  repeat rw [if_neg (by omega)]

theorem getLsbD_pattern (op : Byte) (b : Nat) :
    (op ++ 0#56 : CmdWord).getLsbD b = if b < 56 then false else op.getLsbD (b - 56) := by
  rw [BitVec.getLsbD_append, BitVec.getLsbD_zero]

theorem exists_reservedRanges_of_mem (mem : r ∈ opcodeTable) : ∃ ranges, reservedRanges r.op.toNat = some ranges ∧
    (∀ q ∈ ranges, q.1 < 56) ∧
    ∀ b, r.mask.getLsbD b = true ↔ b < 64 ∧ (56 ≤ b ∨ ∃ q ∈ ranges, q.2 ≤ b ∧ b ≤ q.1) := by
  obtain ⟨ranges, reserved, mask⟩ := Option.map_eq_some_iff.mp (mask_of_mem r mem)
  refine ⟨ranges, reserved, reservedRanges_below_opcode r mem ranges reserved, fun b => ?_⟩
  rw [← mask, getLsbD_bitsOf, List.exists_mem_cons_iff]
  refine and_congr_right fun inWord => or_congr_left ?_
  exact and_iff_left (Nat.le_of_lt_succ inWord)

/-- With the row's opcode, a word matches exactly when no bit that R82 marks 0 is 1: the mask has the opcode and those bits,
and the pattern has zeros there. -/
theorem match_iff_of_opField (mem : r ∈ opcodeTable) (opcode : opField w = r.op) :
    w &&& r.mask = r.pattern ↔ ¬ hasReservedBit w := by
  obtain ⟨ranges, reserved, below, fixed⟩ := exists_reservedRanges_of_mem mem
  have hasReserved : hasReservedBit w ↔ ∃ q ∈ ranges, ∃ b, q.2 ≤ b ∧ b ≤ q.1 ∧ w.getLsbD b = true := by
    simp only [hasReservedBit, opcode, reserved, Option.some.injEq, exists_eq_left']
  rw [hasReserved, pattern_of_mem r mem]
  constructor
  · rintro matched ⟨q, qMem, b, low, high, set⟩
    have qBelow := below q qMem
    have isFixed := (fixed b).mpr ⟨by omega, .inr ⟨q, qMem, low, high⟩⟩
    have bit := congrArg (BitVec.getLsbD · b) matched
    simp only [BitVec.getLsbD_and, set, isFixed, getLsbD_pattern, if_pos (show b < 56 by omega)] at bit
    cases bit
  · intro clear
    apply BitVec.eq_of_getLsbD_eq
    intro b inWord
    rw [BitVec.getLsbD_and, getLsbD_pattern]
    split
    case isTrue belowOpcode =>
      rw [← Bool.not_eq_true, Bool.and_eq_true]
      rintro ⟨set, isFixed⟩
      obtain ⟨-, inOpcode | ⟨q, qMem, low, high⟩⟩ := (fixed b).mp isFixed
      · omega
      · exact clear ⟨q, qMem, b, low, high, set⟩
    case isFalse inOpcode =>
      rw [(fixed b).mpr ⟨inWord, .inl (by omega)⟩, Bool.and_true, ← opcode, opField, BitVec.getLsbD_extractLsb',
        decide_eq_true (by omega), Bool.true_and, Nat.add_sub_cancel' (by omega)]

theorem decode_eq_reservedField_iff_hasReservedBit : decode w = .error .reservedField ↔ hasReservedBit w := by
  rw [decode_eq_reservedField_iff]
  constructor
  · rintro ⟨r, mem, opcode, unmatched⟩
    exact not_not.mp (mt (match_iff_of_opField mem opcode).mpr unmatched)
  · intro reservedSet
    have ⟨_, reserved, _⟩ := reservedSet
    have legal : ¬ opcodeIllegal (opField w).toNat := fun illegal =>
      nomatch reserved.symm.trans (reservedRanges_of_illegal illegal)
    obtain ⟨r, mem, opcode⟩ := exists_row_of_legal legal
    exact ⟨r, mem, opcode, fun matched => (match_iff_of_opField mem opcode).mp matched reservedSet⟩

/-! The step on a word that does not decode. -/

theorem step_of_decode_error {rest : List HostEvent} {e : DecodeError} (pending : s.inbox = .command w :: rest)
    (running : s.halted = false) (rejected : decode w = .error e) :
    step s = .next { s with inbox := rest, status := .error (codeOf e), errcmd := w } :=
  (step_of_command pending).trans (runWord_of_error running rejected)

/-! The obligations. -/

/-- Settles O1: format by format, in `decode_encode`. -/
theorem decodeUndoesEncode : Obligations.DecodeUndoesEncode := fun _ wf => decode_encode wf

/-- Settles O2: a word that decodes matches a row, and the row's command is encoded by the word. -/
theorem encodeUndoesDecode : Obligations.EncodeUndoesDecode := by
  intro w i decoded
  obtain ⟨r, mem, matched, rfl⟩ := decode_eq_ok_iff.mp decoded
  exact ⟨wf_of_decode decoded, encode_build_of_match r mem matched⟩

/-- Settles O4: R85 leaves out the opcodes that R87 lists, and a word that has one takes the error of an illegal opcode. -/
theorem illegalOpcodesAreThoseListed : Obligations.IllegalOpcodesAreThoseListed :=
  ⟨fun _ => decode_eq_illegalOpcode_iff,
    fun _ _ _ pending running illegal => step_of_decode_error pending running (decode_eq_illegalOpcode_iff.mpr illegal),
    rfl, decode_eq_illegalOpcode_iff.mpr (.inl rfl), decode_encode (i := .nop) rfl⟩

/-- Settles O5: a word of a legal opcode matches its row unless a bit that R82 marks 0 is 1. -/
theorem reservedBitsAreChecked : Obligations.ReservedBitsAreChecked :=
  ⟨fun _ => decode_eq_reservedField_iff_hasReservedBit,
    fun _ _ _ pending running reservedSet =>
      step_of_decode_error pending running (decode_eq_reservedField_iff_hasReservedBit.mpr reservedSet),
    rfl⟩

/-- Settles O6: a match fixes the opcode, and with the opcode the decoder asks for the match alone. -/
theorem maskAndMatchSelectTheRow : Obligations.MaskAndMatchSelectTheRow := by
  refine ⟨fun r mem w => ⟨⟨fun matched => ?_, fun ⟨opcode, decoded⟩ => ?_⟩, fun opcode unmatched => ?_⟩, rfl,
    opcodes_distinct⟩
  · exact ⟨opField_of_match_row mem matched, decode_eq_ok_iff.mpr ⟨r, mem, matched, rfl⟩⟩
  · rw [decode_of_mem mem opcode] at decoded
    by_contra unmatched
    rw [if_neg unmatched] at decoded
    cases decoded
  · exact decode_eq_reservedField_iff.mpr ⟨r, mem, opcode, unmatched⟩

/-- A worked encoding, read both ways. -/
theorem encode_and_decode_of_word (wf : i.wf = true) (word : encode i = w) : encode i = w ∧ decode w = .ok i :=
  ⟨word, word ▸ decode_encode wf⟩

/-- Settles O3: each word is the encoding of its command, and the last has bit 0 set, which format RRR reserves. -/
theorem workedWordsDecode : Obligations.WorkedWordsDecode := by
  refine ⟨encode_and_decode_of_word rfl rfl, encode_and_decode_of_word rfl rfl, encode_and_decode_of_word rfl rfl,
    encode_and_decode_of_word rfl rfl, encode_and_decode_of_word rfl rfl, fun s running => ?_⟩
  have reservedSet : hasReservedBit 0x1412300000000001 :=
    ⟨[(43, 0)], rfl, (43, 0), List.mem_singleton_self _, 0, Nat.le_refl 0, Nat.zero_le 43, rfl⟩
  exact runWord_of_error running (decode_eq_reservedField_iff_hasReservedBit.mpr reservedSet)

/-- Settles O7: the step takes the word, and the port runs the command that it decodes to. -/
theorem stepRunsTheDecodedCommand : Obligations.StepRunsTheDecodedCommand :=
  fun _ _ _ _ pending running decoded => (step_of_command pending).trans (runWord_of_decode running decoded)

end Sys2Proof.Machine
end

section
/-! The pseudo-instructions (30_encoding.md R91), along the commands of their expansions. -/

namespace Sys2Proof.Machine

variable {s t : State} {vd : VReg} {i : Instr}

/-! Commands in order. -/

theorem execAll_cons_of_next {rest : List Instr} (running : s.halted = false) (answered : exec i s = .next t) :
    execAll (i :: rest) s = execAll rest t := by
  simp only [execAll, running, answered, Bool.false_eq_true, if_false]

theorem execAll_singleton_of_next (running : s.halted = false) (answered : exec i s = .next t) :
    execAll [i] s = .next t :=
  execAll_cons_of_next running answered

/-! VMOV: the greater of a lane and itself is the lane. -/

theorem vmax_self (a : Vec) : vmax a a = a :=
  vec_ext_h fun _ hi => (h_vmax a a hi).trans (max_self _)

/-! VSET: one broadcast, and then each lane of the register in its turn. -/

/-- The last write to a register is the one that stays. -/
theorem State.writeVR_writeVR_same (s : State) (r : VReg) (u v : Vec) :
    (s.writeVR r u).writeVR r v = s.writeVR r v := by
  simp [State.writeVR]

/-- VINS of each of these lanes, in order. -/
def insertLanes (l : Vector Int 8) (lanes : List (Fin 8)) (v : Vec) : Vec :=
  lanes.foldl (fun v i => vins v i.val l[i]) v

theorem execAll_vins (running : s.halted = false) (l : Vector Int 8) (lanes : List (Fin 8)) (v : Vec) :
    execAll (lanes.map fun i => .vins vd i l[i]) (s.writeVR vd v) = .next (s.writeVR vd (insertLanes l lanes v)) := by
  induction lanes generalizing v with
  | nil => rfl
  | cons i lanes ih =>
    have inserted : exec (.vins vd i l[i]) (s.writeVR vd v) = .next (s.writeVR vd (vins v i.val l[i])) :=
      (unary_of_ok (s.readVR_writeVR_same vd v)).trans (congrArg _ (s.writeVR_writeVR_same vd v _))
    rw [List.map_cons, execAll_cons_of_next (s := s.writeVR vd v) running inserted, ih]
    rfl

/-- Each inserted lane has its value, and the others are left. -/
theorem h_insertLanes {l : Vector Int 8} (fits : ∀ i : Fin 8, -32768 ≤ l[i] ∧ l[i] ≤ 32767) (lanes : List (Fin 8))
    (v : Vec) (j : Fin 8) : h (insertLanes l lanes v) j.val = if j ∈ lanes then l[j] else h v j.val := by
  induction lanes generalizing v with
  | nil => rfl
  | cons i lanes ih =>
    rw [insertLanes, List.foldl_cons, ← insertLanes, ih, h_vins v i.val (fits i).1 (fits i).2 j.isLt]
    by_cases inserted : j ∈ lanes
    · simp [inserted]
    · by_cases here : j = i <;> simp [inserted, here, Fin.val_inj]

theorem lanes_fit {l : Vector Int 8} (wf : (Pseudo.vset vd l).wf = true) (i : Fin 8) : -32768 ≤ l[i] ∧ l[i] ≤ 32767 := by
  have fits : fitsS16 l[i] = true := List.all_eq_true.mp wf _ (by simp)
  simpa [fitsS16] using fits

/-! What each expansion does. -/

theorem execAll_vmov {va : VReg} {a : Vec} (running : s.halted = false) (source : s.readVR va = .ok a) :
    execAll (Pseudo.vmov vd va).expand s = .next (s.writeVR vd a) := by
  have moved : exec (.vmax vd va va) s = .next (s.writeVR vd (vmax a a)) := binary_of_ok source source
  rw [vmax_self] at moved
  exact execAll_singleton_of_next running moved

/-- VRt holds 0 when VSUBS reads it, and VRa is not VRt, so it still holds what it held. -/
theorem execAll_vneg {va vt : VReg} {a : Vec} (running : s.halted = false) (wf : (Pseudo.vneg vd va vt).wf = true)
    (source : s.readVR va = .ok a) :
    execAll (Pseudo.vneg vd va vt).expand s = .next ((s.writeVR vt 0).writeVR vd (vsubs 0 a)) := by
  have different : vt ≠ va := by simpa [Pseudo.wf] using wf
  have zeroed : exec (.vzero vt) s = .next (s.writeVR vt 0) := rfl
  have subtracted : exec (.vsubs vd vt va) (s.writeVR vt 0) = .next ((s.writeVR vt 0).writeVR vd (vsubs 0 a)) :=
    binary_of_ok (s.readVR_writeVR_same vt 0) ((s.readVR_writeVR_other 0 different.symm).trans source)
  exact (execAll_cons_of_next running zeroed).trans (execAll_singleton_of_next running subtracted)

theorem execAll_vset (running : s.halted = false) (l : Vector Int 8) :
    execAll (Pseudo.vset vd l).expand s = .next (s.writeVR vd (insertLanes l [1, 2, 3, 4, 5, 6, 7] (bcast8 l[0]))) := by
  have broadcast : exec (.vbcast vd l[0]) s = .next (s.writeVR vd (bcast8 l[0])) := rfl
  exact (execAll_cons_of_next running broadcast).trans (execAll_vins running l [1, 2, 3, 4, 5, 6, 7] _)

theorem execAll_kreset (running : s.halted = false) : execAll Pseudo.kreset.expand s = .next { s with kptr := 0 } := by
  have set : exec (.setk 0) s = .next (s.setKptr 0) := by
    rw [exec, execSetk, checked_of_not (Nat.not_lt_zero _)]
  exact execAll_singleton_of_next running set

theorem execAll_vldrom (running : s.halted = false) (c : Fin 7) :
    execAll (Pseudo.vldrom vd c).expand s = .next (s.writeVR vd (romEntry s.params.trellis c.val)) := by
  have loaded : exec (.ldc vd c.val) s = .next (s.writeVR vd (romEntry s.params.trellis c.val)) := by
    rw [exec, execLdc, checked_of_not (Nat.not_le.mpr c.isLt)]
  exact execAll_singleton_of_next running loaded

/-- Settles O60: the expansions are those of the rule, and each pseudo-instruction does what its lemma above says. -/
theorem pseudoInstructionsDoWhatTheySay : Obligations.PseudoInstructionsDoWhatTheySay := by
  refine ⟨fun _ _ => rfl, fun _ _ _ => rfl, fun _ _ => rfl, rfl, fun _ _ => rfl, fun s running => ⟨?_, ?_, ?_, ?_, ?_⟩⟩
  case refine_1 =>
    intro vd va a source
    exact ⟨_, execAll_vmov running source, wroteOnlyVR_writeVR s vd a⟩
  case refine_2 =>
    intro vd va vt a wf source
    refine ⟨_, _, execAll_vneg running wf source, State.vr_writeVR_same _ vd _, fun i hi => ?_, fun r notVd notVt => ?_⟩
    · rw [h_vsubs 0 a hi, h_zero]
    · rw [State.vr_writeVR_other _ _ notVd, State.vr_writeVR_other _ _ notVt]
  case refine_3 =>
    intro vd l wf
    refine ⟨_, _, execAll_vset running l, wroteOnlyVR_writeVR s vd _, fun i => ?_⟩
    have fits := lanes_fit wf
    have broadcast : h (bcast8 l[0]) i.val = l[0] := h_bcast8 (fits 0).1 (fits 0).2 i.isLt
    rw [h_insertLanes fits, broadcast]
    fin_cases i <;> rfl
  case refine_4 => exact execAll_kreset running
  case refine_5 => exact fun vd c => ⟨_, execAll_vldrom running c, wroteOnlyVR_writeVR s vd _⟩

end Sys2Proof.Machine
end

section
/-! The vector commands (40_vector.md R110): each has its encoding and its reserved bits, reads its sources, and writes what
its primitive computes. So a rule holds as soon as the primitive meets its postcondition. -/

namespace Sys2Proof.Machine

variable {s : State} {op : Byte}

/-! The shapes of the rules. -/

theorem reservedFieldRule_of_opcode (op : Byte) : reservedFieldRule op :=
  fun _ _ => decode_eq_reservedField_iff_hasReservedBit

theorem readVR_of_marked {r : VReg} (written : s.marked (.vr r) = true) : s.readVR r = .ok (s.vr[r]).value :=
  (Reg.read_by_policy _ _ _).1 written

theorem readVR_of_unmarked {r : VReg} (faults : s.params.uninitReg = .fault) (unwritten : s.marked (.vr r) = false) :
    s.readVR r = .error (.uninitRead (.vr r)) :=
  (Reg.read_by_policy _ _ _).2.1 unwritten faults

/-- A command that runs as `unary` of a primitive has its rule where the primitive computes what the rule asks. -/
theorem unaryRule_of_unary {enc : Byte → VReg → VReg → CmdWord} {cmd : VReg → VReg → Instr} {post : Vec → Vec → Prop}
    (g : Vec → Vec) (encodes : ∀ vd va, encode (cmd vd va) = enc op vd va)
    (runs : ∀ s vd va, exec (cmd vd va) s = unary g vd va s) (computes : ∀ a, post a (g a)) :
    unaryRule op enc cmd post := by
  refine ⟨reservedFieldRule_of_opcode op, fun s vd va => ⟨encodes vd va, fun a source => ?_, fun faults unwritten => ?_⟩⟩
  · exact ⟨g a, _, (runs s vd va).trans (unary_of_ok source), wroteOnlyVR_writeVR s vd (g a), computes a⟩
  · exact (runs s vd va).trans (unary_of_error (readVR_of_unmarked faults unwritten))

/-- The same for `binary`, where the primitive may depend on the parameters. The first unwritten source is the one named
(log 17). -/
theorem binaryRule_of_binary {cmd : VReg → VReg → VReg → Instr} {post : Params → Vec → Vec → Vec → Prop}
    (g : Params → Vec → Vec → Vec) (encodes : ∀ vd va vb, encode (cmd vd va vb) = encRRR op vd va vb)
    (runs : ∀ s vd va vb, exec (cmd vd va vb) s = binary (g s.params) vd va vb s)
    (computes : ∀ p a b, post p a b (g p a b)) : binaryRule op cmd post := by
  refine ⟨reservedFieldRule_of_opcode op, fun s vd va vb =>
    ⟨encodes vd va vb, fun a b sourceA sourceB => ?_, fun faults unwritten => ?_⟩⟩
  · exact ⟨g s.params a b, _, (runs s vd va vb).trans (binary_of_ok sourceA sourceB), wroteOnlyVR_writeVR s vd _,
      computes s.params a b⟩
  · rw [runs]
    cases markA : s.marked (.vr va) with
    | false => exact ⟨va, .inl rfl, markA, binary_of_error_left (readVR_of_unmarked faults markA)⟩
    | true =>
      have markB : s.marked (.vr vb) = false := by simpa [markA] using unwritten
      exact ⟨vb, .inr rfl, markB, binary_of_error_right (readVR_of_marked markA) (readVR_of_unmarked faults markB)⟩

/-! What the primitives compute, in the terms of the rules. -/

theorem fitsS16_iff {x : Int} : fitsS16 x = true ↔ -32768 ≤ x ∧ x ≤ 32767 := by
  simp only [fitsS16, Bool.and_eq_true, decide_eq_true_eq]

theorem signNeg_min_sat : signNeg .sat (-32768) = 32767 := by decide

theorem signNeg_min_wrap : signNeg .wrap (-32768) = -32768 := by decide

theorem h_vsign_of_pos (pm : PsignMin) {a q : Vec} {i : Nat} (hi : i < 8) (positive : 0 < h q i) :
    h (vsign pm a q) i = h a i := by
  rw [h_vsign pm a q hi, if_pos positive]

theorem h_vsign_of_neg (pm : PsignMin) {a q : Vec} {i : Nat} (hi : i < 8) (negative : h q i < 0) :
    h (vsign pm a q) i = signNeg pm (h a i) := by
  rw [h_vsign pm a q hi, if_neg (by omega), if_pos negative]

theorem h_vsign_of_zero (pm : PsignMin) {a q : Vec} {i : Nat} (hi : i < 8) (zero : h q i = 0) :
    h (vsign pm a q) i = 0 := by
  rw [h_vsign pm a q hi, if_neg (by omega), if_neg (by omega)]

/-- From 16 on a shift is one by 15, which leaves the sign of a 16-bit value alone (R114). -/
theorem asr_min_15 {v : Int} (n : Nat) (lower : -32768 ≤ v) (upper : v ≤ 32767) :
    asr v (min n 15) = if n < 16 then v / 2 ^ n else if v < 0 then -1 else 0 := by
  unfold asr
  by_cases inRange : n < 16
  · rw [if_pos inRange, min_eq_left (by omega), Nat.cast_pow, Nat.cast_ofNat]
  · rw [if_neg inRange, min_eq_right (by omega)]
    split <;> omega

/-- The selector in arithmetic: the i-th digit of the immediate to base 4. -/
theorem selector_eq_digit (imm : Byte) (i : Nat) : selector imm i = imm.toNat / 4 ^ i % 4 := by
  rw [selector, BitVec.extractLsb'_toNat, Nat.shiftRight_eq_div_pow, Nat.pow_mul]

/-- VHMIN names a lane that holds the least pattern, and no lane before it does (R122). -/
theorem vhmin_names_least_lane (a : Vec) :
    ∃ j < 8, lane (vhmin a) 0 = lane a j ∧ h (vhmin a) 1 = j ∧ (∀ i, 2 ≤ i → i < 8 → h (vhmin a) i = 0) ∧
      (∀ i < 8, (lane a j).toNat ≤ (lane a i).toNat) ∧ ∀ i < j, (lane a j).toNat < (lane a i).toNat := by
  obtain ⟨inRange, value, least, first⟩ := leastLane_spec fun i => (lane a i).toNat
  simp only [← value] at least first
  refine ⟨_, inRange, lane_eq_of_h_eq ?_, h_vhmin a (by omega), fun i above below => ?_, least, first⟩
  · rw [h_vhmin a (by omega), if_pos rfl, ← value, BitVec.ofNat_toNat, BitVec.setWidth_eq, h]
  · rw [h_vhmin a below, if_neg (by omega), if_neg (by omega)]

/-- A lane that no lane exceeds and that every earlier lane is below is the one HMAX finds (41_forward.md R141). -/
theorem hmax_eq_of_first_greatest {v : Vec} {j : Nat} (hj : j < 8) (greatest : ∀ i < 8, h v i ≤ h v j)
    (first : ∀ i < j, h v i < h v j) : hmax v = (h v j, j) := by
  obtain ⟨inRange, value, -, firstFound⟩ := hmax_spec v
  have sameValue : (hmax v).1 = h v j := hmax_eq_of_greatest greatest ⟨j, hj, rfl⟩
  have sameLane : (hmax v).2 = j := by
    rcases Nat.lt_trichotomy (hmax v).2 j with earlier | same | later
    · have := first _ earlier
      omega
    · exact same
    · have := firstFound j later
      omega
  exact Prod.ext sameValue sameLane

/-- A nonnegative lane is its pattern. -/
theorem toNat_lane_of_nonneg {v : Vec} {i : Nat} (nonneg : 0 ≤ h v i) : ((lane v i).toNat : Int) = h v i :=
  (BitVec.toInt_eq_toNat_of_msb (by simpa [BitVec.msb_eq_toInt, h, s16] using nonneg)).symm

theorem h_vsubs_zero_of_nonpos {a : Vec} {i : Nat} (hi : i < 8) (lower : -32767 ≤ h a i) (upper : h a i ≤ 0) :
    h (vsubs 0 a) i = -(h a i) := by
  rw [h_vsubs 0 a hi, h_zero, zero_sub, sat16_eq_self (by omega) (by omega)]

/-! The obligations. -/

/-- Settles O31: both commands write at once, and every lane of the broadcast is its scalar. -/
theorem vzeroAndVbcastWriteConstants : Obligations.VzeroAndVbcastWriteConstants := by
  refine ⟨reservedFieldRule_of_opcode _, reservedFieldRule_of_opcode _, fun s vd => ⟨rfl, ?_, fun x fits => ⟨rfl, ?_⟩⟩⟩
  · exact ⟨_, rfl, wroteOnlyVR_writeVR s vd 0⟩
  · obtain ⟨lower, upper⟩ := fitsS16_iff.mp fits
    exact ⟨bcast8 x, _, rfl, wroteOnlyVR_writeVR s vd _, fun i hi => h_bcast8 lower upper hi⟩

/-- Settles O32, sign by sign; under a negative pattern lane the negation is exact but at -32768. -/
theorem vsignAppliesThePatternSign : Obligations.VsignAppliesThePatternSign := by
  refine binaryRule_of_binary (fun p => vsign p.psignMin) (fun _ _ _ => rfl) (fun _ _ _ _ => rfl) fun p a q i hi =>
    ⟨h_vsign_of_pos _ hi, fun negative notMin => ?_, fun negative isMin sat => ?_, fun negative isMin wrap => ?_,
      h_vsign_of_zero _ hi⟩ <;> rw [h_vsign_of_neg _ hi negative]
  · obtain ⟨lower, upper⟩ := h_bounds a i
    exact signNeg_eq_neg _ (by omega) upper
  · rw [isMin, sat, signNeg_min_sat]
  · rw [isMin, wrap, signNeg_min_wrap]

/-- Settles O33: the shift count of the model stops at 15, as `asr_min_15` says. -/
theorem vsraShiftsRightArithmetically : Obligations.VsraShiftsRightArithmetically :=
  fun n _ => unaryRule_of_unary (vsra · n) (fun _ _ => rfl) (fun _ _ _ => rfl)
    fun a i hi => (h_vsra a n hi).trans (asr_min_15 n (h_bounds a i).1 (h_bounds a i).2)

/-- Settles O34, by the lanes of `vadds`. -/
theorem vaddsAddsLanesWithSaturation : Obligations.VaddsAddsLanesWithSaturation :=
  binaryRule_of_binary (fun _ => vadds) (fun _ _ _ => rfl) (fun _ _ _ _ => rfl) fun _ a b _ hi => h_vadds a b hi

/-- Settles O35, by the lanes of `vsubs`. -/
theorem vsubsSubtractsLanesWithSaturation : Obligations.VsubsSubtractsLanesWithSaturation :=
  binaryRule_of_binary (fun _ => vsubs) (fun _ _ _ => rfl) (fun _ _ _ _ => rfl) fun _ a b _ hi => h_vsubs a b hi

/-- Settles O36: an even lane is from VA and an odd lane from VB. -/
theorem viloAndVihiInterleaveHalves : Obligations.ViloAndVihiInterleaveHalves := by
  refine ⟨binaryRule_of_binary (fun _ => vilo) (fun _ _ _ => rfl) (fun _ _ _ _ => rfl) fun _ a b i hi => ?lo,
    binaryRule_of_binary (fun _ => vihi) (fun _ _ _ => rfl) (fun _ _ _ _ => rfl) fun _ a b i hi => ?hi⟩
  all_goals
    have even : 2 * i % 2 = 0 ∧ 2 * i / 2 = i := by omega
    have odd : (2 * i + 1) % 2 ≠ 0 ∧ (2 * i + 1) / 2 = i := by omega
  case lo =>
    rw [h_vilo a b (by omega), h_vilo a b (by omega), if_pos even.1, if_neg odd.1, even.2, odd.2]
    exact ⟨rfl, rfl⟩
  case hi =>
    rw [h_vihi a b (by omega), h_vihi a b (by omega), if_pos even.1, if_neg odd.1, even.2, odd.2]
    exact ⟨rfl, rfl⟩

/-- Settles O37: an index byte is negative from 128 on. -/
theorem vbshufGathersBytes : Obligations.VbshufGathersBytes :=
  binaryRule_of_binary (fun _ => vbshuf) (fun _ _ _ => rfl) (fun _ _ _ _ => rfl)
    fun _ _ _ _ hj => ⟨byteOf_vbshuf_of_ge hj, byteOf_vbshuf_of_lt hj⟩

/-- Settles O38, by the lanes of `vl0b` and `vmax`. -/
theorem vl0bBroadcastsAndVmaxTakesTheGreater : Obligations.Vl0bBroadcastsAndVmaxTakesTheGreater := by
  refine ⟨unaryRule_of_unary vl0b (fun _ _ => rfl) (fun _ _ _ => rfl) fun a i hi => h_vl0b a hi,
    binaryRule_of_binary (fun _ => vmax) (fun _ _ _ => rfl) (fun _ _ _ _ => rfl) fun _ a b i hi => ?_⟩
  rw [h_vmax a b hi]
  exact ⟨max_eq_right, max_eq_left⟩

/-- Settles O39, by `vhmin_names_least_lane`. -/
theorem vhminFindsTheUnsignedMinimum : Obligations.VhminFindsTheUnsignedMinimum :=
  unaryRule_of_unary vhmin (fun _ _ => rfl) (fun _ _ _ => rfl) vhmin_names_least_lane

/-- Settles O40: the lanes of group i are the two of the group that the i-th digit selects. -/
theorem vsh32PermutesGroups : Obligations.Vsh32PermutesGroups := by
  refine fun sel => unaryRule_of_unary (vsh32 · sel) (fun _ _ => rfl) (fun _ _ _ => rfl) fun a i hi => ?_
  have even : 2 * i / 2 = i ∧ 2 * i % 2 = 0 := by omega
  have odd : (2 * i + 1) / 2 = i ∧ (2 * i + 1) % 2 = 1 := by omega
  rw [h_vsh32 a sel (by omega), h_vsh32 a sel (by omega), even.1, even.2, odd.1, odd.2, selector_eq_digit]
  exact ⟨rfl, rfl⟩

/-- Settles O41: below lane 4 is one branch of each primitive, and from lane 4 on the other. -/
theorem vsh16PermutesOneHalf : Obligations.Vsh16PermutesOneHalf := by
  refine ⟨fun sel => unaryRule_of_unary (vsh16l · sel) (fun _ _ => rfl) (fun _ _ _ => rfl) fun a i hi => ?low,
    fun sel => unaryRule_of_unary (vsh16h · sel) (fun _ _ => rfl) (fun _ _ _ => rfl) fun a i hi => ?high⟩
  case low =>
    rw [h_vsh16l a sel (by omega), h_vsh16l a sel (by omega), if_pos hi, if_neg (by omega), selector_eq_digit]
    exact ⟨rfl, rfl⟩
  case high =>
    rw [h_vsh16h a sel (by omega), h_vsh16h a sel (by omega), if_pos hi, if_neg (by omega), Nat.add_sub_cancel_left,
      selector_eq_digit]
    exact ⟨rfl, rfl⟩

/-- Settles O55: the negated lanes are exact and nonnegative, so their patterns are in the opposite order of the lanes, and
the first least pattern is at the first greatest lane. -/
theorem negatedMinimumIsTheMaximum : Obligations.NegatedMinimumIsTheMaximum := by
  intro a inRange
  have negated {i : Nat} (hi : i < 8) : h (vsubs 0 a) i = -(h a i) :=
    h_vsubs_zero_of_nonpos hi (inRange i hi).1 (inRange i hi).2
  have pattern {i : Nat} (hi : i < 8) : ((lane (vsubs 0 a) i).toNat : Int) = -(h a i) := by
    have nonpos := (inRange i hi).2
    rw [toNat_lane_of_nonneg (by rw [negated hi]; omega), negated hi]
  obtain ⟨j, hj, value, named, -, least, first⟩ := vhmin_names_least_lane (vsubs 0 a)
  have patternJ := pattern hj
  have found : hmax a = (h a j, j) := by
    refine hmax_eq_of_first_greatest hj (fun i hi => ?_) fun i before => ?_
    · have patternI := pattern hi
      have leastI := least i hi
      omega
    · have patternI := pattern (before.trans hj)
      have firstI := first i before
      omega
  have minimum : h (vhmin (vsubs 0 a)) 0 = -(h a j) := (congrArg s16 value).trans (negated hj)
  rw [found, minimum, named, neg_neg]
  exact ⟨rfl, rfl⟩

end Sys2Proof.Machine
end

section
/-! The forward recursion FWD (41_forward.md): what the command does to the state for any TRELLIS, lane by lane, and what that
is on the trellis of 10_state.md R33 with the default ROM. -/

namespace Sys2Proof.Machine

variable {s t : State} {x z le : Int} {a g : Vec} {i k : Nat}

/-! The command (R146). -/

theorem exec_fwd_of_stage (stage : s.kptr.toNat < s.params.kmax) :
    exec (.fwd x z le) s =
      withRead (s.readAlpha s.kptr.toNat) fun a => .next (fwdCommit s s.kptr.toNat a x z le) := by
  rw [exec, execFwd, checked_of_not (Nat.not_le.mpr stage)]

theorem exec_fwd_of_read (stage : s.kptr.toNat < s.params.kmax) (source : s.readAlpha s.kptr.toNat = .ok a) :
    exec (.fwd x z le) s = .next (fwdCommit s s.kptr.toNat a x z le) := by
  rw [exec_fwd_of_stage stage, source, withRead_ok]

theorem exec_fwd_next (stage : s.kptr.toNat < s.params.kmax) (answered : exec (.fwd x z le) s = .next t) :
    ∃ a, t = fwdCommit s s.kptr.toNat a x z le := by
  rw [exec_fwd_of_stage stage] at answered
  obtain ⟨a, -, committed⟩ := withRead_next answered
  exact ⟨a, by simpa using committed.symm⟩

theorem readAlpha_of_unmarked (inMemory : k ≤ s.params.kmax) (faults : s.params.uninitMem = .fault)
    (unwritten : s.marked (.alpha k) = false) : s.readAlpha k = .error (.uninitRead (.alpha k)) :=
  (Mem.read_by_policy _ _ _ _ (Nat.lt_succ_of_le inMemory)).2.1 (by simpa [State.marked] using unwritten) faults

/-! The writes of the command (R145, R146, R147). -/

theorem find_bmLo_fwdCommit (s : State) (k : Nat) (a : Vec) (x z le : Int) : (fwdCommit s k a x z le).bmLo.find k =
    some (vilo (plusMetric s.params x z le) (minusMetric (plusMetric s.params x z le))) :=
  Mem.find_write_same _ _ _

theorem find_bmHi_fwdCommit (s : State) (k : Nat) (a : Vec) (x z le : Int) : (fwdCommit s k a x z le).bmHi.find k =
    some (vihi (plusMetric s.params x z le) (minusMetric (plusMetric s.params x z le))) :=
  Mem.find_write_same _ _ _

theorem find_alpha_fwdCommit (s : State) (k : Nat) (a : Vec) (x z le : Int) :
    (fwdCommit s k a x z le).alpha.find (k + 1) =
      some (normalise (addCompareSelect s.params.trellis a (plusMetric s.params x z le))) :=
  Mem.find_write_same _ _ _

theorem result_fwdCommit (s : State) (k : Nat) (a : Vec) (x z le : Int) : (fwdCommit s k a x z le).result =
    u16 (hmax (addCompareSelect s.params.trellis a (plusMetric s.params x z le))).1 := rfl

theorem s16_result_fwdCommit (s : State) (k : Nat) (a : Vec) (x z le : Int) : s16 (fwdCommit s k a x z le).result =
    (hmax (addCompareSelect s.params.trellis a (plusMetric s.params x z le))).1 :=
  s16_u16 (hmax_bounds _).1 (hmax_bounds _).2

/-- The two readings of the shift, as the two equations that R142 gives for G. -/
theorem eq_plusMetric_of_readings {p : Params} {sx sz sl : Vec} (hsx : sx = vsign p.psignMin (bcast8 x) p.trellis.sysPol)
    (hsz : sz = vsign p.psignMin (bcast8 z) p.trellis.parPol) (hsl : sl = vsign p.psignMin (bcast8 le) p.trellis.sysPol)
    (leOnly : p.bmShift = .leOnly → g = vadds (vadds sx sz) (vsra sl 1))
    (wholeSum : p.bmShift = .wholeSum → g = vsra (vadds (vadds sx sz) sl) 1) : g = plusMetric p x z le := by
  subst hsx hsz hsl
  unfold plusMetric
  cases reading : p.bmShift with
  | leOnly => exact leOnly reading
  | wholeSum => exact wholeSum reading

/-- Settles O46: the check and the read come first, and then each part of the state is one that `fwdCommit` writes or one
that it leaves. -/
theorem fwdRunsOneForwardStage : Obligations.FwdRunsOneForwardStage := by
  refine ⟨reservedFieldRule_of_opcode _, fun s x z le kmaxLe _ _ _ =>
    ⟨rfl, fun pastEnd => exec_of_check (if_pos pastEnd), fun stage => ⟨fun faults unwritten => ?stops, ?runs⟩⟩⟩
  case stops =>
    rw [exec_fwd_of_stage stage, readAlpha_of_unmarked stage.le faults unwritten, withRead_error]
  case runs =>
    intro a sx sz sl g ng an m source hsx hsz hsl leOnly wholeSum hng han greatest
    obtain rfl : g = plusMetric s.params x z le := eq_plusMetric_of_readings hsx hsz hsl leOnly wholeSum
    subst hng han
    obtain rfl := hmax_eq_of_greatest greatest.1 greatest.2
    have nextStage : (BitVec.ofNat 16 (s.kptr.toNat + 1)).toNat = s.kptr.toNat + 1 :=
      Nat.mod_eq_of_lt (by omega)
    exact ⟨_, exec_fwd_of_read stage source, find_bmLo_fwdCommit .., find_bmHi_fwdCommit .., find_alpha_fwdCommit ..,
      result_fwdCommit .., nextStage, fun _ other => Mem.find_write_other _ _ other,
      fun _ other => Mem.find_write_other _ _ other, fun _ other => Mem.find_write_other _ _ other, fun _ _ => rfl,
      fun _ => rfl, rfl, rfl, rfl, rfl, rfl, rfl⟩

/-! The horizontal maximum (R141) and the normalisation (R147). -/

/-- Settles O50: HMAX has the four properties, and the first greatest lane is the only one that has them. -/
theorem horizontalMaximumIsExact : Obligations.HorizontalMaximumIsExact := by
  intro v m j
  constructor
  · intro found
    simpa only [found] using hmax_spec v
  · rintro ⟨inRange, rfl, greatest, first⟩
    exact hmax_eq_of_first_greatest inRange greatest first

theorem isGreatest_hmax (v : Vec) : isGreatest (h v) (hmax v).1 := by
  obtain ⟨inRange, value, greatest, -⟩ := hmax_spec v
  exact ⟨greatest, _, inRange, value⟩

theorem isGreatest_congr {f f' : Nat → Int} {m : Int} (same : ∀ i < 8, f i = f' i) (greatest : isGreatest f m) :
    isGreatest f' m := by
  obtain ⟨below, i, hi, value⟩ := greatest
  exact ⟨fun j hj => same j hj ▸ below j hj, i, hi, same i hi ▸ value⟩

theorem h_normalise (an : Vec) (hi : i < 8) : h (normalise an) i = sat16 (h an i - (hmax an).1) := by
  obtain ⟨lower, upper⟩ := hmax_bounds an
  rw [normalise, h_vsubs _ _ hi, h_bcast8 lower upper hi]

/-- A constant taken from every lane is taken from the maximum. -/
theorem hmax_of_shifted {v w : Vec} {c : Int} (shifted : ∀ i < 8, h w i = h v i - c) :
    (hmax w).1 = (hmax v).1 - c := by
  obtain ⟨below, i, hi, value⟩ := isGreatest_hmax v
  refine hmax_eq_of_greatest (fun j hj => ?_) ⟨i, hi, ?_⟩
  · rw [shifted j hj]
    exact Int.sub_le_sub_right (below j hj) c
  · rw [shifted i hi, value]

theorem normalise_of_shifted {v w : Vec} {c : Int} (shifted : ∀ i < 8, h w i = h v i - c) :
    normalise w = normalise v :=
  vec_ext_h fun i hi => by
    rw [h_normalise w hi, h_normalise v hi, shifted i hi, hmax_of_shifted shifted, sub_sub_sub_cancel_right]

/-- Settles O51: no lane is above the maximum that is taken from it, and the greatest lane is left with 0. -/
theorem fwdLeavesItsLargestLaneZero : Obligations.FwdLeavesItsLargestLaneZero := by
  intro s t x z le stage answered
  obtain ⟨a, rfl⟩ := exec_fwd_next stage answered
  refine ⟨_, find_alpha_fwdCommit .., ?_⟩
  generalize addCompareSelect s.params.trellis a (plusMetric s.params x z le) = an
  obtain ⟨below, i, hi, value⟩ := isGreatest_hmax an
  refine ⟨fun j hj => ⟨(h_bounds _ _).1, ?_⟩, i, hi, ?_⟩
  · rw [h_normalise an hj]
    exact sat16_mono (w := 0) (Int.sub_nonpos_of_le (below j hj))
  · rw [h_normalise an hi, value, sub_self]
    rfl

/-! The branch metrics (R142, R143, R145). -/

theorem h_minusMetric (g : Vec) (hi : i < 8) : h (minusMetric g) i = sat16 (-(h g i)) := by
  rw [minusMetric, h_vsubs 0 g hi, h_zero, zero_sub]

theorem h_vilo_minusMetric (g : Vec) (hi : i < 8) :
    h (vilo g (minusMetric g)) i = if i % 2 = 0 then h g (i / 2) else sat16 (-(h g (i / 2))) := by
  rw [h_vilo _ _ hi, h_minusMetric g (by omega)]

theorem h_vihi_minusMetric (g : Vec) (hi : i < 8) :
    h (vihi g (minusMetric g)) i = if i % 2 = 0 then h g (i / 2 + 4) else sat16 (-(h g (i / 2 + 4))) := by
  rw [h_vihi _ _ hi, h_minusMetric g (by omega), Nat.add_comm 4]

/-- An odd lane of either half is the saturated negation of the even lane below it. -/
theorem h_odd_of_bm_half {v : Vec} (half : v = vilo g (minusMetric g) ∨ v = vihi g (minusMetric g)) {j : Nat}
    (hj : j < 4) : h v (2 * j + 1) = sat16 (-(h v (2 * j))) := by
  have even : 2 * j % 2 = 0 ∧ 2 * j / 2 = j := by omega
  have odd : (2 * j + 1) % 2 ≠ 0 ∧ (2 * j + 1) / 2 = j := by omega
  rcases half with rfl | rfl
  · rw [h_vilo_minusMetric g (by omega), h_vilo_minusMetric g (by omega), if_pos even.1, if_neg odd.1, even.2, odd.2]
  · rw [h_vihi_minusMetric g (by omega), h_vihi_minusMetric g (by omega), if_pos even.1, if_neg odd.1, even.2, odd.2]

/-- Settles O52: both halves are interleaved from the plus metric and its negation, and the plus metric is a function of the
samples and the parameters. -/
theorem branchMetricsAreAntisymmetric : Obligations.BranchMetricsAreAntisymmetric := by
  intro s t x z le stage answered
  obtain ⟨a, rfl⟩ := exec_fwd_next stage answered
  refine ⟨_, _, find_bmLo_fwdCommit .., find_bmHi_fwdCommit .., fun v half j hj => ?pairs, ?sameEntry⟩
  case pairs =>
    have negated := h_odd_of_bm_half half hj
    obtain ⟨lower, upper⟩ := h_bounds v (2 * j)
    refine ⟨fun notMin => ?_, fun isMin => ?_⟩
    · rw [negated, sat16_eq_self (by omega) (by omega)]
    · rw [negated, isMin]
      rfl
  case sameEntry =>
    intro s' t' sameParams stage' answered'
    obtain ⟨a', rfl⟩ := exec_fwd_next stage' answered'
    rw [find_bmLo_fwdCommit, find_bmHi_fwdCommit, sameParams]
    exact ⟨rfl, rfl⟩

/-! Without channel samples the plus metric is the halved a priori term (R149). -/

theorem vsign_bcast8_zero (pm : PsignMin) (q : Vec) : vsign pm (bcast8 0) q = 0 := by
  refine vec_ext_h fun i hi => ?_
  have zeroLane : h (bcast8 0) i = 0 := h_bcast8 (by omega) (by omega) hi
  rw [h_vsign _ _ _ hi, zeroLane, signNeg_eq_neg pm (by omega) (by omega), neg_zero, ite_self, ite_self, h_zero]

theorem vadds_zero_left (v : Vec) : vadds 0 v = v := by
  refine vec_ext_h fun i hi => ?_
  obtain ⟨lower, upper⟩ := h_bounds v i
  rw [h_vadds 0 v hi, h_zero, zero_add, sat16_eq_self lower upper]

theorem plusMetric_without_channel (p : Params) (le : Int) :
    plusMetric p 0 0 le = vsra (vsign p.psignMin (bcast8 le) p.trellis.sysPol) 1 := by
  unfold plusMetric
  simp only [vsign_bcast8_zero, vadds_zero_left]
  cases p.bmShift <;> rfl

/-- Settles O56: both readings give the halved a priori term. -/
theorem shiftReadingsAgreeWithoutChannel : Obligations.ShiftReadingsAgreeWithoutChannel := by
  intro p le _
  refine ⟨?_, plusMetric_without_channel p le⟩
  rw [plusMetric_without_channel, plusMetric_without_channel]

/-! The default ROM: the lanes are those of the trellis (R142, R144; 10_state.md R33, R34). -/

theorem h_vsign_of_polarity (pm : PsignMin) {q : Vec} {v : Int} {b : Bool} (fits : fitsS16 v = true) (hi : i < 8)
    (pattern : h q i = polarity b) : h (vsign pm (bcast8 v) q) i = signedBy pm v b := by
  obtain ⟨lower, upper⟩ := fitsS16_iff.mp fits
  have broadcast : h (bcast8 v) i = v := h_bcast8 lower upper hi
  cases b with
  | true => exact (h_vsign_of_pos pm hi (by rw [pattern]; decide)).trans broadcast
  | false =>
    rw [h_vsign_of_neg pm hi (by rw [pattern]; decide), broadcast]
    rfl

theorem nextState_upperInput : ∀ i < 8, nextState (evenPred i) (upperInput i) = i := by decide

/-- Lane i of the plus metric is the metric of the upper edge into state i. -/
theorem h_plusMetric {p : Params} (rom : p.trellis = lteTrellis) (xFits : fitsS16 x = true) (zFits : fitsS16 z = true)
    (leFits : fitsS16 le = true) (hi : i < 8) : h (plusMetric p x z le) i = upperMetric p x z le i := by
  obtain ⟨sysPol, parPol⟩ := forwardPolarities i hi (upperInput i) (nextState_upperInput i hi)
  have sx := h_vsign_of_polarity p.psignMin xFits hi sysPol
  have sz := h_vsign_of_polarity p.psignMin zFits hi parPol
  have sl := h_vsign_of_polarity p.psignMin leFits hi sysPol
  simp only [romEntry] at sx sz sl
  unfold plusMetric upperMetric edgeMetric
  rw [rom]
  cases p.bmShift with
  | leOnly => simp only [h_vadds _ _ hi, h_vsra _ _ hi, sx, sz, sl]; rfl
  | wholeSum => simp only [h_vadds _ _ hi, h_vsra _ _ hi, sx, sz, sl]; rfl

/-- Lane i of the add-compare-select, with a plus metric whose lane i is given: the gathers move the lanes of the two
predecessors of i. -/
theorem h_addCompareSelect_lteTrellis (a g : Vec) (hi : i < 8) : h (addCompareSelect lteTrellis a g) i =
    max (sat16 (h a (evenPred i) + h g i)) (sat16 (h a (oddPred i) + sat16 (-(h g i)))) := by
  obtain ⟨-, -, gathers⟩ := defaultRomEncodesTheTrellis i hi
  obtain ⟨even, odd, -, -⟩ := gathers a
  have evenLane : h (vbshuf a lteTrellis.fGather0) i = h a (evenPred i) := congrArg s16 even
  have oddLane : h (vbshuf a lteTrellis.fGather1) i = h a (oddPred i) := congrArg s16 odd
  rw [addCompareSelect, h_vmax _ _ hi, h_vadds _ _ hi, h_vadds _ _ hi, evenLane, oddLane, h_minusMetric g hi]

section defaultRom

variable (rom : s.params.trellis = lteTrellis) (xFits : fitsS16 x = true) (zFits : fitsS16 z = true)
  (leFits : fitsS16 le = true)
include rom xFits zFits leFits

theorem h_addCompareSelect (a : Vec) (hi : i < 8) :
    h (addCompareSelect s.params.trellis a (plusMetric s.params x z le)) i = bestInto s.params x z le a i := by
  rw [rom, h_addCompareSelect_lteTrellis a _ hi, h_plusMetric rom xFits zFits leFits hi, bestInto]

theorem h_bmLo_lteTrellis (hi : i < 8) :
    h (vilo (plusMetric s.params x z le) (minusMetric (plusMetric s.params x z le))) i =
      if i % 2 = 0 then upperMetric s.params x z le (i / 2) else sat16 (-(upperMetric s.params x z le (i / 2))) := by
  rw [h_vilo_minusMetric _ hi, h_plusMetric rom xFits zFits leFits (by omega)]

theorem h_bmHi_lteTrellis (hi : i < 8) :
    h (vihi (plusMetric s.params x z le) (minusMetric (plusMetric s.params x z le))) i =
      if i % 2 = 0 then upperMetric s.params x z le (i / 2 + 4)
      else sat16 (-(upperMetric s.params x z le (i / 2 + 4))) := by
  rw [h_vihi_minusMetric _ hi, h_plusMetric rom xFits zFits leFits (by omega)]

end defaultRom

/-- Settles O48: each vector that FWD writes, lane by lane. -/
theorem fwdIsTheTrellisForwardUpdate : Obligations.FwdIsTheTrellisForwardUpdate := by
  intro s x z le a _ rom xFits zFits leFits stage source
  have best (i : Nat) (hi : i < 8) := h_addCompareSelect rom xFits zFits leFits a hi
  refine ⟨_, _, _, _, _, exec_fwd_of_read stage source, find_bmLo_fwdCommit .., find_bmHi_fwdCommit ..,
    find_alpha_fwdCommit .., result_fwdCommit .., fun i hi => h_bmLo_lteTrellis rom xFits zFits leFits hi,
    fun i hi => h_bmHi_lteTrellis rom xFits zFits leFits hi, isGreatest_congr best (isGreatest_hmax _), fun i hi => ?_⟩
  rw [h_normalise _ hi, best i hi]

/-! Normalisation invariance (R148 (b)). -/

theorem sat16_of_fits {v : Int} (fits : fitsS16 v = true) : sat16 v = v :=
  sat16_eq_self (fitsS16_iff.mp fits).1 (fitsS16_iff.mp fits).2

theorem preds_lt (i : Nat) : evenPred i < 8 ∧ oddPred i < 8 := by
  unfold oddPred evenPred
  omega

/-- Settles O53: where nothing saturates the constant passes through both path metrics and their maximum, so the new metrics
are shifted before normalisation and the same after it. -/
theorem normalisationRemovesAConstant : Obligations.NormalisationRemovesAConstant := by
  intro s x z le c a a2 _ rom xFits zFits leFits stage source shifted unsaturated
  have shiftedNext : ∀ i < 8, h (addCompareSelect s.params.trellis a2 (plusMetric s.params x z le)) i =
      h (addCompareSelect s.params.trellis a (plusMetric s.params x z le)) i - c := by
    intro i hi
    obtain ⟨evenFits, oddFits, evenFits2, oddFits2⟩ := unsaturated i hi
    rw [h_addCompareSelect rom xFits zFits leFits a2 hi, h_addCompareSelect rom xFits zFits leFits a hi, bestInto, bestInto,
      sat16_of_fits evenFits, sat16_of_fits oddFits, sat16_of_fits evenFits2, sat16_of_fits oddFits2,
      shifted _ (preds_lt i).1, shifted _ (preds_lt i).2]
    omega
  have answered2 : exec (.fwd x z le) (s.writeAlpha s.kptr.toNat a2) =
      .next (fwdCommit (s.writeAlpha s.kptr.toNat a2) s.kptr.toNat a2 x z le) :=
    exec_fwd_of_read stage (s.readAlpha_writeAlpha_same a2 stage.le)
  refine ⟨_, _, exec_fwd_of_read stage source, answered2, ?_, ?_, ?_, ?_⟩
  · rw [find_alpha_fwdCommit, find_alpha_fwdCommit, State.writeAlpha_params, normalise_of_shifted shiftedNext]
  · rw [find_bmLo_fwdCommit, find_bmLo_fwdCommit, State.writeAlpha_params]
  · rw [find_bmHi_fwdCommit, find_bmHi_fwdCommit, State.writeAlpha_params]
  · rw [s16_result_fwdCommit, s16_result_fwdCommit, State.writeAlpha_params, hmax_of_shifted shiftedNext]

/-! Unsaturated metrics in BCJR terms (R150). -/

theorem polarity_not (b : Bool) : polarity (!b) = -polarity b := by cases b <;> rfl

theorem signedBy_eq_mul_polarity (pm : PsignMin) {v : Int} (b : Bool) (lower : -8000 ≤ v) (upper : v ≤ 8000) :
    signedBy pm v b = v * polarity b := by
  cases b with
  | true => exact (mul_one v).symm
  | false => exact (signNeg_eq_neg pm (by omega) (by omega)).trans (mul_neg_one v).symm

theorem mul_polarity_bounds {v : Int} (b : Bool) (lower : -8000 ≤ v) (upper : v ≤ 8000) :
    -8000 ≤ v * polarity b ∧ v * polarity b ≤ 8000 := by
  cases b with
  | true => exact (mul_one v).symm ▸ ⟨lower, upper⟩
  | false =>
    rw [polarity, if_neg Bool.false_ne_true, mul_neg_one]
    omega

theorem asr_one (v : Int) : asr v 1 = v / 2 := rfl

/-- The metric of an edge with input u and parity p, as R150 writes it. -/
def bcjrTerm (x z le : Int) (u p : Bool) : Int := x * polarity u + z * polarity p + asr (le * polarity u) 1

theorem bcjrTerm_not (x z : Int) (u p : Bool) (even : le % 2 = 0) :
    bcjrTerm x z le (!u) (!p) = -bcjrTerm x z le u p := by
  have evenTerm : le * polarity u % 2 = 0 := by rw [Int.mul_emod, even, zero_mul, Int.zero_emod]
  simp only [bcjrTerm, polarity_not, mul_neg, asr_one]
  omega

section smallSamples

variable (xLower : -8000 ≤ x) (xUpper : x ≤ 8000) (zLower : -8000 ≤ z) (zUpper : z ≤ 8000) (leLower : -8000 ≤ le)
  (leUpper : le ≤ 8000)
include xLower xUpper zLower zUpper leLower leUpper

theorem bcjrTerm_bounds (u p : Bool) : -20000 ≤ bcjrTerm x z le u p ∧ bcjrTerm x z le u p ≤ 20000 := by
  have xBounds := mul_polarity_bounds u xLower xUpper
  have zBounds := mul_polarity_bounds p zLower zUpper
  have leBounds := mul_polarity_bounds u leLower leUpper
  rw [bcjrTerm, asr_one]
  omega

theorem edgeMetric_eq_bcjrTerm {p : Params} (leOnly : p.bmShift = .leOnly) (i : Nat) (u : Bool) :
    edgeMetric p x z le i u = bcjrTerm x z le u (parityBit i u) := by
  have xBounds := mul_polarity_bounds u xLower xUpper
  have zBounds := mul_polarity_bounds (parityBit i u) zLower zUpper
  obtain ⟨lower, upper⟩ := bcjrTerm_bounds xLower xUpper zLower zUpper leLower leUpper u (parityBit i u)
  have channel : sat16 (x * polarity u + z * polarity (parityBit i u)) = x * polarity u + z * polarity (parityBit i u) :=
    sat16_eq_self (by omega) (by omega)
  simp only [edgeMetric, leOnly, signedBy_eq_mul_polarity _ _ xLower xUpper, signedBy_eq_mul_polarity _ _ zLower zUpper,
    signedBy_eq_mul_polarity _ _ leLower leUpper, channel]
  exact sat16_eq_self (v := bcjrTerm x z le u (parityBit i u)) (by omega) (by omega)

end smallSamples

/-- An edge out of an even state is the upper edge into its destination. -/
theorem upperEdge_of_even : ∀ i < 8, ∀ u, i % 2 = 0 →
    evenPred (nextState i u) = i ∧ upperInput (nextState i u) = u := by decide

/-- An edge out of an odd state is the lower edge into its destination: the upper one has the complementary input and
parity. -/
theorem upperEdge_of_odd : ∀ i < 8, ∀ u, i % 2 ≠ 0 →
    upperInput (nextState i u) = !u ∧ parityBit (evenPred (nextState i u)) (!u) = !(parityBit i u) := by decide

/-- The two destinations of a state are one in each half of the trellis (10_state.md R33). -/
theorem nextState_eq_or (i : Nat) (u : Bool) : nextState i u = i / 2 ∨ nextState i u = i / 2 + 4 := by
  unfold nextState
  cases feedbackBit i u with
  | false => exact .inl (Nat.zero_add _)
  | true => exact .inr (Nat.add_comm _ _)

/-- Lane i of the half that the destination selects holds the metric of the edge out of i (R145). -/
theorem h_bm_half_of_edge {lo hi : Vec} {f : Nat → Int} (u : Bool)
    (loLanes : ∀ i < 8, h lo i = if i % 2 = 0 then f (i / 2) else sat16 (-(f (i / 2))))
    (hiLanes : ∀ i < 8, h hi i = if i % 2 = 0 then f (i / 2 + 4) else sat16 (-(f (i / 2 + 4)))) (inRange : i < 8) :
    h (if nextState i u < 4 then lo else hi) i =
      if i % 2 = 0 then f (nextState i u) else sat16 (-(f (nextState i u))) := by
  rcases nextState_eq_or i u with low | high
  · rw [low, if_pos (by omega), loLanes i inRange]
  · rw [high, if_neg (by omega), hiLanes i inRange]

/-- Settles O57: an upper edge is stored as it is, and a lower edge as the negation of the upper edge into its destination,
which has the complementary input and parity. -/
theorem edgeMetricsAreTheBcjrTerms : Obligations.EdgeMetricsAreTheBcjrTerms := by
  intro s t x z le lo hi rom leOnly xLower xUpper zLower zUpper leLower leUpper stage answered loStored hiStored i u inRange
    upperOrEven
  have xFits : fitsS16 x = true := fitsS16_iff.mpr (by omega)
  have zFits : fitsS16 z = true := fitsS16_iff.mpr (by omega)
  have leFits : fitsS16 le = true := fitsS16_iff.mpr (by omega)
  obtain ⟨a, rfl⟩ := exec_fwd_next stage answered
  obtain rfl := Option.some.inj ((find_bmLo_fwdCommit ..).symm.trans loStored)
  obtain rfl := Option.some.inj ((find_bmHi_fwdCommit ..).symm.trans hiStored)
  rw [h_bm_half_of_edge u (fun _ => h_bmLo_lteTrellis rom xFits zFits leFits)
    (fun _ => h_bmHi_lteTrellis rom xFits zFits leFits) inRange, upperMetric,
    edgeMetric_eq_bcjrTerm xLower xUpper zLower zUpper leLower leUpper leOnly]
  by_cases isUpper : i % 2 = 0
  case pos =>
    obtain ⟨source, input⟩ := upperEdge_of_even i inRange u isUpper
    rw [if_pos isUpper, source, input, bcjrTerm]
  case neg =>
    obtain ⟨input, parity⟩ := upperEdge_of_odd i inRange u isUpper
    have leEven : le % 2 = 0 := upperOrEven.resolve_left isUpper
    obtain ⟨lower, upper⟩ := bcjrTerm_bounds xLower xUpper zLower zUpper leLower leUpper u (parityBit i u)
    rw [if_neg isUpper, input, parity, bcjrTerm_not x z u _ leEven, neg_neg, sat16_eq_self (by omega) (by omega), bcjrTerm]

end Sys2Proof.Machine
end

section
/-! The backward recursion BWD (42_backward.md): what the command does to the state for any TRELLIS, lane by lane, and what
that is on the trellis of 10_state.md R33 with the default ROM. -/

namespace Sys2Proof.Machine

variable {s : State} {z norm : Int} {blo bhi a b : Vec} {i k : Nat}

/-! A run of reads, in a model that faults at every one of unwritten state (60_exceptions.md R216). -/

/-- The read of place p answers as the mark of p says. -/
def readsByMark {α : Type} (s : State) (p : Place) (r : Except Fault α) : Prop :=
  (s.marked p = true → ∃ v, r = .ok v) ∧ (s.marked p = false → r = .error (.uninitRead p))

/-- If one of these places is unwritten, the result is a stop at one that is. -/
def stopsIfUnwritten (s : State) (places : List Place) (result : Result) : Prop :=
  (∃ p ∈ places, s.marked p = false) → ∃ p ∈ places, s.marked p = false ∧ result = .fault (.uninitRead p)

theorem stopsIfUnwritten_nil (result : Result) : stopsIfUnwritten s [] result := by
  rintro ⟨p, inList, -⟩
  exact absurd inList List.not_mem_nil

/-- A read put before a run of reads: it stops, or what it read is written and the run decides. -/
theorem readsByMark.withRead_stops {α : Type} {p : Place} {places : List Place} {r : Except Fault α} {run : α → Result}
    (read : readsByMark s p r) (rest : ∀ v, stopsIfUnwritten s places (run v)) :
    stopsIfUnwritten s (p :: places) (withRead r run) := by
  intro unwritten
  cases mark : s.marked p with
  | false => exact ⟨p, List.mem_cons_self, mark, by rw [read.2 mark, withRead_error]⟩
  | true =>
    obtain ⟨v, source⟩ := read.1 mark
    obtain ⟨q, inList, markQ⟩ := unwritten
    have inRest : q ∈ places := (List.mem_cons.mp inList).resolve_left fun same => by simp [same, mark] at markQ
    obtain ⟨q, inRest, markQ, stops⟩ := rest v ⟨q, inRest, markQ⟩
    exact ⟨q, List.mem_cons_of_mem _ inRest, markQ, by rw [source, withRead_ok, stops]⟩

theorem Mem.read_readsByMark {α : Type} {m : Mem α} {size : Nat} {p : Place} {free : α} (inMemory : k < size)
    (mark : s.marked p = (m.find k).isSome) (faults : s.params.uninitMem = .fault) :
    readsByMark s p (m.read size s.params.uninitMem p free k) := by
  obtain ⟨written, unwritten, -⟩ := m.read_by_policy s.params.uninitMem p free inMemory
  refine ⟨fun marked => ?_, fun unmarked => unwritten (by simpa [mark] using unmarked) faults⟩
  obtain ⟨v, found⟩ := Option.isSome_iff_exists.mp (mark ▸ marked)
  exact ⟨v, written v found⟩

theorem readBm_readsByMark (inMemory : k < s.params.kmax) (faults : s.params.uninitMem = .fault) (half : BmHalf) :
    readsByMark s (.bm k half) (s.readBm k half) := by
  cases half <;> exact Mem.read_readsByMark inMemory rfl faults

theorem readAlpha_readsByMark (inMemory : k ≤ s.params.kmax) (faults : s.params.uninitMem = .fault) :
    readsByMark s (.alpha k) (s.readAlpha k) :=
  Mem.read_readsByMark (Nat.lt_succ_of_le inMemory) rfl faults

theorem readBeta_readsByMark (faults : s.params.uninitReg = .fault) : readsByMark s .beta s.readBeta := by
  obtain ⟨written, unwritten, -⟩ := s.beta.read_by_policy s.params.uninitReg .beta
  exact ⟨fun marked => ⟨_, written marked⟩, fun unmarked => unwritten unmarked faults⟩

/-! The command (R166). -/

theorem exec_bwd_of_stage (stage : s.kptr.toNat = k + 1) : exec (.bwd z norm) s =
    withRead (s.readBm k .lo) fun blo => withRead (s.readBm k .hi) fun bhi => withRead (s.readAlpha k) fun a =>
      withRead s.readBeta fun b => .next (bwdCommit s k blo bhi a b z norm) := by
  rw [exec, execBwd, checked_of_not (by omega), stage, Nat.add_sub_cancel]

/-- BWD with its four sources readable. -/
theorem exec_bwd_of_reads (stage : s.kptr.toNat = k + 1) (lo : s.readBm k .lo = .ok blo) (hi : s.readBm k .hi = .ok bhi)
    (alpha : s.readAlpha k = .ok a) (beta : s.readBeta = .ok b) :
    exec (.bwd z norm) s = .next (bwdCommit s k blo bhi a b z norm) := by
  rw [exec_bwd_of_stage stage, lo, withRead_ok, hi, withRead_ok, alpha, withRead_ok, beta, withRead_ok]

theorem exec_bwd_stops (stage : s.kptr.toNat = k + 1) (inMemory : k < s.params.kmax) (faults : s.faultsOnUninit) :
    stopsIfUnwritten s [.bm k .lo, .bm k .hi, .alpha k, .beta] (exec (.bwd z norm) s) := by
  obtain ⟨regFaults, memFaults⟩ := faults
  rw [exec_bwd_of_stage stage]
  exact (readBm_readsByMark inMemory memFaults .lo).withRead_stops fun _ =>
    (readBm_readsByMark inMemory memFaults .hi).withRead_stops fun _ =>
    (readAlpha_readsByMark inMemory.le memFaults).withRead_stops fun _ =>
    (readBeta_readsByMark regFaults).withRead_stops fun _ => stopsIfUnwritten_nil _

/-! The writes of the command (R163, R164). -/

theorem beta_bwdCommit (s : State) (k : Nat) (blo bhi a b : Vec) (z norm : Int) :
    (bwdCommit s k blo bhi a b z norm).beta = ⟨vsubs (backwardMetric blo bhi b) (bcast8 norm), true⟩ := rfl

theorem find_llr_bwdCommit (s : State) (k : Nat) (blo bhi a b : Vec) (z norm : Int) :
    (bwdCommit s k blo bhi a b z norm).llr.find k = some (u16 (llrOf s.params z a b)) :=
  Mem.find_write_same _ _ _

theorem result_bwdCommit (s : State) (k : Nat) (blo bhi a b : Vec) (z norm : Int) :
    (bwdCommit s k blo bhi a b z norm).result = u16 (llrOf s.params z a b) := rfl

/-- Settles O47: the check and the reads come first, and then each part of the state is one that `bwdCommit` writes or one
that it leaves. -/
theorem bwdRunsOneBackwardStage : Obligations.BwdRunsOneBackwardStage := by
  refine ⟨reservedFieldRule_of_opcode _, fun s z norm kptrLe _ _ =>
    ⟨rfl, fun atStart => exec_of_check (if_pos atStart), fun k stage =>
      ⟨exec_bwd_stops stage (by omega), ?runs⟩⟩⟩
  case runs =>
    intro blo bhi a b pz npz bn m1 m0 h1 h0 lo hi alpha beta hpz hnpz hbn hm1 hm0 greatest1 greatest0
    subst hpz hnpz hbn hm1 hm0
    obtain rfl := hmax_eq_of_greatest greatest1.1 greatest1.2
    obtain rfl := hmax_eq_of_greatest greatest0.1 greatest0.2
    have prevStage : (BitVec.ofNat 16 k).toNat = k := Nat.mod_eq_of_lt (by omega)
    exact ⟨_, exec_bwd_of_reads stage lo hi alpha beta, beta_bwdCommit .., find_llr_bwdCommit .., result_bwdCommit ..,
      prevStage, fun _ other => Mem.find_write_other _ _ other, fun _ _ => rfl, fun _ _ => rfl, fun _ _ => rfl,
      fun _ => rfl, rfl, rfl, rfl, rfl, rfl⟩

/-! The backward metric (R162, R163): the halves of B spread to the two destinations of each state. -/

theorem h_backwardMetric (blo bhi b : Vec) (hi : i < 8) : h (backwardMetric blo bhi b) i =
    max (sat16 (h blo i + h b (i / 2))) (sat16 (h bhi i + h b (i / 2 + 4))) := by
  rw [backwardMetric, h_vmax _ _ hi, h_vadds _ _ hi, h_vadds _ _ hi, h_vilo _ _ hi, h_vihi _ _ hi, ite_self, ite_self,
    Nat.add_comm 4]

/-! The default ROM: the path metrics are those of the trellis (R161, R164; 10_state.md R33, R34). -/

/-- The path metric through the edge out of s' with input u, whose parity term is q (R164). -/
def pathThrough (a b : Vec) (q : Int) (s' : Nat) (u : Bool) : Int := sat16 (sat16 (h a s' + q) + h b (nextState s' u))

section defaultRom

variable {p : Params} (rom : p.trellis = lteTrellis) (zFits : fitsS16 z = true)
include rom zFits

theorem h_partialParity (hi : i < 8) : h (partialParity p z) i = signedBy p.psignMin z (parityBit i true) := by
  rw [partialParity, rom]
  exact h_vsign_of_polarity p.psignMin zFits hi (backwardPolarities i hi)

theorem h_pathMetricOne (a b : Vec) (hi : i < 8) :
    h (pathMetricOne p z a b) i = pathThrough a b (signedBy p.psignMin z (parityBit i true)) i true := by
  obtain ⟨-, -, gathers⟩ := defaultRomEncodesTheTrellis i hi
  obtain ⟨-, -, -, one⟩ := gathers b
  have destination : h (vbshuf b p.trellis.lGather1) i = h b (nextState i true) := rom ▸ congrArg s16 one
  rw [pathMetricOne, h_vadds _ _ hi, h_vadds _ _ hi, h_partialParity rom zFits hi, destination, pathThrough]

theorem h_pathMetricZero (a b : Vec) (hi : i < 8) :
    h (pathMetricZero p z a b) i = pathThrough a b (sat16 (-(signedBy p.psignMin z (parityBit i true)))) i false := by
  obtain ⟨-, -, gathers⟩ := defaultRomEncodesTheTrellis i hi
  obtain ⟨-, -, zero, -⟩ := gathers b
  have destination : h (vbshuf b p.trellis.lGather0) i = h b (nextState i false) := rom ▸ congrArg s16 zero
  rw [pathMetricZero, h_vadds _ _ hi, h_vadds _ _ hi, h_vsubs _ _ hi, h_zero, zero_sub, h_partialParity rom zFits hi,
    destination, pathThrough]

end defaultRom

/-- Settles O49: the new BETA lane by lane, and the two maxima over the path metrics of the trellis. -/
theorem bwdIsTheTrellisBackwardUpdate : Obligations.BwdIsTheTrellisBackwardUpdate := by
  intro s z norm k blo bhi a b rom zFits normFits stage _ lo hi alpha beta
  obtain ⟨lower, upper⟩ := fitsS16_iff.mp normFits
  refine ⟨_, _, _, _, exec_bwd_of_reads stage lo hi alpha beta, beta_bwdCommit .., fun i inRange => ?_,
    isGreatest_congr (fun _ => h_pathMetricOne rom zFits a b) (isGreatest_hmax _),
    isGreatest_congr (fun _ => h_pathMetricZero rom zFits a b) (isGreatest_hmax _),
    find_llr_bwdCommit .., result_bwdCommit ..⟩
  rw [h_vsubs _ _ inRange, h_backwardMetric blo bhi b inRange, h_bcast8 lower upper inRange]

/-! LLR shift invariance (R167). -/

theorem nextState_lt (hi : i < 8) (u : Bool) : nextState i u < 8 := by
  rcases nextState_eq_or i u with low | high <;> omega

theorem pathThrough_of_fits {q : Int} {u : Bool} (first : fitsS16 (h a i + q) = true)
    (second : fitsS16 (h a i + q + h b (nextState i u)) = true) :
    pathThrough a b q i u = h a i + q + h b (nextState i u) := by
  rw [pathThrough, sat16_of_fits first, sat16_of_fits second]

/-- Where nothing saturates the two constants pass through a path metric. -/
theorem pathThrough_of_shifted {a2 b2 : Vec} {q ca cb : Int} {u : Bool} (first : fitsS16 (h a i + q) = true)
    (second : fitsS16 (h a i + q + h b (nextState i u)) = true) (first2 : fitsS16 (h a2 i + q) = true)
    (second2 : fitsS16 (h a2 i + q + h b2 (nextState i u)) = true) (shiftedA : h a2 i = h a i + ca)
    (shiftedB : h b2 (nextState i u) = h b (nextState i u) + cb) :
    pathThrough a2 b2 q i u = pathThrough a b q i u - -(ca + cb) := by
  rw [pathThrough_of_fits first second, pathThrough_of_fits first2 second2, shiftedA, shiftedB]
  omega

/-- The LLR is a difference of maxima, so a constant taken from every path metric of both hypotheses cancels. -/
theorem llrOf_of_shifted {p : Params} {a2 b2 : Vec} {c : Int}
    (one : ∀ i < 8, h (pathMetricOne p z a2 b2) i = h (pathMetricOne p z a b) i - c)
    (zero : ∀ i < 8, h (pathMetricZero p z a2 b2) i = h (pathMetricZero p z a b) i - c) :
    llrOf p z a2 b2 = llrOf p z a b := by
  rw [llrOf, llrOf, hmax_of_shifted one, hmax_of_shifted zero, sub_sub_sub_cancel_right]

theorem readBeta_writeBeta (s : State) (v : Vec) : (s.writeBeta v).readBeta = .ok v := Reg.read_written v _ _

/-- Settles O54: where nothing saturates both constants pass through every path metric, so they shift both hypotheses
alike and the LLR not at all. -/
theorem llrIgnoresConstantShifts : Obligations.LlrIgnoresConstantShifts := by
  intro s z norm ca cb k blo bhi a a2 b b2 rom zFits _ stage kptrLe lo hi alpha beta shifted unsaturated
  have sameLlr : llrOf s.params z a2 b2 = llrOf s.params z a b := by
    refine llrOf_of_shifted (c := -(ca + cb)) (fun i inRange => ?one) fun i inRange => ?zero
    all_goals
      obtain ⟨first1, second1, first1', second1', first0, second0, first0', second0'⟩ := unsaturated i inRange _ rfl
      have shiftedA := (shifted i inRange).1
    case one =>
      rw [h_pathMetricOne rom zFits a2 b2 inRange, h_pathMetricOne rom zFits a b inRange]
      exact pathThrough_of_shifted first1 second1 first1' second1' shiftedA (shifted _ (nextState_lt inRange true)).2
    case zero =>
      rw [h_pathMetricZero rom zFits a2 b2 inRange, h_pathMetricZero rom zFits a b inRange]
      exact pathThrough_of_shifted first0 second0 first0' second0' shiftedA (shifted _ (nextState_lt inRange false)).2
  have alpha2 : (s.writeAlpha k a2).readAlpha k = .ok a2 := s.readAlpha_writeAlpha_same a2 (by omega)
  have answered2 : exec (.bwd z norm) ((s.writeAlpha k a2).writeBeta b2) =
      .next (bwdCommit ((s.writeAlpha k a2).writeBeta b2) k blo bhi a2 b2 z norm) :=
    exec_bwd_of_reads stage lo hi alpha2 (readBeta_writeBeta _ b2)
  refine ⟨_, _, exec_bwd_of_reads stage lo hi alpha beta, answered2, ?_, ?_⟩
  · rw [find_llr_bwdCommit, find_llr_bwdCommit, State.writeBeta_params, State.writeAlpha_params, sameLlr]
  · rw [result_bwdCommit, result_bwdCommit, State.writeBeta_params, State.writeAlpha_params, sameLlr]

end Sys2Proof.Machine
end

section
/-! The sequencing and data-movement commands (43_host.md): each makes its check, reads at most one place, and writes at most
one. -/

namespace Sys2Proof.Machine

variable {s : State} {i : Instr} {vd va : VReg} {k c : Nat} {half : BmHalf}

/-! A command that makes one read and then one write. -/

/-- With its source readable the command makes its write, and so what holds of the write holds of the next state; an
unwritten source stops it where the read of that place faults (60_exceptions.md R216). -/
theorem exec_of_read {α : Type} {r : Except Fault α} {p : Place} {faults : Prop} {write : α → State}
    {post : α → State → Prop} (runs : exec i s = withRead r fun v => .next (write v))
    (stops : faults → s.marked p = false → r = .error (.uninitRead p)) (written : ∀ v, post v (write v)) :
    (∀ v, r = .ok v → ∃ t, exec i s = .next t ∧ post v t) ∧
      (faults → s.marked p = false → exec i s = .fault (.uninitRead p)) := by
  refine ⟨fun v source => ⟨write v, ?_, written v⟩, fun faulting unwritten => ?_⟩
  · rw [runs, source, withRead_ok]
  · rw [runs, stops faulting unwritten, withRead_error]

/-! Each command past its check (60_exceptions.md R211). -/

theorem exec_setk_of_stage (stage : k ≤ s.params.kmax) : exec (.setk k) s = .next (s.setKptr k) := by
  rw [exec, execSetk, checked_of_not (Nat.not_lt.mpr stage)]

theorem exec_ldc_of_const (inRom : c < 7) : exec (.ldc vd c) s = .next (s.writeVR vd (romEntry s.params.trellis c)) := by
  rw [exec, execLdc, checked_of_not (Nat.not_le.mpr inRom)]

theorem exec_lda_of_stage (stage : k ≤ s.params.kmax) :
    exec (.lda vd k) s = withRead (s.readAlpha k) fun v => .next (s.writeVR vd v) := by
  rw [exec, execLda, checked_of_not (Nat.not_lt.mpr stage)]

theorem exec_sta_of_stage (stage : k ≤ s.params.kmax) :
    exec (.sta va k) s = withRead (s.readVR va) fun v => .next (s.writeAlpha k v) := by
  rw [exec, execSta, checked_of_not (Nat.not_lt.mpr stage)]

theorem exec_ldbm_of_stage (stage : k < s.params.kmax) :
    exec (.ldbm vd k half) s = withRead (s.readBm k half) fun v => .next (s.writeVR vd v) := by
  rw [exec, execLdbm, checked_of_not (Nat.not_le.mpr stage)]

theorem exec_stbm_of_stage (stage : k < s.params.kmax) :
    exec (.stbm va k half) s = withRead (s.readVR va) fun v => .next (s.writeBm k half v) := by
  rw [exec, execStbm, checked_of_not (Nat.not_le.mpr stage)]

/-! Reads of the ROM and of the metric state. -/

/-- The seven entries of the ROM in order (10_state.md R34): a list of them ends where CONST_RANGE begins. -/
theorem romEntry_of_getElem? {t : Trellis} {v : Vec} (entry : [t.sysPol, t.parPol, t.bwParPol, t.fGather0, t.fGather1,
    t.lGather0, t.lGather1][c]? = some v) : c < 7 ∧ romEntry t c = v := by
  obtain ⟨inRom, entry⟩ := List.getElem?_eq_some_iff.mp entry
  have inRom : c < 7 := inRom
  refine ⟨inRom, ?_⟩
  interval_cases c <;> exact entry

theorem readBm_of_unmarked (stage : k < s.params.kmax) (faults : s.params.uninitMem = .fault)
    (unwritten : s.marked (.bm k half) = false) : s.readBm k half = .error (.uninitRead (.bm k half)) :=
  (readBm_readsByMark stage faults half).2 unwritten

theorem readBeta_of_unmarked (faults : s.params.uninitReg = .fault) (unwritten : s.marked .beta = false) :
    s.readBeta = .error (.uninitRead .beta) :=
  (readBeta_readsByMark faults).2 unwritten

/-! A write to one half of a BM entry (R187). -/

theorem writeBm_lo_writes (s : State) (k : Nat) (v : Vec) : (s.writeBm k .lo v).bmLo.find k = some v ∧
    keepsBmLo (fun j => j = k) s (s.writeBm k .lo v) ∧ keepsBmHi noEntry s (s.writeBm k .lo v) :=
  ⟨Mem.find_write_same _ _ _, fun _ other => Mem.find_write_other _ _ other, fun _ _ => rfl⟩

theorem writeBm_hi_writes (s : State) (k : Nat) (v : Vec) : (s.writeBm k .hi v).bmHi.find k = some v ∧
    keepsBmHi (fun j => j = k) s (s.writeBm k .hi v) ∧ keepsBmLo noEntry s (s.writeBm k .hi v) :=
  ⟨Mem.find_write_same _ _ _, fun _ other => Mem.find_write_other _ _ other, fun _ _ => rfl⟩

theorem writeBm_keeps (s : State) (k : Nat) (half : BmHalf) (v : Vec) :
    keepsAlpha noEntry s (s.writeBm k half v) ∧ keepsLlr noEntry s (s.writeBm k half v) ∧
      keepsVRs s (s.writeBm k half v) ∧ (s.writeBm k half v).beta = s.beta ∧ keepsControl s (s.writeBm k half v) ∧
      keepsHost s (s.writeBm k half v) := by
  cases half <;>
    exact ⟨fun _ _ => rfl, fun _ _ => rfl, fun _ => rfl, rfl, ⟨rfl, rfl, rfl, rfl⟩, rfl, rfl, rfl⟩

/-! The obligations. -/

/-- Settles O30: a legal stage fits KPTR, and any other fails the check. -/
theorem nopAndSetk : Obligations.NopAndSetk := by
  refine ⟨reservedFieldRule_of_opcode _, reservedFieldRule_of_opcode _, fun s =>
    ⟨rfl, rfl, fun k fits => ⟨rfl, fun stage => ?_, fun pastEnd => exec_of_check (if_pos pastEnd)⟩⟩⟩
  have fits : k < 65536 := of_decide_eq_true fits
  exact ⟨_, exec_setk_of_stage stage, Nat.mod_eq_of_lt fits, rfl⟩

/-- Settles O42, by the lanes of `vins`. -/
theorem vinsReplacesOneLane : Obligations.VinsReplacesOneLane := by
  refine ⟨reservedFieldRule_of_opcode _, fun s vd n x fits => ⟨rfl, fun r source => ?_, fun faults unwritten => ?_⟩⟩
  · obtain ⟨lower, upper⟩ := fitsS16_iff.mp fits
    refine ⟨vins r n.val x, _, unary_of_ok source, wroteOnlyVR_writeVR s vd _, ?_, fun i hi other => ?_⟩
    · rw [h_vins r n.val lower upper n.isLt, if_pos rfl]
    · rw [h_vins r n.val lower upper hi, if_neg other]
  · exact unary_of_error (readVR_of_unmarked faults unwritten)

/-- Settles O43: the list of the rule and the model's ROM have the same seven entries. -/
theorem ldcLoadsARomEntry : Obligations.LdcLoadsARomEntry := by
  refine ⟨reservedFieldRule_of_opcode _, fun s vd c => ⟨rfl, fun v entry => ?_, fun pastEnd =>
    exec_of_check (if_pos pastEnd)⟩⟩
  obtain ⟨inRom, rfl⟩ := romEntry_of_getElem? entry
  exact ⟨_, exec_ldc_of_const inRom, wroteOnlyVR_writeVR s vd _⟩

/-- Settles O44: each load makes its check and then is a read of metric state and a write of VD. -/
theorem loadsCopyMetricsToAVectorRegister : Obligations.LoadsCopyMetricsToAVectorRegister := by
  refine ⟨reservedFieldRule_of_opcode _, reservedFieldRule_of_opcode _, reservedFieldRule_of_opcode _, fun s vd =>
    ⟨fun k => ⟨rfl, fun pastEnd => exec_of_check (if_pos pastEnd), fun stage => ?lda⟩,
      fun k half => ⟨rfl, fun pastEnd => exec_of_check (if_pos pastEnd), fun stage => ?ldbm⟩, rfl, ?ldb⟩⟩
  case lda => exact exec_of_read (exec_lda_of_stage stage) (readAlpha_of_unmarked stage) (wroteOnlyVR_writeVR s vd)
  case ldbm => exact exec_of_read (exec_ldbm_of_stage stage) (readBm_of_unmarked stage) (wroteOnlyVR_writeVR s vd)
  case ldb => exact exec_of_read rfl readBeta_of_unmarked (wroteOnlyVR_writeVR s vd)

/-- Settles O45: each store makes its check and then is a read of VA and a write of one place, which leaves the others. -/
theorem storesWriteOnlyTheEntryTheyName : Obligations.StoresWriteOnlyTheEntryTheyName := by
  refine ⟨reservedFieldRule_of_opcode _, reservedFieldRule_of_opcode _, reservedFieldRule_of_opcode _, fun s va =>
    ⟨fun k => ⟨rfl, fun pastEnd => exec_of_check (if_pos pastEnd), fun stage => ?sta⟩,
      fun k half => ⟨rfl, fun pastEnd => exec_of_check (if_pos pastEnd), fun stage => ?stbm⟩, rfl, ?stb⟩⟩
  case sta =>
    exact exec_of_read (exec_sta_of_stage stage) readVR_of_unmarked fun v =>
      ⟨Mem.find_write_same _ _ _, fun _ other => Mem.find_write_other _ _ other, fun _ _ => rfl, fun _ _ => rfl,
        fun _ _ => rfl, fun _ => rfl, rfl, ⟨rfl, rfl, rfl, rfl⟩, rfl, rfl, rfl⟩
  case stbm =>
    refine exec_of_read (exec_stbm_of_stage stage) readVR_of_unmarked fun v => ⟨?_, ?_, writeBm_keeps s k half v⟩
    · rintro rfl
      exact writeBm_lo_writes s k v
    · rintro rfl
      exact writeBm_hi_writes s k v
  case stb =>
    exact exec_of_read rfl readVR_of_unmarked fun v =>
      ⟨rfl, keepsMetrics_refl s, fun _ => rfl, ⟨rfl, rfl, rfl, rfl⟩, rfl, rfl, rfl⟩

end Sys2Proof.Machine
end

section
/-! Independence of what nothing has written (60_exceptions.md R216). Two states that agree are one state with two contents
of its registers; where every read of unwritten state stops, they answer every read alike, and so they run alike. -/

namespace Sys2Proof.Machine

variable {s t : State} {i : Instr}

/-! Agreement as one state with other registers. -/

/-- The state with these VRs and this BETA. -/
def State.withRegs (s : State) (vr : Vector Reg 16) (beta : Reg) : State := { s with vr := vr, beta := beta }

theorem Reg.agrees_refl (a : Reg) : a.agrees a := ⟨rfl, fun _ => rfl⟩

theorem State.withRegs_agrees {vr vr' : Vector Reg 16} {beta beta' : Reg} (vrAgree : ∀ r : VReg, (vr[r]).agrees vr'[r])
    (betaAgree : beta.agrees beta') : (s.withRegs vr beta).agrees (s.withRegs vr' beta') :=
  ⟨vrAgree, betaAgree, ⟨rfl, rfl, rfl, rfl⟩, ⟨rfl, rfl, rfl⟩, rfl, rfl, rfl, rfl⟩

theorem State.agrees_refl (s : State) : s.agrees s :=
  State.withRegs_agrees (s := s) (fun _ => Reg.agrees_refl _) (Reg.agrees_refl _)

theorem State.agrees.eq_withRegs (agree : s.agrees t) : t = s.withRegs t.vr t.beta := by
  obtain ⟨-, -, ⟨kptr, status, result, errcmd⟩, ⟨params, inbox, outbox⟩, alpha, bmLo, bmHi, llr⟩ := agree
  rw [State.withRegs, ← kptr, ← status, ← result, ← errcmd, ← params, ← inbox, ← outbox, ← alpha, ← bmLo, ← bmHi, ← llr]

/-- What does not look at the registers is the same of both states. -/
theorem State.agrees.congr {α : Sort*} (agree : s.agrees t) (look : State → α)
    (blind : ∀ s vr beta, look (State.withRegs s vr beta) = look s) : look t = look s :=
  (congrArg look agree.eq_withRegs).trans (blind _ _ _)

theorem State.agrees.params (agree : s.agrees t) : t.params = s.params := agree.congr State.params fun _ _ _ => rfl

theorem State.agrees.kptr (agree : s.agrees t) : t.kptr = s.kptr := agree.congr State.kptr fun _ _ _ => rfl

theorem State.agrees.inbox (agree : s.agrees t) : t.inbox = s.inbox := agree.congr State.inbox fun _ _ _ => rfl

/-! Updates keep agreement. -/

/-- An update that leaves the registers alone, whatever they hold, keeps agreement. -/
theorem State.agrees.update (agree : s.agrees t) (u : State → State)
    (commutes : ∀ s vr beta, u (State.withRegs s vr beta) = (u s).withRegs vr beta) : (u s).agrees (u t) := by
  have ofS : u s = (u s).withRegs s.vr s.beta := commutes s s.vr s.beta
  have ofT : u t = (u s).withRegs t.vr t.beta := (congrArg u agree.eq_withRegs).trans (commutes s t.vr t.beta)
  rw [ofS, ofT]
  exact State.withRegs_agrees agree.1 agree.2.1

/-- A register written with one value agrees from then on. -/
theorem State.agrees.writeVR (agree : s.agrees t) (vd : VReg) (v : Vec) : (s.writeVR vd v).agrees (t.writeVR vd v) := by
  obtain ⟨vrAgree, rest⟩ := agree
  refine ⟨fun r => ?_, rest⟩
  by_cases same : r = vd
  · rw [same, State.vr_writeVR_same, State.vr_writeVR_same]
    exact Reg.agrees_refl _
  · rw [State.vr_writeVR_other _ _ same, State.vr_writeVR_other _ _ same]
    exact vrAgree r

theorem State.agrees.writeBeta (agree : s.agrees t) (v : Vec) : (s.writeBeta v).agrees (t.writeBeta v) := by
  obtain ⟨vrAgree, -, rest⟩ := agree
  exact ⟨vrAgree, Reg.agrees_refl _, rest⟩

/-- Reset gives both states the same registers. -/
theorem State.agrees.applyReset (agree : s.agrees t) : s.applyReset.agrees t.applyReset := by
  rw [agree.congr State.applyReset fun _ _ _ => rfl]
  exact State.agrees_refl _

theorem State.agrees.fwdCommit (agree : s.agrees t) (k : Nat) (a : Vec) (x z le : Int) :
    (fwdCommit s k a x z le).agrees (fwdCommit t k a x z le) :=
  agree.update (fun s => Machine.fwdCommit s k a x z le) fun _ _ _ => rfl

theorem State.agrees.bwdCommit (agree : s.agrees t) (k : Nat) (blo bhi a b : Vec) (z norm : Int) :
    (bwdCommit s k blo bhi a b z norm).agrees (bwdCommit t k blo bhi a b z norm) := by
  have betaWritten := agree.writeBeta (vsubs (backwardMetric blo bhi b) (bcast8 norm))
  exact betaWritten.update (fun s => ((s.writeLlr k (u16 (llrOf s.params z a b))).setResult
    (u16 (llrOf s.params z a b))).setKptr k) fun _ _ _ => rfl

/-! Reads answer alike. -/

/-- Where unwritten registers fault, what one of them holds does not show. -/
theorem Reg.agrees.read_eq {a b : Reg} (agree : a.agrees b) (p : Place) : b.read .fault p = a.read .fault p := by
  obtain ⟨sameMark, sameValue⟩ := agree
  cases written : a.written with
  | true => simp [Reg.read, ← sameMark, written, sameValue written]
  | false => simp [Reg.read, ← sameMark, written]

theorem State.agrees.readVR_eq (agree : s.agrees t) (faults : s.params.uninitReg = .fault) (r : VReg) :
    t.readVR r = s.readVR r := by
  rw [State.readVR, State.readVR, agree.params, faults]
  exact (agree.1 r).read_eq _

theorem State.agrees.readBeta_eq (agree : s.agrees t) (faults : s.params.uninitReg = .fault) :
    t.readBeta = s.readBeta := by
  rw [State.readBeta, State.readBeta, agree.params, faults]
  exact agree.2.1.read_eq _

theorem State.agrees.readAlpha_eq (agree : s.agrees t) (k : Nat) : t.readAlpha k = s.readAlpha k :=
  agree.congr (State.readAlpha · k) fun _ _ _ => rfl

theorem State.agrees.readBm_eq (agree : s.agrees t) (k : Nat) (half : BmHalf) : t.readBm k half = s.readBm k half :=
  agree.congr (State.readBm · k half) fun _ _ _ => rfl

/-- Of the ranges of R29 only those of VR and BETA show the registers. -/
theorem State.agrees.readPort_eq (agree : s.agrees t) (faults : s.params.uninitReg = .fault) (addr : Half16) :
    t.readPort addr = s.readPort addr := by
  rw [State.readPort, agree.readBeta_eq faults, agree.readVR_eq faults, agree.eq_withRegs]
  rfl

/-! The shapes of commands. -/

theorem withRead_agrees {α : Type} {r r' : Except Fault α} {k k' : α → Result} (sameRead : r' = r)
    (rest : ∀ a, outcomesAgree (k a) (k' a)) : outcomesAgree (withRead r k) (withRead r' k') := by
  subst sameRead
  cases r' with
  | error f => exact rfl
  | ok a => exact rest a

theorem unary_agrees (agree : s.agrees t) (faults : s.params.uninitReg = .fault) (g : Vec → Vec) (vd va : VReg) :
    outcomesAgree (unary g vd va s) (unary g vd va t) :=
  withRead_agrees (agree.readVR_eq faults va) fun _ => agree.writeVR vd _

theorem binary_agrees (agree : s.agrees t) (faults : s.params.uninitReg = .fault) (g : Vec → Vec → Vec)
    (vd va vb : VReg) : outcomesAgree (binary g vd va vb s) (binary g vd va vb t) :=
  withRead_agrees (agree.readVR_eq faults va) fun _ =>
    withRead_agrees (agree.readVR_eq faults vb) fun _ => agree.writeVR vd _

theorem checked_agrees {bad : Bool} {c : ErrorCode} {run : State → Result} (agree : s.agrees t)
    (rest : outcomesAgree (run s) (run t)) : outcomesAgree (checked bad c i run s) (checked bad c i run t) := by
  cases bad with
  | true => exact agree.update (State.raiseError · c (encode i)) fun _ _ _ => rfl
  | false => exact rest

/-! Commands, words and steps. -/

theorem exec_agrees (agree : s.agrees t) (faults : s.params.uninitReg = .fault) (i : Instr) :
    outcomesAgree (exec i s) (exec i t) := by
  cases i
  case nop => exact agree
  case vzero | vbcast => exact agree.writeVR _ _
  case vsra | vl0b | vhmin | vsh32 | vsh16l | vsh16h | vins => exact unary_agrees agree faults _ _ _
  case vadds | vsubs | vilo | vihi | vbshuf | vmax => exact binary_agrees agree faults _ _ _ _
  case vsign =>
    simp only [exec, execVsign, agree.params]
    exact binary_agrees agree faults _ _ _ _
  case setk =>
    simp only [exec, execSetk, agree.params]
    exact checked_agrees agree (agree.update (State.setKptr · _) fun _ _ _ => rfl)
  case ldc =>
    simp only [exec, execLdc]
    refine checked_agrees agree ?_
    rw [agree.params]
    exact agree.writeVR _ _
  case lda vd k =>
    simp only [exec, execLda, agree.params]
    exact checked_agrees agree (withRead_agrees (agree.readAlpha_eq k) fun _ => agree.writeVR vd _)
  case sta va k =>
    simp only [exec, execSta, agree.params]
    exact checked_agrees agree (withRead_agrees (agree.readVR_eq faults va) fun v =>
      agree.update (State.writeAlpha · k v) fun _ _ _ => rfl)
  case ldbm vd k half =>
    simp only [exec, execLdbm, agree.params]
    exact checked_agrees agree (withRead_agrees (agree.readBm_eq k half) fun _ => agree.writeVR vd _)
  case stbm va k half =>
    simp only [exec, execStbm, agree.params]
    exact checked_agrees agree (withRead_agrees (agree.readVR_eq faults va) fun v =>
      agree.update (State.writeBm · k half v) fun _ _ _ => by cases half <;> rfl)
  case ldb vd => exact withRead_agrees (agree.readBeta_eq faults) fun _ => agree.writeVR vd _
  case stb va => exact withRead_agrees (agree.readVR_eq faults va) fun v => agree.writeBeta v
  case fwd x z le =>
    simp only [exec, execFwd, agree.params, agree.kptr]
    refine checked_agrees agree ?_
    rw [agree.kptr]
    exact withRead_agrees (agree.readAlpha_eq _) fun a => agree.fwdCommit _ a x z le
  case bwd z norm =>
    simp only [exec, execBwd, agree.kptr]
    refine checked_agrees agree ?_
    rw [agree.kptr]
    exact withRead_agrees (agree.readBm_eq _ .lo) fun blo => withRead_agrees (agree.readBm_eq _ .hi) fun bhi =>
      withRead_agrees (agree.readAlpha_eq _) fun a => withRead_agrees (agree.readBeta_eq faults) fun b =>
      agree.bwdCommit _ blo bhi a b z norm

theorem runWord_agrees (agree : s.agrees t) (faults : s.params.uninitReg = .fault) (w : CmdWord) :
    outcomesAgree (runWord w s) (runWord w t) := by
  have sameHalted : t.halted = s.halted := agree.congr State.halted fun _ _ _ => rfl
  rw [runWord, runWord, sameHalted]
  split
  case isTrue => exact agree
  case isFalse =>
    cases decode w with
    | error e => exact agree.update (State.raiseError · (codeOf e) w) fun _ _ _ => rfl
    | ok i => exact exec_agrees agree faults i

theorem hostEvent_agrees (agree : s.agrees t) (faults : s.params.uninitReg = .fault) (e : HostEvent) :
    outcomesAgree (hostEvent e s) (hostEvent e t) := by
  cases e with
  | command w => exact runWord_agrees agree faults w
  | read addr =>
    exact withRead_agrees (agree.readPort_eq faults addr) fun v =>
      agree.update (fun s => { s with outbox := s.outbox ++ [v] }) fun _ _ _ => rfl
  | reset => exact agree.applyReset

theorem step_agrees (agree : s.agrees t) (faults : s.params.uninitReg = .fault) : outcomesAgree (step s) (step t) := by
  rw [step, step, takeEvent, takeEvent, agree.inbox]
  cases s.inbox with
  | nil => exact agree
  | cons e rest =>
    have taken := agree.update (fun s => { s with inbox := rest }) fun _ _ _ => rfl
    exact hostEvent_agrees taken faults e

/-- Settles O16, by induction on the number of steps: agreeing states take agreeing steps, and no step changes the policy
for reading registers. -/
theorem resultsDoNotDependOnUnwrittenState : Obligations.ResultsDoNotDependOnUnwrittenState := by
  intro n s t agree faults
  obtain ⟨faults, -⟩ := faults
  induction n generalizing s t with
  | zero => exact agree
  | succ n ih =>
    have stepped : outcomesAgree (core.step s) (core.step t) := step_agrees agree faults
    simp only [Host.Core.run]
    cases hs : core.step s <;> cases ht : core.step t <;> rw [hs, ht] at stepped
    case next.next s' t' => exact ih s' t' stepped ((congrArg Params.uninitReg (step_params hs)).trans faults)
    case fault.fault | refused.refused => exact stepped
    all_goals exact stepped.elim

end Sys2Proof.Machine
end

section
/-! What decides the outcome of a command (60_exceptions.md R211, R214, R216): its check, and past the check the first place
it reads that is not readable. -/

namespace Sys2Proof.Machine

variable {s t : State} {i : Instr} {p : Place} {places : List Place}

/-! Reads by policy. -/

/-- The read of place p goes on where p is readable, and otherwise stops with UNINIT_READ of p. -/
def readsByPolicy {α : Type} (s : State) (p : Place) (r : Except Fault α) : Prop :=
  (s.readable p = true → ∃ v, r = .ok v) ∧ (s.readable p = false → r = .error (.uninitRead p))

theorem readsByPolicy_of_mark {α : Type} {r : Except Fault α} (written : s.marked p = true → ∃ v, r = .ok v)
    (stops : s.marked p = false → s.policyOf p = .fault → r = .error (.uninitRead p))
    (goesOn : s.marked p = false → s.policyOf p = .value → ∃ v, r = .ok v) : readsByPolicy s p r := by
  unfold readsByPolicy State.readable
  cases marked : s.marked p with
  | true => simpa using written marked
  | false =>
    cases policy : s.policyOf p with
    | fault => simpa using stops marked policy
    | value => simpa using goesOn marked policy

theorem readVR_readsByPolicy (s : State) (r : VReg) : readsByPolicy s (.vr r) (s.readVR r) := by
  obtain ⟨written, stops, goesOn⟩ := (s.vr[r]).read_by_policy s.params.uninitReg (.vr r)
  exact readsByPolicy_of_mark (fun marked => ⟨_, written marked⟩) stops goesOn

theorem readBeta_readsByPolicy (s : State) : readsByPolicy s .beta s.readBeta := by
  obtain ⟨written, stops, goesOn⟩ := s.beta.read_by_policy s.params.uninitReg .beta
  exact readsByPolicy_of_mark (fun marked => ⟨_, written marked⟩) stops goesOn

theorem Mem.read_readsByPolicy {α : Type} {m : Mem α} {size k : Nat} {free : α} (inMemory : k < size)
    (mark : s.marked p = (m.find k).isSome) (policy : s.policyOf p = s.params.uninitMem) :
    readsByPolicy s p (m.read size s.params.uninitMem p free k) := by
  obtain ⟨written, stops, goesOn⟩ := m.read_by_policy s.params.uninitMem p free inMemory
  have unlisted (unmarked : s.marked p = false) : m.find k = none := by simpa [mark] using unmarked
  refine readsByPolicy_of_mark (fun marked => ?_) (fun unmarked faults => ?_) fun unmarked value => ?_
  · obtain ⟨v, found⟩ := Option.isSome_iff_exists.mp (mark ▸ marked)
    exact ⟨v, written v found⟩
  · exact stops (unlisted unmarked) (policy ▸ faults)
  · exact goesOn (unlisted unmarked) (policy ▸ value)

theorem readAlpha_readsByPolicy {k : Nat} (inMemory : k ≤ s.params.kmax) : readsByPolicy s (.alpha k) (s.readAlpha k) :=
  Mem.read_readsByPolicy (Nat.lt_succ_of_le inMemory) rfl rfl

theorem readBm_readsByPolicy {k : Nat} (inMemory : k < s.params.kmax) (half : BmHalf) :
    readsByPolicy s (.bm k half) (s.readBm k half) := by
  cases half <;> exact Mem.read_readsByPolicy inMemory rfl rfl

/-! A run of reads. -/

/-- These reads, made in order, decide the result: it is a stop at the first place that is not readable, and a next state if
there is none. -/
def decidedByReads (s : State) (places : List Place) (result : Result) : Prop :=
  (∀ p, places.find? (fun q => !s.readable q) = some p → result = .fault (.uninitRead p)) ∧
    (places.find? (fun q => !s.readable q) = none → ∃ t, result = .next t)

theorem decidedByReads_nil : decidedByReads s [] (.next t) := ⟨nofun, fun _ => ⟨t, rfl⟩⟩

theorem readsByPolicy.withRead {α : Type} {r : Except Fault α} {run : α → Result} (read : readsByPolicy s p r)
    (rest : ∀ v, decidedByReads s places (run v)) : decidedByReads s (p :: places) (withRead r run) := by
  obtain ⟨goesOn, stops⟩ := read
  rw [decidedByReads, List.find?_cons]
  cases readable : s.readable p with
  | false => simp [stops readable]
  | true =>
    obtain ⟨v, source⟩ := goesOn readable
    rw [source, withRead_ok]
    exact rest v

theorem unary_decidedByReads (s : State) (g : Vec → Vec) (vd va : VReg) :
    decidedByReads s [.vr va] (unary g vd va s) :=
  (readVR_readsByPolicy s va).withRead fun _ => decidedByReads_nil

theorem binary_decidedByReads (s : State) (g : Vec → Vec → Vec) (vd va vb : VReg) :
    decidedByReads s [.vr va, .vr vb] (binary g vd va vb s) :=
  (readVR_readsByPolicy s va).withRead fun _ => (readVR_readsByPolicy s vb).withRead fun _ => decidedByReads_nil

/-- Past its check a command makes the reads of `readsOf`, each inside its memory, and then its writes. -/
theorem exec_decidedByReads (kptrLe : s.kptr.toNat ≤ s.params.kmax)
    (passes : commandCheck s.params.kmax s.kptr.toNat i = none) :
    decidedByReads s (readsOf s.kptr.toNat i) (exec i s) := by
  cases i
  case nop | vzero | vbcast => exact decidedByReads_nil
  case vsra | vl0b | vhmin | vsh32 | vsh16l | vsh16h | vins => exact unary_decidedByReads s _ _ _
  case vsign | vadds | vsubs | vilo | vihi | vbshuf | vmax => exact binary_decidedByReads s _ _ _ _
  case ldb => exact (readBeta_readsByPolicy s).withRead fun _ => decidedByReads_nil
  case stb => exact (readVR_readsByPolicy s _).withRead fun _ => decidedByReads_nil
  case setk k =>
    have stage : k ≤ s.params.kmax := by simpa [commandCheck] using passes
    rw [exec_setk_of_stage stage]
    exact decidedByReads_nil
  case ldc vd c =>
    have inRom : c < 7 := by simpa [commandCheck] using passes
    rw [exec_ldc_of_const inRom]
    exact decidedByReads_nil
  case lda vd k =>
    have stage : k ≤ s.params.kmax := by simpa [commandCheck] using passes
    rw [exec_lda_of_stage stage]
    exact (readAlpha_readsByPolicy stage).withRead fun _ => decidedByReads_nil
  case sta va k =>
    have stage : k ≤ s.params.kmax := by simpa [commandCheck] using passes
    rw [exec_sta_of_stage stage]
    exact (readVR_readsByPolicy s va).withRead fun _ => decidedByReads_nil
  case ldbm vd k half =>
    have stage : k < s.params.kmax := by simpa [commandCheck] using passes
    rw [exec_ldbm_of_stage stage]
    exact (readBm_readsByPolicy stage half).withRead fun _ => decidedByReads_nil
  case stbm va k half =>
    have stage : k < s.params.kmax := by simpa [commandCheck] using passes
    rw [exec_stbm_of_stage stage]
    exact (readVR_readsByPolicy s va).withRead fun _ => decidedByReads_nil
  case fwd x z le =>
    have stage : s.kptr.toNat < s.params.kmax := by simpa [commandCheck] using passes
    rw [exec_fwd_of_stage stage]
    exact (readAlpha_readsByPolicy kptrLe).withRead fun _ => decidedByReads_nil
  case bwd z norm =>
    have notAtStart : s.kptr.toNat ≠ 0 := by simpa [commandCheck] using passes
    obtain ⟨k, stage⟩ := Nat.exists_eq_succ_of_ne_zero notAtStart
    have inMemory : k < s.params.kmax := by omega
    rw [exec_bwd_of_stage stage, stage]
    exact (readBm_readsByPolicy inMemory .lo).withRead fun _ => (readBm_readsByPolicy inMemory .hi).withRead fun _ =>
      (readAlpha_readsByPolicy inMemory.le).withRead fun _ => (readBeta_readsByPolicy s).withRead fun _ =>
      decidedByReads_nil

/-! The obligations. -/

/-- Settles O14: a failed check is `exec_of_check`; past it, with no unreadable place there is a next state, and its effect
leaves the error record alone. -/
theorem commandChecksDecideTheOutcome : Obligations.CommandChecksDecideTheOutcome := by
  refine fun i s kptrLe => ⟨fun c failed => exec_of_check failed, fun passes readable => ?_⟩
  have noneUnreadable : (readsOf s.kptr.toNat i).find? (fun q => !s.readable q) = none :=
    List.find?_eq_none.mpr fun p inReads => by simp [readable p inReads]
  obtain ⟨t, answered⟩ := (exec_decidedByReads kptrLe passes).2 noneUnreadable
  rcases exec_next answered with ⟨c, failed, -⟩ | ⟨-, effect⟩
  · cases passes.symm.trans failed
  · exact ⟨t, answered, effect.status_errcmd⟩

/-- Settles O15: a failed check answers a next state, and so do readable sources; what is left is the stop. -/
theorem uninitReadIsTheOnlyStop : Obligations.UninitReadIsTheOnlyStop := by
  intro i s kptrLe
  cases check : commandCheck s.params.kmax s.kptr.toNat i with
  | some c => simp [exec_of_check check]
  | none =>
    obtain ⟨stops, goesOn⟩ := exec_decidedByReads kptrLe check
    cases unreadable : (readsOf s.kptr.toNat i).find? (fun q => !s.readable q) with
    | some p => simp [stops p unreadable, eq_comm]
    | none =>
      obtain ⟨t, answered⟩ := goesOn unreadable
      simp [answered]

/-- Settles O13: the decoder reports the first two errors in their order, and a word that decodes is the encoding of its
command, so a failed check puts the word itself in ERRCMD. -/
theorem errorPriorityIsDecodeOrder : Obligations.ErrorPriorityIsDecodeOrder := by
  intro s w rest pending running kptrLe
  refine ⟨fun illegal => ?_, fun _ reservedSet => ?_, fun i c decoded failed => ?_, fun i p decoded passes first => ?_⟩
  · exact step_of_decode_error pending running (decode_eq_illegalOpcode_iff.mpr illegal)
  · exact step_of_decode_error pending running (decode_eq_reservedField_iff_hasReservedBit.mpr reservedSet)
  · rw [stepRunsTheDecodedCommand s w rest i pending running decoded, ← (encodeUndoesDecode w i decoded).2]
    exact exec_of_check failed
  · rw [stepRunsTheDecodedCommand s w rest i pending running decoded]
    exact (exec_decidedByReads (s := { s with inbox := rest }) kptrLe passes).1 p first

end Sys2Proof.Machine
end

section
/-! Idling, error entry and the halted state (60_exceptions.md R212, R213, R218, R225). -/

namespace Sys2Proof.Machine

variable {s t : State}

theorem step_of_reset {rest : List HostEvent} (pending : s.inbox = .reset :: rest) :
    step s = .next (State.applyReset { s with inbox := rest }) := by
  simp [step, takeEvent, pending, hostEvent]

theorem runWord_of_halted {w : CmdWord} (halted : s.halted = true) : runWord w s = .next s := by
  rw [runWord, if_pos halted]

/-- In the halted state a word is discarded and a read writes the host's side alone, so only reset touches the error
record. -/
theorem step_keeps_error_record (halted : s.halted = true) (noReset : ∀ rest, s.inbox ≠ .reset :: rest)
    (stepped : step s = .next t) : t.status = s.status ∧ t.errcmd = s.errcmd := by
  rcases step_next stepped with ⟨-, rfl⟩ | ⟨w, rest, -, ran⟩ | ⟨a, rest, v, -, -, rfl⟩ | ⟨rest, pending, -⟩
  · exact ⟨rfl, rfl⟩
  · cases (runWord_of_halted (s := { s with inbox := rest }) halted).symm.trans ran
    exact ⟨rfl, rfl⟩
  · exact ⟨rfl, rfl⟩
  · exact absurd pending (noReset rest)

/-- A state is halted exactly when its STATUS is an error (10_state.md R26). -/
theorem halted_of_status {c : ErrorCode} (status : s.status = .error c) : s.halted = true := by
  rw [State.halted, status, Status.err]

/-- A word that leaves an error on a running core has raised it: a command that passes its check leaves STATUS alone. -/
theorem runWord_raises {w : CmdWord} {c : ErrorCode} (running : s.halted = false) (ran : runWord w s = .next t)
    (status : t.status = .error c) : t = s.raiseError c w := by
  rcases runWord_next ran with ⟨halted, -⟩ | ⟨-, e, -, rfl⟩ | ⟨-, i, decoded, he⟩
  · cases running.symm.trans halted
  · cases status
    rfl
  · rcases exec_next he with ⟨c', -, rfl⟩ | ⟨-, effect⟩
    · cases status
      rw [(encodeUndoesDecode w i decoded).2]
    · cases running.symm.trans (halted_of_status (effect.status_errcmd.1.symm.trans status))

/-! The obligations. -/

/-- Settles O8: there is no event to take. -/
theorem idleStepKeepsAllState : Obligations.IdleStepKeepsAllState := by
  intro s idle
  rw [step, takeEvent, idle]

/-- Settles O9: the word is discarded before decoding, a read is a read of any state, and reset alone clears STATUS. -/
theorem haltedCoreDiscardsEveryWord : Obligations.HaltedCoreDiscardsEveryWord := by
  refine ⟨fun s w rest halted pending => ?discards, fun s a v rest _ pending => ?reads, fun s rest _ pending => ?leaves,
    fun s t halted noReset stepped => ?stays⟩
  case discards => exact (step_of_command pending).trans (runWord_of_halted halted)
  case reads => exact (hostReadChangesNothing s a rest pending).1 v
  case leaves => exact ⟨State.applyReset { s with inbox := rest }, step_of_reset pending, rfl⟩
  case stays =>
    have sameStatus := (step_keeps_error_record halted noReset stepped).1
    rwa [State.halted, sameStatus]

/-- Settles O10: a state with an error is halted. -/
theorem firstErrorIsKeptUntilReset : Obligations.FirstErrorIsKeptUntilReset := by
  intro s t c status noReset stepped
  obtain ⟨sameStatus, sameErrcmd⟩ := step_keeps_error_record (halted_of_status status) noReset stepped
  exact ⟨sameStatus.trans status, sameErrcmd⟩

/-- Settles O12: the step takes the word, and the word raised the error that it leaves. -/
theorem errorEntryChangesOnlyStatusAndErrcmd : Obligations.ErrorEntryChangesOnlyStatusAndErrcmd := by
  intro s t w rest c pending running stepped status
  have ran : runWord w { s with inbox := rest } = .next t := (step_of_command pending).symm.trans stepped
  obtain rfl := runWord_raises (s := { s with inbox := rest }) running ran status
  exact ⟨rfl, rfl, rfl, rfl⟩

end Sys2Proof.Machine
end

section
/-! Ghost write marks and reset (10_state.md R37; 70_reset_and_hazards.md R240, R241). Each write of the state sets the mark of
what it writes and no other, and reset alone clears marks. -/

namespace Sys2Proof.Machine

variable {s t : State} {i : Instr} {p : Place}

/-! The marks after each write. -/

theorem Mem.isSome_find_write {α : Type} (m : Mem α) (j k : Nat) (v : α) :
    ((m.write k v).find j).isSome = true ↔ j = k ∨ (m.find j).isSome = true := by
  rw [Mem.find_write]
  split <;> simp [*]

@[simp] theorem State.marked_writeVR (s : State) (r : VReg) (v : Vec) :
    (s.writeVR r v).marked p = true ↔ p = .vr r ∨ s.marked p = true := by
  cases p with
  | vr q =>
    by_cases same : q = r
    · subst same
      simp [State.marked]
    · rw [State.marked, s.vr_writeVR_other v same]
      simp [State.marked, same]
  | beta | alpha | llr => simp [State.marked]
  | bm k half => cases half <;> simp [State.marked]

@[simp] theorem State.marked_writeBeta (s : State) (v : Vec) :
    (s.writeBeta v).marked p = true ↔ p = .beta ∨ s.marked p = true := by
  cases p with
  | vr | beta | alpha | llr => simp [State.marked]
  | bm k half => cases half <;> simp [State.marked]

@[simp] theorem State.marked_writeAlpha (s : State) (k : Nat) (v : Vec) :
    (s.writeAlpha k v).marked p = true ↔ p = .alpha k ∨ s.marked p = true := by
  cases p with
  | alpha j => simp [State.marked, Mem.isSome_find_write]
  | vr | beta | llr => simp [State.marked]
  | bm j half => cases half <;> simp [State.marked]

@[simp] theorem State.marked_writeBmLo (s : State) (k : Nat) (v : Vec) :
    (s.writeBmLo k v).marked p = true ↔ p = .bm k .lo ∨ s.marked p = true := by
  cases p with
  | bm j half => cases half <;> simp [State.marked, Mem.isSome_find_write]
  | vr | beta | alpha | llr => simp [State.marked]

@[simp] theorem State.marked_writeBmHi (s : State) (k : Nat) (v : Vec) :
    (s.writeBmHi k v).marked p = true ↔ p = .bm k .hi ∨ s.marked p = true := by
  cases p with
  | bm j half => cases half <;> simp [State.marked, Mem.isSome_find_write]
  | vr | beta | alpha | llr => simp [State.marked]

theorem State.marked_writeBm (s : State) (k : Nat) (half : BmHalf) (v : Vec) :
    (s.writeBm k half v).marked p = true ↔ p = .bm k half ∨ s.marked p = true := by
  cases half with
  | lo => exact s.marked_writeBmLo k v
  | hi => exact s.marked_writeBmHi k v

@[simp] theorem State.marked_writeLlr (s : State) (k : Nat) (v : Half16) :
    (s.writeLlr k v).marked p = true ↔ p = .llr k ∨ s.marked p = true := by
  cases p with
  | llr j => simp [State.marked, Mem.isSome_find_write]
  | vr | beta | alpha => simp [State.marked]
  | bm j half => cases half <;> simp [State.marked]

@[simp] theorem State.marked_setKptr (s : State) (k : Nat) : (s.setKptr k).marked p = s.marked p := rfl

@[simp] theorem State.marked_setResult (s : State) (v : Half16) : (s.setResult v).marked p = s.marked p := rfl

theorem marked_fwdCommit (s : State) (k : Nat) (a : Vec) (x z le : Int) : (fwdCommit s k a x z le).marked p = true ↔
    p = .alpha (k + 1) ∨ p = .bm k .hi ∨ p = .bm k .lo ∨ s.marked p = true := by
  simp [fwdCommit]

theorem marked_bwdCommit (s : State) (k : Nat) (blo bhi a b : Vec) (z norm : Int) :
    (bwdCommit s k blo bhi a b z norm).marked p = true ↔ p = .llr k ∨ p = .beta ∨ s.marked p = true := by
  simp [bwdCommit]

@[simp] theorem State.marked_applyReset (s : State) (p : Place) : s.applyReset.marked p = false := by
  cases p with
  | vr | beta | alpha | llr => simp [State.marked, Reg.atReset]
  | bm k half => cases half <;> simp [State.marked]

/-! The marks after a command. -/

theorem Effect.keeps_mark (effect : Effect s i t) (mark : s.marked p = true) : t.marked p = true := by
  cases effect with
  | nop | setk => exact mark
  | vr v => exact (s.marked_writeVR _ v).mpr (.inr mark)
  | sta => exact (s.marked_writeAlpha _ _).mpr (.inr mark)
  | stbm => exact (s.marked_writeBm _ _ _).mpr (.inr mark)
  | stb => exact (s.marked_writeBeta _).mpr (.inr mark)
  | fwd => exact (marked_fwdCommit s _ _ _ _ _).mpr (.inr (.inr (.inr mark)))
  | bwd => exact (marked_bwdCommit s _ _ _ _ _ _ _).mpr (.inr (.inr mark))

/-- A discarded word and an error leave every mark, so a word clears none. -/
theorem runWord_keeps_mark {w : CmdWord} (ran : runWord w s = .next t) (mark : s.marked p = true) : t.marked p = true := by
  rcases runWord_next ran with ⟨-, rfl⟩ | ⟨-, e, -, rfl⟩ | ⟨-, i, -, he⟩
  · exact mark
  · exact mark
  · rcases exec_next he with ⟨c, -, rfl⟩ | ⟨-, effect⟩
    · exact mark
    · exact effect.keeps_mark mark

/-! STATUS and the invariant at reset. -/

theorem Status.word_ok : Status.ok.word = 0 := by decide

/-- A reset state is its own reset. -/
theorem resetWith_inv {params : Params} (legal : paramsLegal params = true) : (State.resetWith params).Inv :=
  applyReset_inv (s := State.resetWith params) legal

/-! The obligations. -/

/-- Settles O11: an idle step and a host read leave the marks, and a word clears none. -/
theorem onlyResetClearsGhostMarks : Obligations.OnlyResetClearsGhostMarks := by
  refine ⟨fun s t noReset stepped p mark => ?keeps, fun s rest pending => ?clears⟩
  case keeps =>
    rcases step_next stepped with ⟨-, rfl⟩ | ⟨w, rest, -, ran⟩ | ⟨a, rest, v, -, -, rfl⟩ | ⟨rest, pending, -⟩
    · exact mark
    · exact runWord_keeps_mark ran mark
    · exact mark
    · exact absurd pending (noReset rest)
  case clears => exact ⟨_, step_of_reset pending, State.marked_applyReset _⟩

/-- Settles O18: the default parameters are legal, and construction admits legal parameters alone. -/
theorem resetMeetsTheInvariant : Obligations.ResetMeetsTheInvariant := by
  refine ⟨resetWith_inv (by decide), fun p s built => ?_⟩
  obtain ⟨legal, rfl⟩ := paramsLegal_of_construct built
  exact resetWith_inv legal

/-- Settles O20: the step is `State.applyReset`, which keeps the parameters and the later events. -/
theorem resetSignalClearsTheControlState : Obligations.ResetSignalClearsTheControlState := fun _ _ pending =>
  ⟨_, step_of_reset pending, rfl, Status.word_ok, rfl, rfl, State.marked_applyReset _, rfl, rfl, rfl⟩

end Sys2Proof.Machine
end
